-- ==== Sys2Proof/Word.lean ====
section
/-! DEFINITION. The widths of the block's values (00_scope R5, R6; 30_encoding R70, R79, R85). -/

namespace Sys2Proof

/-- A buffer word, key word, keystream word or PRNG output (R5 `WORD`). -/
abbrev Word := BitVec 32

/-- A PRNG register (R5 `PRNG_W`). -/
abbrev DWord := BitVec 64

/-- A byte of a memory cell. -/
abbrev Byte := BitVec 8

/-- The 48-bit record of one bus transaction (R85). -/
abbrev Record := BitVec 48

/-- The code of PHASE, the 4-bit register of the sequencer (R16, R79). -/
abbrev PhaseCode := BitVec 4

end Sys2Proof
end

