-- ==== Sys2Proof/Config.lean ====
section
/-! DEFINITION. What one implementation fixes (00_scope R5) and the values the spec leaves free (93 U1, U2). -/

namespace Sys2Proof

/-- The parameters of 00_scope R5. The others of its table are fixed (the widths of Word.lean, `DELTA`).
They stand in State and no step changes them (log 1). -/
structure Params where
  /-- capacity of the DATA window in words -/
  nMax : Nat
  /-- capacity of the keystream RAM in words -/
  ksDepth : Nat
  /-- the value SEED writes to the PRNG register X -/
  x0 : DWord
  deriving DecidableEq, Repr

/-- R5: the exact product `DELTA * 613`, the default of X0. -/
abbrev Params.x0Exact : DWord := 0x0000017ADAD677FD#64

/-- R5: the product truncated to 32 bits, the other admissible X0. -/
abbrev Params.x0Truncated : DWord := 0x00000000DAD677FD#64

/-- The defaults of R5. -/
def Params.default : Params := { nMax := 256, ksDepth := 3200, x0 := Params.x0Exact }

/-- The admissible parameters of R5. -/
abbrev Params.Valid (p : Params) : Prop :=
  2 ≤ p.nMax ∧ p.nMax ≤ 1024 ∧ 1 ≤ p.ksDepth ∧ p.ksDepth ≤ 65535 ∧
    (p.x0 = Params.x0Exact ∨ p.x0 = Params.x0Truncated)

/-- FREE VALUE (R15, R172, U1): the byte a DATA address holds after the given reset until it is written.
It has no body: no proof can see a value of it (log 4). -/
opaque Config.dataAfterReset (reset address : Nat) : Byte

/-- FREE VALUE (R34, U2): the byte a keystream address holds after the given reset until it is written (log 5). -/
opaque Config.ksAfterReset (reset address : Nat) : Byte

end Sys2Proof
end

