-- ==== Sys2Proof/Syntax.lean ====
section
/-! DEFINITION. The instructions: one constructor for each row of spec/opcode_table.json (30_encoding R80 to R85), in the table's order. -/

namespace Sys2Proof

/-- One step of the host or of the engine. Bits the spec says are ignored are no operand (R72, R134, R142). -/
inductive Instr where
  /-- CMD_NOP: a write of CTRL with CMD 0 (R139) -/
  | cmdNop
  /-- CMD_RUN: a write of CTRL with CMD 1 (R143) -/
  | cmdRun
  /-- CMD_RSVD2: a write of CTRL with the reserved CMD 0x2 (R140) -/
  | cmdRsvd2
  /-- CMD_RSVD3: a write of CTRL with the reserved CMD 0x3 (R140) -/
  | cmdRsvd3
  /-- CMD_RSVD4: a write of CTRL with the reserved CMD 0x4 (R140) -/
  | cmdRsvd4
  /-- CMD_RSVD5: a write of CTRL with the reserved CMD 0x5 (R140) -/
  | cmdRsvd5
  /-- CMD_RSVD6: a write of CTRL with the reserved CMD 0x6 (R140) -/
  | cmdRsvd6
  /-- CMD_RSVD7: a write of CTRL with the reserved CMD 0x7 (R140) -/
  | cmdRsvd7
  /-- CMD_RSVD8: a write of CTRL with the reserved CMD 0x8 (R140) -/
  | cmdRsvd8
  /-- CMD_RSVD9: a write of CTRL with the reserved CMD 0x9 (R140) -/
  | cmdRsvd9
  /-- CMD_RSVDA: a write of CTRL with the reserved CMD 0xA (R140) -/
  | cmdRsvdA
  /-- CMD_RSVDB: a write of CTRL with the reserved CMD 0xB (R140) -/
  | cmdRsvdB
  /-- CMD_RSVDC: a write of CTRL with the reserved CMD 0xC (R140) -/
  | cmdRsvdC
  /-- CMD_RSVDD: a write of CTRL with the reserved CMD 0xD (R140) -/
  | cmdRsvdD
  /-- CMD_RSVDE: a write of CTRL with the reserved CMD 0xE (R140) -/
  | cmdRsvdE
  /-- CMD_RSVDF: a write of CTRL with the reserved CMD 0xF (R140) -/
  | cmdRsvdF
  /-- WR_COUNT: a write of COUNT (R135) -/
  | wrCount (v : Word)
  /-- WR_KEY0: a write of KEY0 (R136) -/
  | wrKey0 (v : Word)
  /-- WR_KEY1: a write of KEY1 (R136) -/
  | wrKey1 (v : Word)
  /-- WR_KEY2: a write of KEY2 (R136) -/
  | wrKey2 (v : Word)
  /-- WR_KEY3: a write of KEY3 (R136) -/
  | wrKey3 (v : Word)
  /-- WR_STATUS_RO: a write of the read-only STATUS (R134) -/
  | wrStatusRo
  /-- WR_INFO_RO: a write of the read-only INFO (R134) -/
  | wrInfoRo
  /-- WR_ROUNDS_RO: a write of the read-only ROUNDS (R134) -/
  | wrRoundsRo
  /-- WR_DRAWS_RO: a write of the read-only DRAWS (R134) -/
  | wrDrawsRo
  /-- WR_DATA: a write of DATA[i] (R137) -/
  | wrData (i : BitVec 10) (v : Word)
  /-- RD_CTRL: a read of CTRL (R131) -/
  | rdCtrl
  /-- RD_STATUS: a read of STATUS (R131) -/
  | rdStatus
  /-- RD_COUNT: a read of COUNT (R131) -/
  | rdCount
  /-- RD_INFO: a read of INFO (R131) -/
  | rdInfo
  /-- RD_KEY0: a read of KEY0 (R131) -/
  | rdKey0
  /-- RD_KEY1: a read of KEY1 (R131) -/
  | rdKey1
  /-- RD_KEY2: a read of KEY2 (R131) -/
  | rdKey2
  /-- RD_KEY3: a read of KEY3 (R131) -/
  | rdKey3
  /-- RD_ROUNDS: a read of ROUNDS (R131) -/
  | rdRounds
  /-- RD_DRAWS: a read of DRAWS (R131) -/
  | rdDraws
  /-- RD_DATA: a read of DATA[i] (R131, R137) -/
  | rdData (i : BitVec 10)
  /-- BUSERR_MISALIGNED_1: an access with addr[1:0] = 1, addr[12:2] = off (R142) -/
  | buserrMisaligned1 (we : Bool) (off : BitVec 11)
  /-- BUSERR_MISALIGNED_2: an access with addr[1:0] = 2, addr[12:2] = off (R142) -/
  | buserrMisaligned2 (we : Bool) (off : BitVec 11)
  /-- BUSERR_MISALIGNED_3: an access with addr[1:0] = 3, addr[12:2] = off (R142) -/
  | buserrMisaligned3 (we : Bool) (off : BitVec 11)
  /-- BUSERR_UNMAPPED: an aligned access to an unmapped offset, addr[12:2] = off (R142) -/
  | buserrUnmapped (we : Bool) (off : BitVec 11)
  /-- SEED: the micro-op of PHASE 1 (R117) -/
  | seed
  /-- FILL: the micro-op of PHASE 2 (R118) -/
  | fill
  /-- ENC_STEP: the micro-op of PHASE 3 (R119) -/
  | encStep
  /-- DEC_STEP: the micro-op of PHASE 4 (R120) -/
  | decStep
  /-- PRNG_SEED: seed the PRNG with the increment s; no encoding (R87) -/
  | prngSeed (s : DWord)
  /-- PRNG_NEXT: draw one PRNG output; no encoding (R88) -/
  | prngNext
  deriving DecidableEq, Repr

/-- What the decoder reads: the record of a transaction (R85), or the value of PHASE that selects a micro-op (R81). -/
inductive Encoded where
  | txn (t : Record)
  | phase (c : PhaseCode)
  deriving DecidableEq, Repr

/-- Why the decoder answers no instruction. -/
inductive DecodeError where
  /-- T[47:46] is not 0, so the record is no transaction (R85) -/
  | recordBits
  /-- PHASE is IDLE or FAULT: the engine has no step (R116) -/
  | noMicroOp
  /-- PHASE is one of the reserved codes 0x5 to 0xE (R79, R82) -/
  | reservedPhase
  deriving DecidableEq, Repr

end Sys2Proof
end

