-- ==== Sys2Proof/Machine/State.lean ====
section
/-! DEFINITION. The state of the block (10_state R11 to R37), its values after reset (70_reset_and_hazards R171), and why a step can stop. -/

namespace Sys2Proof.Machine

/-- Bytes by address, in one canonical form: addresses strictly rising. An unlisted address holds NO value here:
the spec leaves it unspecified (R15, R34), and a read of it gives a free value (Ops.lean; log 4, 5). -/
abbrev Memory := List Host.Cell

/-- The canonical form of a memory. -/
abbrev Memory.wf (m : Memory) : Prop := m.Pairwise (fun c d => c.1 < d.1)

/-- What comes next: the outside world's input and the schedule of the two agents as plain data (R10; log 2). -/
inductive Event where
  /-- the host presents a transaction, given by its record (R70, R85) -/
  | txn (t : Record)
  /-- the engine takes its next step, if it has one (R116) -/
  | engine
  /-- the block is reset (R171) -/
  | reset
  deriving DecidableEq, Repr

/-- The answer to a transaction on bus_rdata and bus_err (R70). `rdata` is `none` where the spec states no read data:
the answer to a write that completes without error (log 3). -/
structure Response where
  rdata : Option Word
  err : Bool
  deriving DecidableEq, Repr

/-- Why the machine stops with a fault. The block's own faults (R151) are no stops: they are next states.
No run from reset reaches one of these (42_sequencer R130; log 9). -/
inductive Fault where
  /-- raised by ENC_STEP and DEC_STEP on an index outside the DATA window (R15, R47); safe -/
  | dataIndex (i : Nat)
  /-- raised by FILL and DEC_STEP on an index outside the keystream RAM (R34, R46); safe -/
  | ksIndex (j : Nat)
  /-- raised by ENC_STEP and DEC_STEP with N = 0: the index is a remainder modulo 0, which R7 does not give; safe -/
  | zeroMagnitude
  deriving DecidableEq, Repr

/-- Why a step has no meaning. -/
inductive Refusal where
  /-- raised by an arm of Dispatch.lean without a meaning; safe (no arm of this model is one) -/
  | notModelled (mnemonic : String)
  /-- raised by the engine's step in a reserved PHASE 0x5 to 0xE, which no rule writes (R82, U7; log 7); safe -/
  | reservedPhase (code : PhaseCode)
  /-- raised by a listed record with T[47:46] not 0, which no transaction has (R85; log 8); safe -/
  | notATransaction (t : Record)
  deriving DecidableEq, Repr

/-- The causes of the block's own fault entry (R151). -/
inductive FaultCode where
  | keyWeak
  | countOne
  | countRange
  | ksAlloc
  | seedBad
  | badCmd
  deriving DecidableEq, Repr

/-- The codes of PHASE (R79). -/
abbrev Phase.idle : PhaseCode := 0x0#4
abbrev Phase.seed : PhaseCode := 0x1#4
abbrev Phase.fill : PhaseCode := 0x2#4
abbrev Phase.enc : PhaseCode := 0x3#4
abbrev Phase.dec : PhaseCode := 0x4#4
abbrev Phase.fault : PhaseCode := 0xF#4

/-- The state: R11's list, then the model's own fields. -/
structure State where
  /-- COUNT (R13) -/
  count : Word
  /-- KEY0 (R14) -/
  key0 : Word
  /-- KEY1 (R14) -/
  key1 : Word
  /-- KEY2 (R14) -/
  key2 : Word
  /-- KEY3 (R14) -/
  key3 : Word
  /-- PHASE (R16) -/
  phase : PhaseCode
  /-- DONE (R17) -/
  done : Bool
  /-- FAULT (R18) -/
  fault : Bool
  /-- ERR (R19) -/
  err : BitVec 4
  /-- WIGN (R20) -/
  wign : Bool
  /-- DIR (R21): false encrypt, true decrypt -/
  dir : Bool
  /-- ROUNDS (R22) -/
  rounds : Word
  /-- DRAWS (R23) -/
  draws : Word
  /-- N (R26) -/
  n : Word
  /-- RND (R27) -/
  rnd : Word
  /-- P (R28) -/
  p : Word
  /-- SUM (R29) -/
  sum : Word
  /-- KSPTR (R30) -/
  ksptr : Word
  /-- X of the PRNG (R31) -/
  prngX : DWord
  /-- W of the PRNG (R32) -/
  prngW : DWord
  /-- S of the PRNG (R33) -/
  prngS : DWord
  /-- the DATA window (R15), at the byte offsets of the host register space (R46) -/
  data : Memory
  /-- the keystream RAM (R34), word j at the bytes 4*j to 4*j+3 of its own space (R46) -/
  ks : Memory
  /-- MODEL: the parameters (R5); no step changes them (log 1) -/
  params : Params
  /-- MODEL: what is to happen, first first (log 2) -/
  inbox : List Event
  /-- MODEL: the answer to the last transaction since reset (R70; log 3) -/
  rsp : Option Response
  /-- MODEL: how many resets came before; it selects the free values of DATA and KS (log 4) -/
  resets : Nat
  deriving DecidableEq, Repr

/-- The machine right after reset (R171): every register 0, PHASE IDLE, DATA and KS unspecified (nothing listed). -/
def State.reset : State where
  count := 0#32
  key0 := 0#32
  key1 := 0#32
  key2 := 0#32
  key3 := 0#32
  phase := Phase.idle
  done := false
  fault := false
  err := 0#4
  wign := false
  dir := false
  rounds := 0#32
  draws := 0#32
  n := 0#32
  rnd := 0#32
  p := 0#32
  sum := 0#32
  ksptr := 0#32
  prngX := 0#64
  prngW := 0#64
  prngS := 0#64
  data := []
  ks := []
  params := Params.default
  inbox := []
  rsp := none
  resets := 0

end Sys2Proof.Machine
end

