-- ==== Sys2Proof/Machine/Flags.lean ====
section
/-! DEFINITION. Status flags, the STATUS and INFO words, and the writes of the flags that commands and completion share. -/

namespace Sys2Proof.Machine

/-- BUSY (R16): PHASE is SEED, FILL, ENC or DEC. It is no register. -/
def State.busy (s : State) : Bool :=
  decide (s.phase = Phase.seed) || decide (s.phase = Phase.fill) || decide (s.phase = Phase.enc) ||
    decide (s.phase = Phase.dec)

/-- A flag as bit 0 of a word. -/
def flagWord (b : Bool) : Word := (BitVec.ofBool b).setWidth 32

/-- The STATUS word (R73, R131); bits 31..13 read 0. -/
def State.statusWord (s : State) : Word :=
  flagWord s.busy ||| (flagWord s.done <<< 1) ||| (flagWord s.fault <<< 2) ||| (flagWord s.wign <<< 3) |||
    (s.err.setWidth 32 <<< 4) ||| (s.phase.setWidth 32 <<< 8) ||| (flagWord s.dir <<< 12)

/-- The INFO word (R24, R76): a constant of the parameters. -/
def State.infoWord (s : State) : Word :=
  BitVec.ofNat 32 s.params.nMax ||| (BitVec.ofNat 32 s.params.ksDepth <<< 16)

/-- The codes of R151. -/
def FaultCode.code : FaultCode → BitVec 4
  | .keyWeak => 1#4
  | .countOne => 2#4
  | .countRange => 3#4
  | .ksAlloc => 4#4
  | .seedBad => 5#4
  | .badCmd => 6#4

/-- WIGN <- 1 and nothing else (R133). -/
def State.markIgnored (s : State) : State := { s with wign := true }

/-- Completion (R121). -/
def State.complete (s : State) : State := { s with phase := Phase.idle, done := true }

end Sys2Proof.Machine
end

