-- ==== Sys2Proof/Machine/Operands.lean ====
section
/-! DEFINITION. Operand forms: the count, the key words, the packing of the seed, DATA and KS addresses, the indexes of a sweep. -/

namespace Sys2Proof.Machine

/-! ## The count (30_encoding R74) -/

/-- `n = |sint32(COUNT)|`, exact. -/
def magnitude (count : Word) : Nat := count.toInt.natAbs

/-- `sint32(COUNT) < 0`: decrypt. -/
def negative (count : Word) : Bool := decide (count.toInt < 0)

/-! ## Halves of a 64-bit value (R8, R75) -/

/-- `lo32` (R8) -/
def lo32 (v : DWord) : Word := v.extractLsb' 0 32

/-- `hi32` (R8) -/
def hi32 (v : DWord) : Word := v.extractLsb' 32 32

/-- `swap32` (R8): the two halves exchanged. -/
def swap32 (v : DWord) : DWord := (v >>> 32) ||| (v <<< 32)

/-- `pack(a, b)` (R75): a in bits 31..0, b in bits 63..32. -/
def pack (a b : Word) : DWord := a.setWidth 64 ||| (b.setWidth 64 <<< 32)

/-! ## The key word of a round function (R105) -/

/-- `k = (p and 3) xor e` -/
def keyIndex (p : Word) (e : BitVec 2) : BitVec 2 := p.extractLsb' 0 2 ^^^ e

/-- `e = (sum >> 2) and 3` (R106) -/
def sumIndex (sum : Word) : BitVec 2 := sum.extractLsb' 2 2

/-- KEYk (R14) -/
def State.keyWord (s : State) (k : BitVec 2) : Word :=
  if k = 0#2 then s.key0 else if k = 1#2 then s.key1 else if k = 2#2 then s.key2 else s.key3

/-! ## Addresses -/

/-- The byte offset of DATA[i] (R46, R71). -/
def dataAddr (i : Nat) : Nat := 0x1000 + 4 * i

/-- The first byte of KS[j] in the keystream space (R46). -/
def ksAddr (j : Nat) : Nat := 4 * j

/-! ## The positions of a sweep (R47, R106) -/

/-- `(P + 1) mod N` -/
def State.nextIndex (s : State) : Nat := ((s.p + 1#32) % s.n).toNat

/-- `(P + N - 1) mod N` -/
def State.prevIndex (s : State) : Nat := ((s.p + s.n - 1#32) % s.n).toNat

/-- `P` -/
def State.wordIndex (s : State) : Nat := s.p.toNat

/-- The stop of a sweep step whose indexes lie outside the DATA window; none in a state a run reaches (R130; log 9). -/
def State.sweepStop (s : State) : Option Fault :=
  if s.n = 0#32 then some .zeroMagnitude
  else if s.params.nMax ≤ s.nextIndex then some (.dataIndex s.nextIndex)
  else if s.params.nMax ≤ s.prevIndex then some (.dataIndex s.prevIndex)
  else if s.params.nMax ≤ s.wordIndex then some (.dataIndex s.wordIndex)
  else none

end Sys2Proof.Machine
end

