-- ==== Sys2Proof/Machine/Ops.lean ====
section
/-! DEFINITION. Named operations over memory, the bus answer and the registers; fault entry and reset. -/

namespace Sys2Proof.Machine

/-! ## Bytes of a memory -/

/-- The byte an address holds; `none` where nothing has been written since reset. -/
def Memory.byteAt : Memory → Nat → Option Byte
  | [], _ => none
  | c :: m, a => if c.1 = a then some c.2 else Memory.byteAt m a

/-- Write one byte, keeping the addresses strictly rising. -/
def Memory.store : Memory → Nat → Byte → Memory
  | [], a, v => [(a, v)]
  | c :: m, a, v =>
    if a < c.1 then (a, v) :: c :: m
    else if a = c.1 then (a, v) :: m
    else c :: Memory.store m a v

/-! ## Words: four bytes, little-endian, decided here alone (R48, D19; log 6) -/

/-- The word of four bytes, the first at bits 7..0. -/
def wordOfBytes (b0 b1 b2 b3 : Byte) : Word := b3 ++ b2 ++ b1 ++ b0

/-- Write the word at the bytes `a` to `a + 3`. -/
def Memory.storeWord (m : Memory) (a : Nat) (v : Word) : Memory :=
  Memory.store (Memory.store (Memory.store (Memory.store m a (v.extractLsb' 0 8)) (a + 1) (v.extractLsb' 8 8))
    (a + 2) (v.extractLsb' 16 8)) (a + 3) (v.extractLsb' 24 8)

/-! ## The DATA window and the keystream RAM -/

/-- A byte of the DATA window: the one written last, or a free value (R15, R172; log 4). -/
def State.dataByte (s : State) (a : Nat) : Byte :=
  (Memory.byteAt s.data a).getD (Config.dataAfterReset s.resets a)

/-- DATA[i] (R9, R15) -/
def State.dataWord (s : State) (i : Nat) : Word :=
  wordOfBytes (s.dataByte (dataAddr i)) (s.dataByte (dataAddr i + 1)) (s.dataByte (dataAddr i + 2))
    (s.dataByte (dataAddr i + 3))

/-- DATA[i] <- v (R9) -/
def State.setData (s : State) (i : Nat) (v : Word) : State :=
  { s with data := Memory.storeWord s.data (dataAddr i) v }

/-- A byte of the keystream RAM: the one written last, or a free value (R34; log 5). -/
def State.ksByte (s : State) (a : Nat) : Byte :=
  (Memory.byteAt s.ks a).getD (Config.ksAfterReset s.resets a)

/-- KS[j] (R9, R34) -/
def State.ksWord (s : State) (j : Nat) : Word :=
  wordOfBytes (s.ksByte (ksAddr j)) (s.ksByte (ksAddr j + 1)) (s.ksByte (ksAddr j + 2)) (s.ksByte (ksAddr j + 3))

/-- KS[j] <- v (R9) -/
def State.setKs (s : State) (j : Nat) (v : Word) : State :=
  { s with ks := Memory.storeWord s.ks (ksAddr j) v }

/-! ## The answer to a transaction (R70) -/

/-- `return (rdata = v, err = 0)` (R131) -/
def State.answerRead (s : State) (v : Word) : State := { s with rsp := some ⟨some v, false⟩ }

/-- `err = 0` of a write (R132); the spec states no read data (log 3). -/
def State.answerWrite (s : State) : State := { s with rsp := some ⟨none, false⟩ }

/-- `err = 1`, `rdata = 0x00000000`, no state change (R142). -/
def State.answerBusError (s : State) : State := { s with rsp := some ⟨some 0#32, true⟩ }

/-- R132, R133: a write that takes effect only in IDLE; in any other PHASE it sets WIGN and nothing else. -/
def State.gatedWrite (s : State) (effect : State → State) : State :=
  (if s.phase = Phase.idle then effect s else s.markIgnored).answerWrite

/-! ## Fault entry (60_exceptions R152). There is no return from it but reset (R155). -/

/-- `raise Fault(code)` -/
def State.raiseFault (s : State) (c : FaultCode) : State :=
  { s with phase := Phase.fault, fault := true, err := c.code, done := false }

/-! ## Reset (70_reset_and_hazards R171) -/

/-- The reset step: the reset values, the same block (parameters) and the same world outside (log 15).
DATA and KS hold values nobody knows again, so the free values are fresh ones. -/
def State.resetStep (s : State) : State :=
  { State.reset with params := s.params, inbox := s.inbox, resets := s.resets + 1 }

end Sys2Proof.Machine
end

