-- ==== Sys2Proof/Machine/BusErrors.lean ====
section
/-! DEFINITION. Transactions answered with a bus error (43_host_interface R142): no state change, no WIGN, no fault. -/

namespace Sys2Proof.Machine

/-- BUSERR_MISALIGNED_1 (R50, R142), a read or a write -/
def execBuserrMisaligned1 (_we : Bool) (_off : BitVec 11) (s : State) : Host.Outcome State Fault Refusal :=
  .next s.answerBusError

/-- BUSERR_MISALIGNED_2 (R50, R142) -/
def execBuserrMisaligned2 (_we : Bool) (_off : BitVec 11) (s : State) : Host.Outcome State Fault Refusal :=
  .next s.answerBusError

/-- BUSERR_MISALIGNED_3 (R50, R142) -/
def execBuserrMisaligned3 (_we : Bool) (_off : BitVec 11) (s : State) : Host.Outcome State Fault Refusal :=
  .next s.answerBusError

/-- BUSERR_UNMAPPED (R71, R142) -/
def execBuserrUnmapped (_we : Bool) (_off : BitVec 11) (s : State) : Host.Outcome State Fault Refusal :=
  .next s.answerBusError

end Sys2Proof.Machine
end

