-- ==== Sys2Proof/Machine/Datapath.lean ====
section
/-! DEFINITION. The combinational functions of the cipher datapath (41_cipher_datapath) and of the PRNG (40_prng). -/

namespace Sys2Proof.Machine

/-- DELTA (R96) -/
def delta : Word := 0x9E3779B9#32

/-- `rounds(n) = 12 + floor(128 / n)` (R102) -/
def roundsOf (n : Nat) : Nat := 12 + 128 / n

/-- The keystream length `L(n) = n * rounds(n)` (R102) -/
def streamLength (n : Nat) : Nat := n * roundsOf n

/-- 1 for a non-zero word, a term of `popcount_nz` (R7) -/
def nonZero (v : Word) : Nat := if v = 0#32 then 0 else 1

/-- `key_ok` (R100): at least two of the four key words are not zero. -/
def keyOk (k0 k1 k2 k3 : Word) : Bool := decide (2 ≤ nonZero k0 + nonZero k1 + nonZero k2 + nonZero k3)

/-- `seed_of` (R103): two pairings, then DELTA; made odd. -/
def seedOf (k0 k1 k2 k3 : Word) : DWord :=
  let s1 := pack (k0 ^^^ k1) (k2 ^^^ k3)
  let s2 := pack (k0 ^^^ k2) (k1 ^^^ k3)
  let s := if s1 ≠ 0#64 then s1 else if s2 ≠ 0#64 then s2 else delta.setWidth 64
  if s.getLsbD 0 then s else s + 1#64

/-- R87's preconditions of an increment: not 0, and odd. -/
def seedGood (s : DWord) : Bool := decide (s ≠ 0#64) && s.getLsbD 0

/-- The round function (R105; from general knowledge, log 20); `key` is KEYk. -/
def mx (y z sum key : Word) : Word :=
  (((z >>> 5) ^^^ (y <<< 2)) + ((y >>> 3) ^^^ (z <<< 4))) ^^^ ((sum ^^^ y) + (key ^^^ z))

/-- `t = X * X + W`, W the value just advanced (R88) -/
def weylSquare (x w : DWord) : DWord := x * x + w

/-- The PRNG registers X and W after one draw (R88). -/
def prngAdvance (x w s : DWord) : DWord × DWord := (swap32 (weylSquare x (w + s)), w + s)

end Sys2Proof.Machine
end

