-- ==== Sys2Proof/Machine/Commands.lean ====
section
/-! DEFINITION. The commands: writes of CTRL (43_host_interface R138 to R140, R143, R144). -/

namespace Sys2Proof.Machine

/-- CMD_NOP (R139): nothing in IDLE; gated like every write of CTRL. -/
def execCmdNop (s : State) : Host.Outcome State Fault Refusal := .next (s.gatedWrite id)

/-- What every CMD_RUN in IDLE writes before its checks (R143; R154: these writes stay when it faults). -/
def State.beginRun (s : State) : State :=
  { s with wign := false, done := false, rounds := 0#32, draws := 0#32, dir := negative s.count }

/-- The launch of an accepted operation of magnitude n (R143, R145). -/
def State.launch (s : State) (n : Nat) : State :=
  { s with n := BitVec.ofNat 32 n, rounds := BitVec.ofNat 32 (roundsOf n), phase := Phase.seed }

/-- CMD_RUN's checks in the order of R143 and R153, for the magnitude n, after `beginRun`. -/
def State.runChecked (s : State) (n : Nat) : State :=
  if keyOk s.key0 s.key1 s.key2 s.key3 = false then s.raiseFault .keyWeak
  else if n = 1 then s.raiseFault .countOne
  else if s.params.nMax < n then s.raiseFault .countRange
  else if n = 0 then { s with done := true }
  else if s.dir = true ∧ s.params.ksDepth < streamLength n then s.raiseFault .ksAlloc
  else s.launch n

/-- CMD_RUN's effect in IDLE (R143), one step with its checks (D30). -/
def State.run (s : State) : State := s.beginRun.runChecked (magnitude s.count)

/-- CMD_RUN (R143) -/
def execCmdRun (s : State) : Host.Outcome State Fault Refusal := .next (s.gatedWrite State.run)

/-- A reserved command in IDLE (R140). -/
def State.badCommand (s : State) : State := s.raiseFault .badCmd

/-- A reserved CMD written to CTRL (R140, R133). -/
def reservedCommand (s : State) : State := s.gatedWrite State.badCommand

/-- CMD_RSVD2 (R140) -/
def execCmdRsvd2 (s : State) : Host.Outcome State Fault Refusal := .next (reservedCommand s)

/-- CMD_RSVD3 (R140) -/
def execCmdRsvd3 (s : State) : Host.Outcome State Fault Refusal := .next (reservedCommand s)

/-- CMD_RSVD4 (R140) -/
def execCmdRsvd4 (s : State) : Host.Outcome State Fault Refusal := .next (reservedCommand s)

/-- CMD_RSVD5 (R140) -/
def execCmdRsvd5 (s : State) : Host.Outcome State Fault Refusal := .next (reservedCommand s)

/-- CMD_RSVD6 (R140) -/
def execCmdRsvd6 (s : State) : Host.Outcome State Fault Refusal := .next (reservedCommand s)

/-- CMD_RSVD7 (R140) -/
def execCmdRsvd7 (s : State) : Host.Outcome State Fault Refusal := .next (reservedCommand s)

/-- CMD_RSVD8 (R140) -/
def execCmdRsvd8 (s : State) : Host.Outcome State Fault Refusal := .next (reservedCommand s)

/-- CMD_RSVD9 (R140) -/
def execCmdRsvd9 (s : State) : Host.Outcome State Fault Refusal := .next (reservedCommand s)

/-- CMD_RSVDA (R140) -/
def execCmdRsvdA (s : State) : Host.Outcome State Fault Refusal := .next (reservedCommand s)

/-- CMD_RSVDB (R140) -/
def execCmdRsvdB (s : State) : Host.Outcome State Fault Refusal := .next (reservedCommand s)

/-- CMD_RSVDC (R140) -/
def execCmdRsvdC (s : State) : Host.Outcome State Fault Refusal := .next (reservedCommand s)

/-- CMD_RSVDD (R140) -/
def execCmdRsvdD (s : State) : Host.Outcome State Fault Refusal := .next (reservedCommand s)

/-- CMD_RSVDE (R140) -/
def execCmdRsvdE (s : State) : Host.Outcome State Fault Refusal := .next (reservedCommand s)

/-- CMD_RSVDF (R140) -/
def execCmdRsvdF (s : State) : Host.Outcome State Fault Refusal := .next (reservedCommand s)

end Sys2Proof.Machine
end

