-- ==== Sys2Proof/Machine/Prng.lean ====
section
/-! DEFINITION. The PRNG's two operations (40_prng R86 to R93) and the rows PRNG_SEED and PRNG_NEXT. -/

namespace Sys2Proof.Machine

/-- `S <- s; X <- 0; W <- 0` (R87) -/
def State.seedPrng (s : State) (increment : DWord) : State :=
  { s with prngS := increment, prngX := 0#64, prngW := 0#64 }

/-- One draw: W and X advance (R88); nothing else changes. -/
def State.draw (s : State) : State :=
  { s with
    prngX := (prngAdvance s.prngX s.prngW s.prngS).1
    prngW := (prngAdvance s.prngX s.prngW s.prngS).2 }

/-- The output of the draw just made: `r = lo32(X)` (R88, R89). -/
def State.drawn (s : State) : Word := lo32 s.prngX

/-- PRNG_SEED (R87): the preconditions are tested before anything is written (log 12). -/
def execPrngSeed (increment : DWord) (s : State) : Host.Outcome State Fault Refusal :=
  if seedGood increment then .next (s.seedPrng increment) else .next (s.raiseFault .seedBad)

/-- PRNG_NEXT (R88): the output is lo32(X) of the next state (log 12). -/
def execPrngNext (s : State) : Host.Outcome State Fault Refusal := .next s.draw

end Sys2Proof.Machine
end

