-- ==== Sys2Proof/Machine/Engine.lean ====
section
/-! DEFINITION. The micro-ops of the engine (42_sequencer R116 to R121). -/

namespace Sys2Proof.Machine

/-! ## SEED (R117) -/

/-- The increment of an operation under the key in State (R103). -/
def State.increment (s : State) : DWord := seedOf s.key0 s.key1 s.key2 s.key3

/-- The sweep's start values: encrypt at word 0, decrypt at word N - 1 with the sum of the last round. -/
def State.startSweep (s : State) : State :=
  if s.dir then { s with sum := s.rounds * delta, p := s.n - 1#32, phase := Phase.fill }
  else { s with sum := 0#32, p := 0#32, phase := Phase.enc }

/-- SEED once the increment has passed its test. -/
def State.launchSweep (s : State) : State :=
  { s.seedPrng s.increment with prngX := s.params.x0, rnd := s.rounds, ksptr := 0#32 }.startSweep

/-- SEED (R117) -/
def execSeed (s : State) : Host.Outcome State Fault Refusal :=
  if seedGood s.increment then .next s.launchSweep else .next (s.raiseFault .seedBad)

/-! ## FILL (R118) -/

/-- One draw written to KS[KSPTR]; the last one of the operation moves to DEC. -/
def State.fillWord (s : State) : State :=
  { (s.draw.setKs s.ksptr.toNat s.draw.drawn) with
    ksptr := s.ksptr + 1#32
    draws := s.draws + 1#32
    phase := if s.ksptr + 1#32 = s.n * s.rounds then Phase.dec else s.phase }

/-- FILL (R118); an index outside KS stops (log 9). -/
def execFill (s : State) : Host.Outcome State Fault Refusal :=
  if s.params.ksDepth ≤ s.ksptr.toNat then .fault (.ksIndex s.ksptr.toNat) else .next s.fillWord

/-! ## The word update both sweeps share (R106 to R108) -/

/-- The whitened mixing value of the word at P: `MX(y, z, sum, P, e) xor r`. -/
def State.whitened (s : State) (sum r : Word) : Word :=
  mx (s.dataWord s.nextIndex) (s.dataWord s.prevIndex) sum (s.keyWord (keyIndex s.p (sumIndex sum))) ^^^ r

/-! ## ENC_STEP (R119) -/

/-- The sum of this step: a new round adds DELTA. -/
def State.encSum (s : State) : Word := if s.p = 0#32 then s.sum + delta else s.sum

/-- The word update with a fresh draw (R107). -/
def State.encUpdate (s : State) : State :=
  { (s.draw.setData s.wordIndex (s.dataWord s.wordIndex + s.whitened s.encSum s.draw.drawn)) with
    sum := s.encSum
    draws := s.draws + 1#32 }

/-- The position after the update: forward, and the step at N - 1 ends the round. -/
def State.encAdvance (s : State) : State :=
  if s.p = s.n - 1#32 then
    if s.rnd - 1#32 = 0#32 then { s with p := 0#32, rnd := s.rnd - 1#32 }.complete
    else { s with p := 0#32, rnd := s.rnd - 1#32 }
  else { s with p := s.p + 1#32 }

/-- ENC_STEP (R119) -/
def execEncStep (s : State) : Host.Outcome State Fault Refusal :=
  match s.sweepStop with
  | some f => .fault f
  | none => .next s.encUpdate.encAdvance

/-! ## DEC_STEP (R120) -/

/-- `KSPTR - 1`: the last-produced entry not yet consumed. -/
def State.replayIndex (s : State) : Nat := (s.ksptr - 1#32).toNat

/-- The word update undone with the keystream word of its ENC_STEP (R108). -/
def State.decUpdate (s : State) : State :=
  { (s.setData s.wordIndex (s.dataWord s.wordIndex - s.whitened s.sum (s.ksWord s.replayIndex))) with
    ksptr := s.ksptr - 1#32 }

/-- The position after the update: backward, and the step at 0 ends the round. -/
def State.decAdvance (s : State) : State :=
  if s.p = 0#32 then
    if s.rnd - 1#32 = 0#32 then
      { s with sum := s.sum - delta, rnd := s.rnd - 1#32, p := s.n - 1#32 }.complete
    else { s with sum := s.sum - delta, rnd := s.rnd - 1#32, p := s.n - 1#32 }
  else { s with p := s.p - 1#32 }

/-- DEC_STEP (R120); an index outside KS stops (log 9). -/
def execDecStep (s : State) : Host.Outcome State Fault Refusal :=
  match s.sweepStop with
  | some f => .fault f
  | none =>
    if s.params.ksDepth ≤ s.replayIndex then .fault (.ksIndex s.replayIndex)
    else .next s.decUpdate.decAdvance

end Sys2Proof.Machine
end

