-- ==== Sys2Proof/Machine/Reads.lean ====
section
/-! DEFINITION. Register and DATA reads (43_host_interface R131, R137). A read changes no state (20_memory R53). -/

namespace Sys2Proof.Machine

/-- RD_CTRL (R25, R131): CTRL has no storage and reads 0. -/
def execRdCtrl (s : State) : Host.Outcome State Fault Refusal := .next (s.answerRead 0#32)

/-- RD_STATUS (R73, R131) -/
def execRdStatus (s : State) : Host.Outcome State Fault Refusal := .next (s.answerRead s.statusWord)

/-- RD_COUNT (R131) -/
def execRdCount (s : State) : Host.Outcome State Fault Refusal := .next (s.answerRead s.count)

/-- RD_INFO (R76, R131) -/
def execRdInfo (s : State) : Host.Outcome State Fault Refusal := .next (s.answerRead s.infoWord)

/-- RD_KEY0 (R131) -/
def execRdKey0 (s : State) : Host.Outcome State Fault Refusal := .next (s.answerRead s.key0)

/-- RD_KEY1 (R131) -/
def execRdKey1 (s : State) : Host.Outcome State Fault Refusal := .next (s.answerRead s.key1)

/-- RD_KEY2 (R131) -/
def execRdKey2 (s : State) : Host.Outcome State Fault Refusal := .next (s.answerRead s.key2)

/-- RD_KEY3 (R131) -/
def execRdKey3 (s : State) : Host.Outcome State Fault Refusal := .next (s.answerRead s.key3)

/-- RD_ROUNDS (R131) -/
def execRdRounds (s : State) : Host.Outcome State Fault Refusal := .next (s.answerRead s.rounds)

/-- RD_DRAWS (R131) -/
def execRdDraws (s : State) : Host.Outcome State Fault Refusal := .next (s.answerRead s.draws)

/-- What a read of DATA[i] returns: 0 while BUSY (R137, R176). -/
def State.visibleWord (s : State) (i : Nat) : Word := if s.busy then 0#32 else s.dataWord i

/-- RD_DATA (R131, R137); an index beyond the window is a bus error (R142). -/
def execRdData (i : BitVec 10) (s : State) : Host.Outcome State Fault Refusal :=
  if i.toNat < s.params.nMax then .next (s.answerRead (s.visibleWord i.toNat)) else .next s.answerBusError

end Sys2Proof.Machine
end

