-- ==== Sys2Proof/Machine/Writes.lean ====
section
/-! DEFINITION. Register and DATA writes (43_host_interface R132 to R137). -/

namespace Sys2Proof.Machine

/-- WR_COUNT (R135) -/
def execWrCount (v : Word) (s : State) : Host.Outcome State Fault Refusal :=
  .next (s.gatedWrite fun t => { t with count := v })

/-- WR_KEY0 (R136) -/
def execWrKey0 (v : Word) (s : State) : Host.Outcome State Fault Refusal :=
  .next (s.gatedWrite fun t => { t with key0 := v })

/-- WR_KEY1 (R136) -/
def execWrKey1 (v : Word) (s : State) : Host.Outcome State Fault Refusal :=
  .next (s.gatedWrite fun t => { t with key1 := v })

/-- WR_KEY2 (R136) -/
def execWrKey2 (v : Word) (s : State) : Host.Outcome State Fault Refusal :=
  .next (s.gatedWrite fun t => { t with key2 := v })

/-- WR_KEY3 (R136) -/
def execWrKey3 (v : Word) (s : State) : Host.Outcome State Fault Refusal :=
  .next (s.gatedWrite fun t => { t with key3 := v })

/-- WR_STATUS_RO (R134): completes without error, changes no state, in every PHASE. -/
def execWrStatusRo (s : State) : Host.Outcome State Fault Refusal := .next s.answerWrite

/-- WR_INFO_RO (R134) -/
def execWrInfoRo (s : State) : Host.Outcome State Fault Refusal := .next s.answerWrite

/-- WR_ROUNDS_RO (R134) -/
def execWrRoundsRo (s : State) : Host.Outcome State Fault Refusal := .next s.answerWrite

/-- WR_DRAWS_RO (R134) -/
def execWrDrawsRo (s : State) : Host.Outcome State Fault Refusal := .next s.answerWrite

/-- WR_DATA (R137); an index beyond the window is a bus error (R142), decided before the gate (R153). -/
def execWrData (i : BitVec 10) (v : Word) (s : State) : Host.Outcome State Fault Refusal :=
  if i.toNat < s.params.nMax then .next (s.gatedWrite fun t => t.setData i.toNat v)
  else .next s.answerBusError

end Sys2Proof.Machine
end

