-- ==== Sys2Proof/Machine/Dispatch.lean ====
section
/-! DEFINITION. One arm per instruction: each calls its own meaning. -/

namespace Sys2Proof.Machine

def exec (i : Instr) (s : State) : Host.Outcome State Fault Refusal :=
  match i with
  | .cmdNop => Sys2Proof.Machine.execCmdNop s
  | .cmdRun => Sys2Proof.Machine.execCmdRun s
  | .cmdRsvd2 => Sys2Proof.Machine.execCmdRsvd2 s
  | .cmdRsvd3 => Sys2Proof.Machine.execCmdRsvd3 s
  | .cmdRsvd4 => Sys2Proof.Machine.execCmdRsvd4 s
  | .cmdRsvd5 => Sys2Proof.Machine.execCmdRsvd5 s
  | .cmdRsvd6 => Sys2Proof.Machine.execCmdRsvd6 s
  | .cmdRsvd7 => Sys2Proof.Machine.execCmdRsvd7 s
  | .cmdRsvd8 => Sys2Proof.Machine.execCmdRsvd8 s
  | .cmdRsvd9 => Sys2Proof.Machine.execCmdRsvd9 s
  | .cmdRsvdA => Sys2Proof.Machine.execCmdRsvdA s
  | .cmdRsvdB => Sys2Proof.Machine.execCmdRsvdB s
  | .cmdRsvdC => Sys2Proof.Machine.execCmdRsvdC s
  | .cmdRsvdD => Sys2Proof.Machine.execCmdRsvdD s
  | .cmdRsvdE => Sys2Proof.Machine.execCmdRsvdE s
  | .cmdRsvdF => Sys2Proof.Machine.execCmdRsvdF s
  | .wrCount v => Sys2Proof.Machine.execWrCount v s
  | .wrKey0 v => Sys2Proof.Machine.execWrKey0 v s
  | .wrKey1 v => Sys2Proof.Machine.execWrKey1 v s
  | .wrKey2 v => Sys2Proof.Machine.execWrKey2 v s
  | .wrKey3 v => Sys2Proof.Machine.execWrKey3 v s
  | .wrStatusRo => Sys2Proof.Machine.execWrStatusRo s
  | .wrInfoRo => Sys2Proof.Machine.execWrInfoRo s
  | .wrRoundsRo => Sys2Proof.Machine.execWrRoundsRo s
  | .wrDrawsRo => Sys2Proof.Machine.execWrDrawsRo s
  | .wrData j v => Sys2Proof.Machine.execWrData j v s
  | .rdCtrl => Sys2Proof.Machine.execRdCtrl s
  | .rdStatus => Sys2Proof.Machine.execRdStatus s
  | .rdCount => Sys2Proof.Machine.execRdCount s
  | .rdInfo => Sys2Proof.Machine.execRdInfo s
  | .rdKey0 => Sys2Proof.Machine.execRdKey0 s
  | .rdKey1 => Sys2Proof.Machine.execRdKey1 s
  | .rdKey2 => Sys2Proof.Machine.execRdKey2 s
  | .rdKey3 => Sys2Proof.Machine.execRdKey3 s
  | .rdRounds => Sys2Proof.Machine.execRdRounds s
  | .rdDraws => Sys2Proof.Machine.execRdDraws s
  | .rdData j => Sys2Proof.Machine.execRdData j s
  | .buserrMisaligned1 we off => Sys2Proof.Machine.execBuserrMisaligned1 we off s
  | .buserrMisaligned2 we off => Sys2Proof.Machine.execBuserrMisaligned2 we off s
  | .buserrMisaligned3 we off => Sys2Proof.Machine.execBuserrMisaligned3 we off s
  | .buserrUnmapped we off => Sys2Proof.Machine.execBuserrUnmapped we off s
  | .seed => Sys2Proof.Machine.execSeed s
  | .fill => Sys2Proof.Machine.execFill s
  | .encStep => Sys2Proof.Machine.execEncStep s
  | .decStep => Sys2Proof.Machine.execDecStep s
  | .prngSeed inc => Sys2Proof.Machine.execPrngSeed inc s
  | .prngNext => Sys2Proof.Machine.execPrngNext s

end Sys2Proof.Machine
end

