-- ==== Sys2Proof/WellFormed.lean ====
section
/-! DEFINITION. Which instructions a transaction or PHASE can stand for under given parameters (30_encoding R71; 43_host_interface R142). -/

namespace Sys2Proof

/-- R71: the word offset `off` = addr[12:2] of an aligned access names no register and no DATA word. -/
def unmappedOffset (p : Params) (off : BitVec 11) : Bool :=
  (decide (0x00A ≤ off.toNat) && decide (off.toNat < 0x400)) || decide (0x400 + p.nMax ≤ off.toNat)

/-- The check: a DATA index lies in the window (R15, R137), an unmapped offset is unmapped (R71, R142). -/
def Instr.wf (p : Params) : Instr → Bool
  | .cmdNop => true
  | .cmdRun => true
  | .cmdRsvd2 => true
  | .cmdRsvd3 => true
  | .cmdRsvd4 => true
  | .cmdRsvd5 => true
  | .cmdRsvd6 => true
  | .cmdRsvd7 => true
  | .cmdRsvd8 => true
  | .cmdRsvd9 => true
  | .cmdRsvdA => true
  | .cmdRsvdB => true
  | .cmdRsvdC => true
  | .cmdRsvdD => true
  | .cmdRsvdE => true
  | .cmdRsvdF => true
  | .wrCount _ => true
  | .wrKey0 _ => true
  | .wrKey1 _ => true
  | .wrKey2 _ => true
  | .wrKey3 _ => true
  | .wrStatusRo => true
  | .wrInfoRo => true
  | .wrRoundsRo => true
  | .wrDrawsRo => true
  | .wrData i _ => decide (i.toNat < p.nMax)
  | .rdCtrl => true
  | .rdStatus => true
  | .rdCount => true
  | .rdInfo => true
  | .rdKey0 => true
  | .rdKey1 => true
  | .rdKey2 => true
  | .rdKey3 => true
  | .rdRounds => true
  | .rdDraws => true
  | .rdData i => decide (i.toNat < p.nMax)
  | .buserrMisaligned1 _ _ => true
  | .buserrMisaligned2 _ _ => true
  | .buserrMisaligned3 _ _ => true
  | .buserrUnmapped _ off => unmappedOffset p off
  | .seed => true
  | .fill => true
  | .encStep => true
  | .decStep => true
  | .prngSeed _ => true
  | .prngNext => true

end Sys2Proof
end

