-- ==== Sys2Proof/Decode.lean ====
section
/-! DEFINITION. The decoder, total on every record and every PHASE value, and the encoder (30_encoding R71, R72, R79 to R85). -/

namespace Sys2Proof

/-! ## Fields of the record T (R85) -/

/-- T[47:46], which a transaction has at 0 -/
def recTop (t : Record) : BitVec 2 := t.extractLsb' 46 2
/-- T[45] = bus_we -/
def recWe (t : Record) : Bool := t.getLsbD 45
/-- T[44] = addr[12]: 1 in the upper half of the offsets, where the DATA window lies (R71) -/
def recUpper (t : Record) : Bool := t.getLsbD 44
/-- T[44:34] = addr[12:2], the word offset -/
def recOff (t : Record) : BitVec 11 := t.extractLsb' 34 11
/-- T[43:34] = addr[11:2], the index of a DATA word -/
def recIndex (t : Record) : BitVec 10 := t.extractLsb' 34 10
/-- T[33:32] = addr[1:0], 0 for an aligned access (R50) -/
def recAlign (t : Record) : BitVec 2 := t.extractLsb' 32 2
/-- T[31:0] = bus_wdata -/
def recWdata (t : Record) : Word := t.extractLsb' 0 32
/-- T[3:0] = CMD of a write to CTRL (R72) -/
def recCmd (t : Record) : BitVec 4 := t.extractLsb' 0 4

/-! ## The decoder -/

/-- R80: CMD selects the command. -/
def decodeCommand (c : BitVec 4) : Instr :=
  if c = 0x0#4 then .cmdNop
  else if c = 0x1#4 then .cmdRun
  else if c = 0x2#4 then .cmdRsvd2
  else if c = 0x3#4 then .cmdRsvd3
  else if c = 0x4#4 then .cmdRsvd4
  else if c = 0x5#4 then .cmdRsvd5
  else if c = 0x6#4 then .cmdRsvd6
  else if c = 0x7#4 then .cmdRsvd7
  else if c = 0x8#4 then .cmdRsvd8
  else if c = 0x9#4 then .cmdRsvd9
  else if c = 0xA#4 then .cmdRsvdA
  else if c = 0xB#4 then .cmdRsvdB
  else if c = 0xC#4 then .cmdRsvdC
  else if c = 0xD#4 then .cmdRsvdD
  else if c = 0xE#4 then .cmdRsvdE
  else .cmdRsvdF

/-- R71, R132: an aligned write in the lower half, by its word offset. -/
def decodeWrite (t : Record) : Instr :=
  if recOff t = 0x000#11 then decodeCommand (recCmd t)
  else if recOff t = 0x001#11 then .wrStatusRo
  else if recOff t = 0x002#11 then .wrCount (recWdata t)
  else if recOff t = 0x003#11 then .wrInfoRo
  else if recOff t = 0x004#11 then .wrKey0 (recWdata t)
  else if recOff t = 0x005#11 then .wrKey1 (recWdata t)
  else if recOff t = 0x006#11 then .wrKey2 (recWdata t)
  else if recOff t = 0x007#11 then .wrKey3 (recWdata t)
  else if recOff t = 0x008#11 then .wrRoundsRo
  else if recOff t = 0x009#11 then .wrDrawsRo
  else .buserrUnmapped true (recOff t)

/-- R71, R131: an aligned read in the lower half, by its word offset; T[31:0] is ignored. -/
def decodeRead (t : Record) : Instr :=
  if recOff t = 0x000#11 then .rdCtrl
  else if recOff t = 0x001#11 then .rdStatus
  else if recOff t = 0x002#11 then .rdCount
  else if recOff t = 0x003#11 then .rdInfo
  else if recOff t = 0x004#11 then .rdKey0
  else if recOff t = 0x005#11 then .rdKey1
  else if recOff t = 0x006#11 then .rdKey2
  else if recOff t = 0x007#11 then .rdKey3
  else if recOff t = 0x008#11 then .rdRounds
  else if recOff t = 0x009#11 then .rdDraws
  else .buserrUnmapped false (recOff t)

/-- R71, R137: an aligned access in the upper half; beyond the DATA window it is unmapped. -/
def decodeWindow (p : Params) (t : Record) : Instr :=
  if (recIndex t).toNat < p.nMax then
    if recWe t then .wrData (recIndex t) (recWdata t) else .rdData (recIndex t)
  else .buserrUnmapped (recWe t) (recOff t)

/-- R70, R85: misalignment is decided first (R153), then the offset. -/
def decodeTxn (p : Params) (t : Record) : Except DecodeError Instr :=
  if recTop t ≠ 0#2 then .error .recordBits
  else if recAlign t = 1#2 then .ok (.buserrMisaligned1 (recWe t) (recOff t))
  else if recAlign t = 2#2 then .ok (.buserrMisaligned2 (recWe t) (recOff t))
  else if recAlign t = 3#2 then .ok (.buserrMisaligned3 (recWe t) (recOff t))
  else if recUpper t then .ok (decodeWindow p t)
  else if recWe t then .ok (decodeWrite t)
  else .ok (decodeRead t)

/-- R79, R81: PHASE alone selects the micro-op. -/
def decodePhase (c : PhaseCode) : Except DecodeError Instr :=
  if c = 0x1#4 then .ok .seed
  else if c = 0x2#4 then .ok .fill
  else if c = 0x3#4 then .ok .encStep
  else if c = 0x4#4 then .ok .decStep
  else if c = 0x0#4 ∨ c = 0xF#4 then .error .noMicroOp
  else .error .reservedPhase

/-- The decoder of the two formats that have an encoding. -/
def decode (p : Params) : Encoded → Except DecodeError Instr
  | .txn t => decodeTxn p t
  | .phase c => decodePhase c

/-- The table's rows: a row of at most one byte is a value of PHASE, a longer one a transaction record.
The default parameters stand for N_MAX (log 1). -/
def decodeTableWord (nbits w : Nat) : Option Instr :=
  if nbits ≤ 8 then
    if w < 2 ^ 4 then (decodePhase (BitVec.ofNat 4 w)).toOption else none
  else
    if w < 2 ^ 48 then (decodeTxn Params.default (BitVec.ofNat 48 w)).toOption else none

/-! ## The encoder -/

/-- R85: the record of an access. -/
def record (we : Bool) (off : BitVec 11) (align : BitVec 2) (v : Word) : Record :=
  0#2 ++ BitVec.ofBool we ++ off ++ align ++ v

/-- R72: a write of CTRL with the given CMD. -/
def commandRecord (cmd : BitVec 4) : Record := record true 0x000#11 0#2 (cmd.setWidth 32)

/-- R71: the word offset of DATA[i]. -/
def dataOffset (i : BitVec 10) : BitVec 11 := 1#1 ++ i

/-- The bits of an instruction, ignored bits at 0 (log 18); the two PRNG operations have none (R87, R88). -/
def encode : Instr → Option Encoded
  | .cmdNop => some (.txn (commandRecord 0x0#4))
  | .cmdRun => some (.txn (commandRecord 0x1#4))
  | .cmdRsvd2 => some (.txn (commandRecord 0x2#4))
  | .cmdRsvd3 => some (.txn (commandRecord 0x3#4))
  | .cmdRsvd4 => some (.txn (commandRecord 0x4#4))
  | .cmdRsvd5 => some (.txn (commandRecord 0x5#4))
  | .cmdRsvd6 => some (.txn (commandRecord 0x6#4))
  | .cmdRsvd7 => some (.txn (commandRecord 0x7#4))
  | .cmdRsvd8 => some (.txn (commandRecord 0x8#4))
  | .cmdRsvd9 => some (.txn (commandRecord 0x9#4))
  | .cmdRsvdA => some (.txn (commandRecord 0xA#4))
  | .cmdRsvdB => some (.txn (commandRecord 0xB#4))
  | .cmdRsvdC => some (.txn (commandRecord 0xC#4))
  | .cmdRsvdD => some (.txn (commandRecord 0xD#4))
  | .cmdRsvdE => some (.txn (commandRecord 0xE#4))
  | .cmdRsvdF => some (.txn (commandRecord 0xF#4))
  | .wrCount v => some (.txn (record true 0x002#11 0#2 v))
  | .wrKey0 v => some (.txn (record true 0x004#11 0#2 v))
  | .wrKey1 v => some (.txn (record true 0x005#11 0#2 v))
  | .wrKey2 v => some (.txn (record true 0x006#11 0#2 v))
  | .wrKey3 v => some (.txn (record true 0x007#11 0#2 v))
  | .wrStatusRo => some (.txn (record true 0x001#11 0#2 0#32))
  | .wrInfoRo => some (.txn (record true 0x003#11 0#2 0#32))
  | .wrRoundsRo => some (.txn (record true 0x008#11 0#2 0#32))
  | .wrDrawsRo => some (.txn (record true 0x009#11 0#2 0#32))
  | .wrData i v => some (.txn (record true (dataOffset i) 0#2 v))
  | .rdCtrl => some (.txn (record false 0x000#11 0#2 0#32))
  | .rdStatus => some (.txn (record false 0x001#11 0#2 0#32))
  | .rdCount => some (.txn (record false 0x002#11 0#2 0#32))
  | .rdInfo => some (.txn (record false 0x003#11 0#2 0#32))
  | .rdKey0 => some (.txn (record false 0x004#11 0#2 0#32))
  | .rdKey1 => some (.txn (record false 0x005#11 0#2 0#32))
  | .rdKey2 => some (.txn (record false 0x006#11 0#2 0#32))
  | .rdKey3 => some (.txn (record false 0x007#11 0#2 0#32))
  | .rdRounds => some (.txn (record false 0x008#11 0#2 0#32))
  | .rdDraws => some (.txn (record false 0x009#11 0#2 0#32))
  | .rdData i => some (.txn (record false (dataOffset i) 0#2 0#32))
  | .buserrMisaligned1 we off => some (.txn (record we off 1#2 0#32))
  | .buserrMisaligned2 we off => some (.txn (record we off 2#2 0#32))
  | .buserrMisaligned3 we off => some (.txn (record we off 3#2 0#32))
  | .buserrUnmapped we off => some (.txn (record we off 0#2 0#32))
  | .seed => some (.phase 0x1#4)
  | .fill => some (.phase 0x2#4)
  | .encStep => some (.phase 0x3#4)
  | .decStep => some (.phase 0x4#4)
  | .prngSeed _ => none
  | .prngNext => none

/-- The bits of a record its instruction depends on: the table's "ignored" bits at 0, the others at 1 (R72, R134, R142). -/
def Instr.careMask : Instr → Record
  | .cmdNop => 0xFFFF0000000F#48
  | .cmdRun => 0xFFFF0000000F#48
  | .cmdRsvd2 => 0xFFFF0000000F#48
  | .cmdRsvd3 => 0xFFFF0000000F#48
  | .cmdRsvd4 => 0xFFFF0000000F#48
  | .cmdRsvd5 => 0xFFFF0000000F#48
  | .cmdRsvd6 => 0xFFFF0000000F#48
  | .cmdRsvd7 => 0xFFFF0000000F#48
  | .cmdRsvd8 => 0xFFFF0000000F#48
  | .cmdRsvd9 => 0xFFFF0000000F#48
  | .cmdRsvdA => 0xFFFF0000000F#48
  | .cmdRsvdB => 0xFFFF0000000F#48
  | .cmdRsvdC => 0xFFFF0000000F#48
  | .cmdRsvdD => 0xFFFF0000000F#48
  | .cmdRsvdE => 0xFFFF0000000F#48
  | .cmdRsvdF => 0xFFFF0000000F#48
  | .wrCount _ => 0xFFFFFFFFFFFF#48
  | .wrKey0 _ => 0xFFFFFFFFFFFF#48
  | .wrKey1 _ => 0xFFFFFFFFFFFF#48
  | .wrKey2 _ => 0xFFFFFFFFFFFF#48
  | .wrKey3 _ => 0xFFFFFFFFFFFF#48
  | .wrStatusRo => 0xFFFF00000000#48
  | .wrInfoRo => 0xFFFF00000000#48
  | .wrRoundsRo => 0xFFFF00000000#48
  | .wrDrawsRo => 0xFFFF00000000#48
  | .wrData _ _ => 0xFFFFFFFFFFFF#48
  | .rdCtrl => 0xFFFF00000000#48
  | .rdStatus => 0xFFFF00000000#48
  | .rdCount => 0xFFFF00000000#48
  | .rdInfo => 0xFFFF00000000#48
  | .rdKey0 => 0xFFFF00000000#48
  | .rdKey1 => 0xFFFF00000000#48
  | .rdKey2 => 0xFFFF00000000#48
  | .rdKey3 => 0xFFFF00000000#48
  | .rdRounds => 0xFFFF00000000#48
  | .rdDraws => 0xFFFF00000000#48
  | .rdData _ => 0xFFFF00000000#48
  | .buserrMisaligned1 _ _ => 0xFFFF00000000#48
  | .buserrMisaligned2 _ _ => 0xFFFF00000000#48
  | .buserrMisaligned3 _ _ => 0xFFFF00000000#48
  | .buserrUnmapped _ _ => 0xFFFF00000000#48
  | .seed => 0x000000000000#48
  | .fill => 0x000000000000#48
  | .encStep => 0x000000000000#48
  | .decStep => 0x000000000000#48
  | .prngSeed _ => 0x000000000000#48
  | .prngNext => 0x000000000000#48

/-! ## The opcode table -/

/-- An instruction's mnemonic, as spec/opcode_table.json spells it. -/
def Instr.mnemonic : Instr → String
  | .cmdNop => "CMD_NOP"
  | .cmdRun => "CMD_RUN"
  | .cmdRsvd2 => "CMD_RSVD2"
  | .cmdRsvd3 => "CMD_RSVD3"
  | .cmdRsvd4 => "CMD_RSVD4"
  | .cmdRsvd5 => "CMD_RSVD5"
  | .cmdRsvd6 => "CMD_RSVD6"
  | .cmdRsvd7 => "CMD_RSVD7"
  | .cmdRsvd8 => "CMD_RSVD8"
  | .cmdRsvd9 => "CMD_RSVD9"
  | .cmdRsvdA => "CMD_RSVDA"
  | .cmdRsvdB => "CMD_RSVDB"
  | .cmdRsvdC => "CMD_RSVDC"
  | .cmdRsvdD => "CMD_RSVDD"
  | .cmdRsvdE => "CMD_RSVDE"
  | .cmdRsvdF => "CMD_RSVDF"
  | .wrCount _ => "WR_COUNT"
  | .wrKey0 _ => "WR_KEY0"
  | .wrKey1 _ => "WR_KEY1"
  | .wrKey2 _ => "WR_KEY2"
  | .wrKey3 _ => "WR_KEY3"
  | .wrStatusRo => "WR_STATUS_RO"
  | .wrInfoRo => "WR_INFO_RO"
  | .wrRoundsRo => "WR_ROUNDS_RO"
  | .wrDrawsRo => "WR_DRAWS_RO"
  | .wrData _ _ => "WR_DATA"
  | .rdCtrl => "RD_CTRL"
  | .rdStatus => "RD_STATUS"
  | .rdCount => "RD_COUNT"
  | .rdInfo => "RD_INFO"
  | .rdKey0 => "RD_KEY0"
  | .rdKey1 => "RD_KEY1"
  | .rdKey2 => "RD_KEY2"
  | .rdKey3 => "RD_KEY3"
  | .rdRounds => "RD_ROUNDS"
  | .rdDraws => "RD_DRAWS"
  | .rdData _ => "RD_DATA"
  | .buserrMisaligned1 _ _ => "BUSERR_MISALIGNED_1"
  | .buserrMisaligned2 _ _ => "BUSERR_MISALIGNED_2"
  | .buserrMisaligned3 _ _ => "BUSERR_MISALIGNED_3"
  | .buserrUnmapped _ _ => "BUSERR_UNMAPPED"
  | .seed => "SEED"
  | .fill => "FILL"
  | .encStep => "ENC_STEP"
  | .decStep => "DEC_STEP"
  | .prngSeed _ => "PRNG_SEED"
  | .prngNext => "PRNG_NEXT"

/-- A row of spec/opcode_table.json of format TXN: the record's bits under `mask` are `pattern` (the table's `match`). -/
structure OpcodeRow where
  mnemonic : String
  pattern : Record
  mask : Record
  deriving DecidableEq, Repr

/-- The rows of format TXN that write (R132). -/
def writeRows : List OpcodeRow :=
  [⟨"CMD_NOP", 0x200000000000#48, 0xFFFF0000000F#48⟩,
   ⟨"CMD_RUN", 0x200000000001#48, 0xFFFF0000000F#48⟩,
   ⟨"CMD_RSVD2", 0x200000000002#48, 0xFFFF0000000F#48⟩,
   ⟨"CMD_RSVD3", 0x200000000003#48, 0xFFFF0000000F#48⟩,
   ⟨"CMD_RSVD4", 0x200000000004#48, 0xFFFF0000000F#48⟩,
   ⟨"CMD_RSVD5", 0x200000000005#48, 0xFFFF0000000F#48⟩,
   ⟨"CMD_RSVD6", 0x200000000006#48, 0xFFFF0000000F#48⟩,
   ⟨"CMD_RSVD7", 0x200000000007#48, 0xFFFF0000000F#48⟩,
   ⟨"CMD_RSVD8", 0x200000000008#48, 0xFFFF0000000F#48⟩,
   ⟨"CMD_RSVD9", 0x200000000009#48, 0xFFFF0000000F#48⟩,
   ⟨"CMD_RSVDA", 0x20000000000A#48, 0xFFFF0000000F#48⟩,
   ⟨"CMD_RSVDB", 0x20000000000B#48, 0xFFFF0000000F#48⟩,
   ⟨"CMD_RSVDC", 0x20000000000C#48, 0xFFFF0000000F#48⟩,
   ⟨"CMD_RSVDD", 0x20000000000D#48, 0xFFFF0000000F#48⟩,
   ⟨"CMD_RSVDE", 0x20000000000E#48, 0xFFFF0000000F#48⟩,
   ⟨"CMD_RSVDF", 0x20000000000F#48, 0xFFFF0000000F#48⟩] ++
  [⟨"WR_COUNT", 0x200800000000#48, 0xFFFF00000000#48⟩,
   ⟨"WR_KEY0", 0x201000000000#48, 0xFFFF00000000#48⟩,
   ⟨"WR_KEY1", 0x201400000000#48, 0xFFFF00000000#48⟩,
   ⟨"WR_KEY2", 0x201800000000#48, 0xFFFF00000000#48⟩,
   ⟨"WR_KEY3", 0x201C00000000#48, 0xFFFF00000000#48⟩,
   ⟨"WR_STATUS_RO", 0x200400000000#48, 0xFFFF00000000#48⟩,
   ⟨"WR_INFO_RO", 0x200C00000000#48, 0xFFFF00000000#48⟩,
   ⟨"WR_ROUNDS_RO", 0x202000000000#48, 0xFFFF00000000#48⟩,
   ⟨"WR_DRAWS_RO", 0x202400000000#48, 0xFFFF00000000#48⟩,
   ⟨"WR_DATA", 0x300000000000#48, 0xF00300000000#48⟩]

/-- The rows of format TXN that read (R131). -/
def readRows : List OpcodeRow :=
  [⟨"RD_CTRL", 0x000000000000#48, 0xFFFF00000000#48⟩,
   ⟨"RD_STATUS", 0x000400000000#48, 0xFFFF00000000#48⟩,
   ⟨"RD_COUNT", 0x000800000000#48, 0xFFFF00000000#48⟩,
   ⟨"RD_INFO", 0x000C00000000#48, 0xFFFF00000000#48⟩,
   ⟨"RD_KEY0", 0x001000000000#48, 0xFFFF00000000#48⟩,
   ⟨"RD_KEY1", 0x001400000000#48, 0xFFFF00000000#48⟩,
   ⟨"RD_KEY2", 0x001800000000#48, 0xFFFF00000000#48⟩,
   ⟨"RD_KEY3", 0x001C00000000#48, 0xFFFF00000000#48⟩,
   ⟨"RD_ROUNDS", 0x002000000000#48, 0xFFFF00000000#48⟩,
   ⟨"RD_DRAWS", 0x002400000000#48, 0xFFFF00000000#48⟩,
   ⟨"RD_DATA", 0x100000000000#48, 0xF00300000000#48⟩]

/-- The misaligned rows (R142). The row BUSERR_UNMAPPED has mask 0 and the lowest priority, so it is no row of this kind. -/
def misalignedRows : List OpcodeRow :=
  [⟨"BUSERR_MISALIGNED_1", 0x000100000000#48, 0xC00300000000#48⟩,
   ⟨"BUSERR_MISALIGNED_2", 0x000200000000#48, 0xC00300000000#48⟩,
   ⟨"BUSERR_MISALIGNED_3", 0x000300000000#48, 0xC00300000000#48⟩]

/-- The rows of format TXN but for BUSERR_UNMAPPED. -/
def opcodeRows : List OpcodeRow := writeRows ++ readRows ++ misalignedRows

end Sys2Proof
end

