-- ==== Sys2Proof/Machine/Fetch.lean ====
section
/-! DEFINITION. What comes next: the first event of the inbox, or the engine's own step (00_scope R10; 42_sequencer R116). -/

namespace Sys2Proof.Machine

/-- What a step does. -/
inductive Fetched where
  /-- run the instruction in the state -/
  | run (i : Instr) (s : State)
  /-- nothing runs; this is the next state: a reset, or an engine that has no step (R116, R171) -/
  | settled (s : State)
  /-- nothing the spec gives a meaning -/
  | stop (r : Refusal)
  deriving DecidableEq, Repr

/-- The engine's step: the micro-op PHASE names; none in IDLE and FAULT (R116); a reserved PHASE stops (R82; log 7). -/
def State.fetchEngine (s : State) : Fetched :=
  match decodePhase s.phase with
  | .ok i => .run i s
  | .error .noMicroOp => .settled s
  | .error _ => .stop (.reservedPhase s.phase)

/-- The host's step: the transaction of the record (R70, R85). -/
def State.fetchTxn (s : State) (t : Record) : Fetched :=
  match decodeTxn s.params t with
  | .ok i => .run i s
  | .error _ => .stop (.notATransaction t)

/-- The first event is taken off the inbox; with none listed the engine goes on (R186; log 2). -/
def State.fetch (s : State) : Fetched :=
  match s.inbox with
  | [] => s.fetchEngine
  | .engine :: rest => { s with inbox := rest }.fetchEngine
  | .reset :: rest => .settled { s with inbox := rest }.resetStep
  | .txn t :: rest => { s with inbox := rest }.fetchTxn t

/-- The registers a micro-op's own accesses need, where the state has no operation running (log 14):
a magnitude in 2 .. N_MAX, a position below it, a keystream cursor inside KS. -/
def State.readyMicroOp (s : State) : State :=
  let t := if s.n.toNat < 2 ∨ s.params.nMax < s.n.toNat ∨ s.n ≤ s.p then { s with n := 2#32, p := 0#32 } else s
  if t.phase = Phase.fill ∧ t.params.ksDepth ≤ t.ksptr.toNat then { t with ksptr := 0#32 }
  else if t.phase = Phase.dec ∧ (t.ksptr = 0#32 ∨ t.params.ksDepth < t.ksptr.toNat) then { t with ksptr := 1#32 }
  else t

/-- A row of the opcode table placed where the next step takes it: a value of PHASE with the engine's step, or a
transaction record at the head of the inbox (log 14). A value of more than 4 or 48 bits is no row: its record stops. -/
def State.placeTableWord (s : State) (nbits w : Nat) : State :=
  if nbits ≤ 8 ∧ w < 2 ^ 4 then
    { s with phase := BitVec.ofNat 4 w, inbox := .engine :: s.inbox }.readyMicroOp
  else if 8 < nbits ∧ w < 2 ^ 48 then { s with inbox := .txn (BitVec.ofNat 48 w) :: s.inbox }
  else { s with inbox := .txn (BitVec.allOnes 48) :: s.inbox }

end Sys2Proof.Machine
end

