-- ==== Sys2Proof/Safety.lean ====
section
/-! DEFINITION. What a sound state is (42_sequencer R130, 43_host_interface R145, 10_state R16 to R20) and what a safe step is. -/

namespace Sys2Proof.Machine

/-- The parameters are admissible (R5). -/
abbrev ParamsSound (s : State) : Prop := s.params.Valid

/-- PHASE is one of 0x0 to 0x4 or 0xF (R130). -/
abbrev PhaseLegal (s : State) : Prop :=
  s.phase = Phase.idle ∨ s.phase = Phase.seed ∨ s.phase = Phase.fill ∨ s.phase = Phase.enc ∨
    s.phase = Phase.dec ∨ s.phase = Phase.fault

/-- FAULT exactly in PHASE FAULT (R18), ERR 0 without a fault and a code of R151 with one (R19), DONE only in IDLE (R17). -/
abbrev FlagsSound (s : State) : Prop :=
  (s.fault = true ↔ s.phase = Phase.fault) ∧ (s.fault = false → s.err = 0#4) ∧
    (s.fault = true → 1 ≤ s.err.toNat ∧ s.err.toNat ≤ 6) ∧ (s.done = true → s.phase = Phase.idle)

/-- While BUSY: 2 <= N <= N_MAX, ROUNDS = rounds(N), and a decrypt's keystream fits (R130, R145). -/
abbrev OperationSound (s : State) : Prop :=
  s.busy = true →
    2 ≤ s.n.toNat ∧ s.n.toNat ≤ s.params.nMax ∧ s.rounds.toNat = roundsOf s.n.toNat ∧
      (s.dir = true → streamLength s.n.toNat ≤ s.params.ksDepth)

/-- In SEED no draw has been made (R145). -/
abbrev SeedSound (s : State) : Prop := s.phase = Phase.seed → s.draws = 0#32

/-- While BUSY but not in SEED: 1 <= RND <= ROUNDS, P < N, S odd (R130, R28; log 11). -/
abbrev SweepSound (s : State) : Prop :=
  s.busy = true → s.phase ≠ Phase.seed →
    1 ≤ s.rnd.toNat ∧ s.rnd.toNat ≤ s.rounds.toNat ∧ s.p.toNat < s.n.toNat ∧ s.prngS.getLsbD 0 = true

/-- The position of an encrypt sweep (R130). -/
abbrev EncSound (s : State) : Prop :=
  s.phase = Phase.enc →
    s.dir = false ∧ s.draws.toNat = (s.rounds.toNat - s.rnd.toNat) * s.n.toNat + s.p.toNat ∧
      s.sum = BitVec.ofNat 32 (s.rounds.toNat - s.rnd.toNat + if 0 < s.p.toNat then 1 else 0) * delta

/-- The position of a fill (R130), with the sum its DEC sweep starts from (R117). -/
abbrev FillSound (s : State) : Prop :=
  s.phase = Phase.fill →
    s.dir = true ∧ s.ksptr.toNat < s.n.toNat * s.rounds.toNat ∧ s.draws = s.ksptr ∧
      s.p.toNat = s.n.toNat - 1 ∧ s.rnd = s.rounds ∧ s.sum = s.rounds * delta

/-- The position of a decrypt sweep (R130, R123). -/
abbrev DecSound (s : State) : Prop :=
  s.phase = Phase.dec →
    s.dir = true ∧ s.ksptr.toNat = (s.rnd.toNat - 1) * s.n.toNat + s.p.toNat + 1 ∧
      s.sum = s.rnd * delta ∧ s.draws.toNat = s.n.toNat * s.rounds.toNat

/-- Both memories are canonical and hold only addresses that exist (R46). -/
abbrev MemorySound (s : State) : Prop :=
  Memory.wf s.data ∧ Memory.wf s.ks ∧
    (∀ c ∈ s.data, 0x1000 ≤ c.1 ∧ c.1 < 0x1000 + 4 * s.params.nMax) ∧
    (∀ c ∈ s.ks, c.1 < 4 * s.params.ksDepth)

/-- The invariant of every state a run reaches (R130). -/
structure Inv (s : State) : Prop where
  params : ParamsSound s
  phase : PhaseLegal s
  flags : FlagsSound s
  operation : OperationSound s
  seed : SeedSound s
  sweep : SweepSound s
  enc : EncSound s
  fill : FillSound s
  dec : DecSound s
  memory : MemorySound s

/-- The event that comes next is a step of R10: a record listed there is a transaction's (R85). -/
abbrev InputSound (s : State) : Prop :=
  match s.inbox with
  | .txn t :: _ => recTop t = 0#2
  | _ => True

/-- A safe step: it answers a next state, neither a fault nor a refusal. -/
def Safe (s : State) : Prop := ∃ t, step s = .next t

end Sys2Proof.Machine
end

