-- ==== Sys2Proof/Certificates/Slice0/Obligations.lean ====
section
/-! DEFINITION. The statements for the provers, each a Prop named after what it says. -/

open Sys2Proof Sys2Proof.Machine

namespace Sys2Proof.Claims

/-! ## The words the statements are written in: the spec's tables and formulas, spelt out from the rules -/

/-- R85: the byte offset of a record. -/
def offset (t : Record) : Nat := (t.extractLsb' 32 13).toNat

/-- R71: the offsets the block answers without an error. -/
def mapped (s : State) (addr : Nat) : Prop :=
  addr % 4 = 0 ∧ (addr ≤ 0x024 ∨ (0x1000 ≤ addr ∧ addr < 0x1000 + 4 * s.params.nMax))

/-- R131's table: what a read of the offset answers. -/
def readAnswer (s : State) (addr : Nat) : Response :=
  if addr % 4 ≠ 0 then ⟨some 0#32, true⟩
  else if addr = 0x000 then ⟨some 0#32, false⟩
  else if addr = 0x004 then ⟨some s.statusWord, false⟩
  else if addr = 0x008 then ⟨some s.count, false⟩
  else if addr = 0x00C then ⟨some s.infoWord, false⟩
  else if addr = 0x010 then ⟨some s.key0, false⟩
  else if addr = 0x014 then ⟨some s.key1, false⟩
  else if addr = 0x018 then ⟨some s.key2, false⟩
  else if addr = 0x01C then ⟨some s.key3, false⟩
  else if addr = 0x020 then ⟨some s.rounds, false⟩
  else if addr = 0x024 then ⟨some s.draws, false⟩
  else if 0x1000 ≤ addr ∧ addr < 0x1000 + 4 * s.params.nMax then
    ⟨some (if s.busy then 0#32 else s.dataWord ((addr - 0x1000) / 4)), false⟩
  else ⟨some 0#32, true⟩

/-- R152 spelt out: PHASE, FAULT, ERR and DONE, nothing else. -/
def faulted (s : State) (code : BitVec 4) : State :=
  { s with phase := 0xF#4, fault := true, err := code, done := false }

/-- A write completed with err = 0 and left the state `s`. What stands on the read data lines the spec does not say, so
any `d` will do. -/
def completed (s : State) (d : Option Word) : State := { s with rsp := some ⟨d, false⟩ }

/-- The outcome is a write completed with err = 0 that left the state `s`. -/
def Completes (o : Host.Outcome State Fault Refusal) (s : State) : Prop := ∃ d, o = .next (completed s d)

/-- R138 to R140: what a command does in IDLE. -/
def commandEffect (s : State) (cmd : BitVec 4) : State :=
  if cmd = 0x0#4 then s else if cmd = 0x1#4 then s.run else faulted s 6#4

/-- R132's pseudocode: the state after a write of v at the offset, `d` on the read data lines of a write without error. -/
def writeEffect (s : State) (addr : Nat) (v : Word) (d : Option Word) : State :=
  if addr % 4 ≠ 0 ∨ ¬ (addr ≤ 0x024 ∨ (0x1000 ≤ addr ∧ addr < 0x1000 + 4 * s.params.nMax)) then
    { s with rsp := some ⟨some 0#32, true⟩ }
  else if addr = 0x004 ∨ addr = 0x00C ∨ addr = 0x020 ∨ addr = 0x024 then completed s d
  else if s.phase ≠ 0x0#4 then completed { s with wign := true } d
  else if addr = 0x008 then completed { s with count := v } d
  else if addr = 0x010 then completed { s with key0 := v } d
  else if addr = 0x014 then completed { s with key1 := v } d
  else if addr = 0x018 then completed { s with key2 := v } d
  else if addr = 0x01C then completed { s with key3 := v } d
  else if addr = 0x000 then completed (commandEffect s (v.extractLsb' 0 4)) d
  else completed (s.setData ((addr - 0x1000) / 4) v) d

/-- The writes R133 gates: CTRL, COUNT, KEYi, and DATA[i] inside the window. -/
def Gated (s : State) : Instr → Prop
  | .cmdNop | .cmdRun | .cmdRsvd2 | .cmdRsvd3 | .cmdRsvd4 | .cmdRsvd5 | .cmdRsvd6 | .cmdRsvd7 => True
  | .cmdRsvd8 | .cmdRsvd9 | .cmdRsvdA | .cmdRsvdB | .cmdRsvdC | .cmdRsvdD | .cmdRsvdE | .cmdRsvdF => True
  | .wrCount _ | .wrKey0 _ | .wrKey1 _ | .wrKey2 _ | .wrKey3 _ => True
  | .wrData i _ => i.toNat < s.params.nMax
  | .wrStatusRo | .wrInfoRo | .wrRoundsRo | .wrDrawsRo => False
  | .rdCtrl | .rdStatus | .rdCount | .rdInfo | .rdKey0 | .rdKey1 | .rdKey2 | .rdKey3 => False
  | .rdRounds | .rdDraws | .rdData _ => False
  | .buserrMisaligned1 _ _ | .buserrMisaligned2 _ _ | .buserrMisaligned3 _ _ | .buserrUnmapped _ _ => False
  | .seed | .fill | .encStep | .decStep | .prngSeed _ | .prngNext => False

/-- The fourteen reserved commands (R140). -/
def reservedCommands : List Instr :=
  [.cmdRsvd2, .cmdRsvd3, .cmdRsvd4, .cmdRsvd5, .cmdRsvd6, .cmdRsvd7, .cmdRsvd8, .cmdRsvd9, .cmdRsvdA, .cmdRsvdB,
   .cmdRsvdC, .cmdRsvdD, .cmdRsvdE, .cmdRsvdF]

/-- The micro-ops of the engine (R116). -/
def microOps : List Instr := [.seed, .fill, .encStep, .decStep]

/-- R100: how many of the key words are not zero. -/
def nonZeroKeys (s : State) : Nat := [s.key0, s.key1, s.key2, s.key3].countP (fun k => k ≠ 0#32)

/-- R88: `t = X * X + (W + S)`. -/
def square (s : State) : DWord := s.prngX * s.prngX + (s.prngW + s.prngS)

/-- R105, with k = (p and 3) xor e and e = (sum >> 2) and 3 (R106). -/
def mix (s : State) (y z sum : Word) : Word :=
  let k := (s.p &&& 3#32) ^^^ ((sum >>> 2) &&& 3#32)
  let key := if k = 0#32 then s.key0 else if k = 1#32 then s.key1 else if k = 2#32 then s.key2 else s.key3
  (((z >>> 5) ^^^ (y <<< 2)) + ((y >>> 3) ^^^ (z <<< 4))) ^^^ ((sum ^^^ y) + (key ^^^ z))

/-- R106: the word after the one at P, with wrap-around. -/
def nextWord (s : State) : Word := s.dataWord ((s.p.toNat + 1) % s.n.toNat)

/-- R106: the word before the one at P, with wrap-around. -/
def prevWord (s : State) : Word := s.dataWord ((s.p.toNat + s.n.toNat - 1) % s.n.toNat)

/-- R90: X and W after j draws from X = x0, W = 0 with the increment inc. -/
def prngState (inc x0 : DWord) : Nat → DWord × DWord
  | 0 => (x0, 0#64)
  | j + 1 => prngAdvance (prngState inc x0 j).1 (prngState inc x0 j).2 inc

/-- R90: `prng_out(s, x0, j)`, the output of the (j+1)-th draw. -/
def prngOut (inc x0 : DWord) (j : Nat) : Word := lo32 (prngState inc x0 (j + 1)).1

/-- R58, R185: the steps of the machine from s. -/
def steps (k : Nat) (s : State) : Host.Outcome State Fault Refusal := Host.Core.run Sys2Proof.core k s

/-- `wr COUNT, c` then `wr CTRL, 1` (R84, R85). -/
def runTransactions (c : Word) : List Event :=
  [.txn (0x200800000000#48 ||| c.setWidth 48), .txn 0x200000000001#48]

/-- An encrypt operation of magnitude n: two transactions, SEED, then L(n) ENC_STEPs (R122). -/
def encryptOperation (s : State) (n : Nat) : Host.Outcome State Fault Refusal :=
  steps (3 + n * (12 + 128 / n)) { s with inbox := runTransactions (BitVec.ofNat 32 n) }

/-- A decrypt operation of magnitude n: two transactions, SEED, then L(n) FILLs and L(n) DEC_STEPs (R122). -/
def decryptOperation (s : State) (n : Nat) : Host.Outcome State Fault Refusal :=
  steps (3 + 2 * (n * (12 + 128 / n))) { s with inbox := runTransactions (-BitVec.ofNat 32 n) }

/-- What the DATA and keystream words cannot reach (R111, R156): the state without them and without the read data. -/
def control (s : State) : State :=
  { s with data := [], ks := [], rsp := s.rsp.map fun r => ⟨none, r.err⟩ }

end Sys2Proof.Claims

/-! ## Encoding -/

/-- R71, R79, R80, R85: no bit of an encoding is dropped, for every instruction that has an encoding; only the PRNG's
two operations have none (R87, R88). -/
def Obligations.EncodedInstructionsDecodeBack : Prop :=
  ∀ (p : Params) (i : Instr), p.Valid →
    (∀ e, i.wf p = true → encode i = some e → decode p e = .ok i) ∧
    (encode i = none ↔ (∃ v, i = .prngSeed v) ∨ i = .prngNext)

/-- The other direction: a record's instruction is well formed and holds every bit the table does not call ignored. -/
def Obligations.DecodedRecordsKeepTheirBits : Prop :=
  ∀ (p : Params) (t : Record) (i : Instr), p.Valid → decode p (.txn t) = .ok i →
    i.wf p = true ∧ encode i = some (.txn (t &&& i.careMask))

/-- spec/opcode_table.json row by row: a record that matches a row decodes to the row's mnemonic (a DATA row where the
index lies in the window); a transaction no row matches, and a DATA row beyond the window, is BUSERR_UNMAPPED. -/
def Obligations.OpcodeTableRowsDecode : Prop :=
  ∀ (p : Params) (t : Record), p.Valid → t.extractLsb' 46 2 = 0#2 →
    (∀ r ∈ opcodeRows, t &&& r.mask = r.pattern →
      ∃ i, decode p (.txn t) = .ok i ∧
        i.mnemonic =
          if (r.mnemonic = "WR_DATA" ∨ r.mnemonic = "RD_DATA") ∧ p.nMax ≤ (t.extractLsb' 34 10).toNat
          then "BUSERR_UNMAPPED" else r.mnemonic) ∧
    ((∀ r ∈ opcodeRows, t &&& r.mask ≠ r.pattern) →
      ∃ i, decode p (.txn t) = .ok i ∧ i.mnemonic = "BUSERR_UNMAPPED")

/-- The decoder refuses exactly the records with T[47:46] not 0 and the PHASE values without a micro-op (R79, R85). -/
def Obligations.DecoderRefusesOnlyNonTransactions : Prop :=
  (∀ (p : Params) (t : Record), (∃ i, decode p (.txn t) = .ok i) ↔ t.extractLsb' 46 2 = 0#2) ∧
  (∀ (p : Params) (c : PhaseCode), (∃ i, decode p (.phase c) = .ok i) ↔ 1 ≤ c.toNat ∧ c.toNat ≤ 4)

/-- R85's four examples and one word of each other family, written out from 30_encoding. -/
def Obligations.SpecWordsDecode : Prop :=
  decode Params.default (.txn 0x200000000001#48) = .ok .cmdRun ∧
  decode Params.default (.txn 0x000400000000#48) = .ok .rdStatus ∧
  decode Params.default (.txn 0x300CDEADBEEF#48) = .ok (.wrData 3#10 0xDEADBEEF#32) ∧
  decode Params.default (.txn 0x2008FFFFFFFE#48) = .ok (.wrCount 0xFFFFFFFE#32) ∧
  decode Params.default (.txn 0x20000000000F#48) = .ok .cmdRsvdF ∧
  decode Params.default (.txn 0x201822334455#48) = .ok (.wrKey2 0x22334455#32) ∧
  decode Params.default (.txn 0x200C00000000#48) = .ok .wrInfoRo ∧
  decode Params.default (.txn 0x101C00000000#48) = .ok (.rdData 7#10) ∧
  decode Params.default (.txn 0x300200000005#48) = .ok (.buserrMisaligned2 true 0x400#11) ∧
  decode Params.default (.txn 0x002800000000#48) = .ok (.buserrUnmapped false 0x00A#11) ∧
  decode Params.default (.phase 0x3#4) = .ok .encStep

/-! ## Step -/

/-- A transaction at the head of the inbox: the step is exec of the decoded instruction, the record taken off (R10, R70). -/
def Obligations.StepRunsTheTransaction : Prop :=
  ∀ (s : State) (t : Record) (rest : List Event) (i : Instr),
    s.inbox = .txn t :: rest → decode s.params (.txn t) = .ok i → step s = exec i { s with inbox := rest }

/-- R116: the engine's step is the micro-op PHASE names, scheduled or with nothing listed; in IDLE and FAULT it has none
(nothing changes but the taken event), and a reserved PHASE stops (R82(5), log 7). -/
def Obligations.EngineStepsExactlyWhileBusy : Prop :=
  ∀ (s t : State), ((s.inbox = [] ∧ t = s) ∨ ∃ rest, s.inbox = .engine :: rest ∧ t = { s with inbox := rest }) →
    (s.phase = 0x1#4 → step s = exec .seed t) ∧ (s.phase = 0x2#4 → step s = exec .fill t) ∧
    (s.phase = 0x3#4 → step s = exec .encStep t) ∧ (s.phase = 0x4#4 → step s = exec .decStep t) ∧
    (s.phase = 0x0#4 ∨ s.phase = 0xF#4 → step s = .next t) ∧
    (5 ≤ s.phase.toNat ∧ s.phase.toNat ≤ 14 → step s = .refused (.reservedPhase s.phase)) ∧
    (s.busy = true ↔ 1 ≤ s.phase.toNat ∧ s.phase.toNat ≤ 4)

/-- log 14: a word of the opcode table placed by withFetchWord is what the very next step runs. -/
def Obligations.PlacedWordRunsNext : Prop :=
  ∀ (s : State) (nbits w : Nat) (i : Instr), s.params = Params.default → decodeTableWord nbits w = some i →
    ∃ t, step (s.withFetchWord nbits w) = exec i t ∧ t.inbox = s.inbox ∧ t.data = s.data ∧ t.ks = s.ks ∧
      (8 < nbits → t = s)

/-! ## Reset -/

/-- R171: reset at any time leaves every register at its reset value and DATA and KS unwritten, STATUS reads 0, and
no other step leaves PHASE FAULT. -/
def Obligations.ResetLeavesTheSpecValues : Prop :=
  (∀ (s : State) (rest : List Event), s.inbox = .reset :: rest →
    ∃ t, step s = .next t ∧
      t.count = 0#32 ∧ t.key0 = 0#32 ∧ t.key1 = 0#32 ∧ t.key2 = 0#32 ∧ t.key3 = 0#32 ∧ t.phase = 0x0#4 ∧
      t.busy = false ∧ t.done = false ∧ t.fault = false ∧ t.err = 0#4 ∧ t.wign = false ∧ t.dir = false ∧
      t.rounds = 0#32 ∧ t.draws = 0#32 ∧ t.n = 0#32 ∧ t.rnd = 0#32 ∧ t.p = 0#32 ∧ t.sum = 0#32 ∧
      t.ksptr = 0#32 ∧ t.prngX = 0#64 ∧ t.prngW = 0#64 ∧ t.prngS = 0#64 ∧ t.statusWord = 0#32 ∧
      (∀ a, t.data.byteAt a = none) ∧ (∀ a, t.ks.byteAt a = none)) ∧
  (∀ s t : State, s.phase = 0xF#4 → step s = .next t → t.phase ≠ 0xF#4 → ∃ rest, s.inbox = .reset :: rest)

/-- log 4, 5, 15: no byte of DATA or KS survives a reset as a known value; each is the free value of its own reset. The
parameters and the rest of the inbox stay. -/
def Obligations.MemoryIsUnknownAfterReset : Prop :=
  ∀ (s : State) (rest : List Event), s.inbox = .reset :: rest →
    ∃ t, step s = .next t ∧ t.params = s.params ∧ t.inbox = rest ∧ t.resets = s.resets + 1 ∧ ∀ a, t.dataByte a = Config.dataAfterReset (s.resets + 1) a ∧
      t.ksByte a = Config.ksAfterReset (s.resets + 1) a

/-- The invariant holds at reset. -/
def Obligations.ResetStateMeetsInv : Prop := Inv State.reset

/-! ## The invariant -/

/-- R130 (P bounded outside SEED, log 11), R16 to R19, R145 and the canonical form of both memories: kept by every step
of host, engine and reset, from every state that meets it. -/
def Obligations.EveryStepKeepsInv : Prop :=
  ∀ s t : State, Inv s → step s = .next t → Inv t

/-- From a state that meets the invariant no step stops: every transaction, micro-op and reset answers a next state. -/
def Obligations.InvStatesNeverStop : Prop :=
  ∀ s : State, Inv s → InputSound s → Safe s

/-! ## Host transactions -/

/-- R131 and R142 for reads: from the record's bits to the answer; a read changes no state (R53). -/
def Obligations.ReadTransactionsAnswerByOffset : Prop :=
  ∀ (s : State) (t : Record) (rest : List Event), s.params.Valid →
    s.inbox = .txn t :: rest → t.extractLsb' 46 2 = 0#2 → t.getLsbD 45 = false →
    step s = .next { s with inbox := rest, rsp := some (Claims.readAnswer s (Claims.offset t)) }

/-- R132, R138: from the record's bits to the next state, for every offset and every PHASE. -/
def Obligations.WriteTransactionsActByOffset : Prop :=
  ∀ (s : State) (t : Record) (rest : List Event), s.params.Valid →
    s.inbox = .txn t :: rest → t.extractLsb' 46 2 = 0#2 → t.getLsbD 45 = true →
    ∃ d, step s = .next (Claims.writeEffect { s with inbox := rest } (Claims.offset t) (t.extractLsb' 0 32) d)

/-- R131: every register read completes in every state with the register as its answer and changes nothing else. -/
def Obligations.RegisterReadsComplete : Prop :=
  ∀ s : State,
    exec .rdCtrl s = .next { s with rsp := some ⟨some 0#32, false⟩ } ∧
    exec .rdStatus s = .next { s with rsp := some ⟨some s.statusWord, false⟩ } ∧
    exec .rdCount s = .next { s with rsp := some ⟨some s.count, false⟩ } ∧
    exec .rdInfo s = .next { s with rsp := some ⟨some s.infoWord, false⟩ } ∧
    exec .rdKey0 s = .next { s with rsp := some ⟨some s.key0, false⟩ } ∧
    exec .rdKey1 s = .next { s with rsp := some ⟨some s.key1, false⟩ } ∧
    exec .rdKey2 s = .next { s with rsp := some ⟨some s.key2, false⟩ } ∧
    exec .rdKey3 s = .next { s with rsp := some ⟨some s.key3, false⟩ } ∧
    exec .rdRounds s = .next { s with rsp := some ⟨some s.rounds, false⟩ } ∧
    exec .rdDraws s = .next { s with rsp := some ⟨some s.draws, false⟩ }

/-- R135, R136: a write of COUNT or KEYi in IDLE writes that register and nothing else. -/
def Obligations.RegisterWritesInIdle : Prop :=
  ∀ (s : State) (v : Word), s.phase = 0x0#4 →
    Claims.Completes (exec (.wrCount v) s) { s with count := v } ∧
    Claims.Completes (exec (.wrKey0 v) s) { s with key0 := v } ∧
    Claims.Completes (exec (.wrKey1 v) s) { s with key1 := v } ∧
    Claims.Completes (exec (.wrKey2 v) s) { s with key2 := v } ∧
    Claims.Completes (exec (.wrKey3 v) s) { s with key3 := v }

/-- R137, R176: a write of DATA[i] in IDLE stores the word at the bytes 0x1000 + 4*i to 0x1000 + 4*i + 3 and changes
nothing else: no other byte, no register. A read answers 0 while BUSY and the word otherwise, and changes nothing. -/
def Obligations.DataWindowReadsAndWrites : Prop :=
  ∀ (s : State) (i : BitVec 10) (v : Word), i.toNat < s.params.nMax →
    (s.phase = 0x0#4 → ∃ t, exec (.wrData i v) s = .next t ∧
      (∃ d, t = Claims.completed { s with data := t.data } d) ∧ t.dataWord i.toNat = v ∧
      ∀ a, (a < 0x1000 + 4 * i.toNat ∨ 0x1000 + 4 * i.toNat + 4 ≤ a) → t.dataByte a = s.dataByte a) ∧
    (1 ≤ s.phase.toNat ∧ s.phase.toNat ≤ 4 → exec (.rdData i) s = .next { s with rsp := some ⟨some 0#32, false⟩ }) ∧
    (¬ (1 ≤ s.phase.toNat ∧ s.phase.toNat ≤ 4) →
      exec (.rdData i) s = .next { s with rsp := some ⟨some (s.dataWord i.toNat), false⟩ })

/-- R133: every gated write in every PHASE but IDLE sets WIGN and changes nothing else. -/
def Obligations.GatedWritesSetOnlyWign : Prop :=
  ∀ (s : State) (i : Instr), Claims.Gated s i → s.phase ≠ 0x0#4 →
    Claims.Completes (exec i s) { s with wign := true }

/-- R134: a write of STATUS, INFO, ROUNDS or DRAWS completes without error and changes no state, in every PHASE. -/
def Obligations.ReadOnlyWritesChangeNothing : Prop :=
  ∀ s : State,
    Claims.Completes (exec .wrStatusRo s) s ∧ Claims.Completes (exec .wrInfoRo s) s ∧
    Claims.Completes (exec .wrRoundsRo s) s ∧ Claims.Completes (exec .wrDrawsRo s) s

/-- R142: a misaligned or unmapped transaction answers err = 1 and rdata = 0 and changes no state, in every PHASE; so
does a DATA access beyond the window. -/
def Obligations.BusErrorsChangeNothing : Prop :=
  ∀ (s : State) (we : Bool) (off : BitVec 11) (i : BitVec 10) (v : Word),
    exec (.buserrMisaligned1 we off) s = .next { s with rsp := some ⟨some 0#32, true⟩ } ∧
    exec (.buserrMisaligned2 we off) s = .next { s with rsp := some ⟨some 0#32, true⟩ } ∧
    exec (.buserrMisaligned3 we off) s = .next { s with rsp := some ⟨some 0#32, true⟩ } ∧
    exec (.buserrUnmapped we off) s = .next { s with rsp := some ⟨some 0#32, true⟩ } ∧
    (s.params.nMax ≤ i.toNat →
      exec (.wrData i v) s = .next { s with rsp := some ⟨some 0#32, true⟩ } ∧
      exec (.rdData i) s = .next { s with rsp := some ⟨some 0#32, true⟩ })

/-- R142 from the bits: a transaction at a misaligned or unmapped offset, read or write, in every PHASE. -/
def Obligations.UnmappedOffsetsAnswerBusError : Prop :=
  ∀ (s : State) (t : Record) (rest : List Event), s.params.Valid →
    s.inbox = .txn t :: rest → t.extractLsb' 46 2 = 0#2 → ¬ Claims.mapped s (Claims.offset t) →
    step s = .next { s with inbox := rest, rsp := some ⟨some 0#32, true⟩ }

/-! ## Commands -/

/-- R139: CMD_NOP does nothing in IDLE and only sets WIGN in any other PHASE. -/
def Obligations.NopDoesNothing : Prop :=
  ∀ s : State, (s.phase = 0x0#4 → Claims.Completes (exec .cmdNop s) s) ∧
    (s.phase ≠ 0x0#4 → Claims.Completes (exec .cmdNop s) { s with wign := true })

/-- R140: every reserved command in IDLE takes the fault BAD_CMD, code 6, and changes nothing else; in any other PHASE it
only sets WIGN. -/
def Obligations.ReservedCommandsFault : Prop :=
  ∀ (s : State) (i : Instr), i ∈ Claims.reservedCommands →
    (s.phase = 0x0#4 → Claims.Completes (exec i s) (Claims.faulted s 6#4)) ∧
    (s.phase ≠ 0x0#4 → Claims.Completes (exec i s) { s with wign := true })

/-- R143: CMD_RUN in IDLE, every outcome of its checks in their order, and the launch. -/
def Obligations.RunFollowsItsChecks : Prop :=
  ∀ s b : State, s.phase = 0x0#4 →
    b = { s with wign := false, done := false, rounds := 0#32, draws := 0#32, dir := decide (s.count.toInt < 0) } →
    ∀ n : Nat, n = s.count.toInt.natAbs →
    (Claims.nonZeroKeys s < 2 → Claims.Completes (exec .cmdRun s) (Claims.faulted b 1#4)) ∧
    (2 ≤ Claims.nonZeroKeys s → n = 1 → Claims.Completes (exec .cmdRun s) (Claims.faulted b 2#4)) ∧
    (2 ≤ Claims.nonZeroKeys s → n ≠ 1 → s.params.nMax < n →
      Claims.Completes (exec .cmdRun s) (Claims.faulted b 3#4)) ∧
    (2 ≤ Claims.nonZeroKeys s → n = 0 → Claims.Completes (exec .cmdRun s) { b with done := true }) ∧
    (2 ≤ Claims.nonZeroKeys s → 2 ≤ n → n ≤ s.params.nMax → s.count.toInt < 0 →
      s.params.ksDepth < n * (12 + 128 / n) → Claims.Completes (exec .cmdRun s) (Claims.faulted b 4#4)) ∧
    (2 ≤ Claims.nonZeroKeys s → 2 ≤ n → n ≤ s.params.nMax →
      (0 ≤ s.count.toInt ∨ n * (12 + 128 / n) ≤ s.params.ksDepth) →
      Claims.Completes (exec .cmdRun s)
        { b with n := BitVec.ofNat 32 n, rounds := BitVec.ofNat 32 (12 + 128 / n), phase := 0x1#4 })

/-- R145: what holds when CMD_RUN has started an operation. -/
def Obligations.LaunchPostconditions : Prop :=
  ∀ s t : State, s.params.Valid → s.phase = 0x0#4 → exec .cmdRun s = .next t → t.phase = 0x1#4 →
    t.busy = true ∧ 2 ≤ t.n.toNat ∧ t.n.toNat ≤ t.params.nMax ∧ t.rounds.toNat = 12 + 128 / t.n.toNat ∧
      t.n.toNat = s.count.toInt.natAbs ∧ t.dir = decide (s.count.toInt < 0) ∧ t.done = false ∧ t.wign = false ∧
      t.draws = 0#32 ∧ (t.dir = true → t.n.toNat * t.rounds.toNat ≤ t.params.ksDepth)

/-- R154: a CMD_RUN, faulting or not, changes no DATA or KS byte, no key, no count and no PRNG or sweep register. -/
def Obligations.RunTouchesNoMessage : Prop :=
  ∀ s t : State, exec .cmdRun s = .next t →
    t = { s with phase := t.phase, done := t.done, fault := t.fault, err := t.err, wign := t.wign, dir := t.dir,
                 rounds := t.rounds, draws := t.draws, n := t.n, rsp := t.rsp } ∧
    (∀ a, t.dataByte a = s.dataByte a) ∧ (t.fault = true → s.fault = false → t.n = s.n ∧ t.rounds = 0#32 ∧ t.draws = 0#32)

/-! ## STATUS and INFO -/

/-- R73: the STATUS word, field by field; bits 31..13 read 0. -/
def Obligations.StatusWordLayout : Prop :=
  ∀ s : State,
    (s.statusWord.getLsbD 0 = true ↔ 1 ≤ s.phase.toNat ∧ s.phase.toNat ≤ 4) ∧ s.statusWord.getLsbD 1 = s.done ∧
    s.statusWord.getLsbD 2 = s.fault ∧ s.statusWord.getLsbD 3 = s.wign ∧ s.statusWord.extractLsb' 4 4 = s.err ∧
    s.statusWord.extractLsb' 8 4 = s.phase ∧ s.statusWord.getLsbD 12 = s.dir ∧ s.statusWord.extractLsb' 13 19 = 0#19

/-- R24, R76: INFO[15:0] = N_MAX and INFO[31:16] = KS_DEPTH, and no step changes them. -/
def Obligations.InfoIsConstant : Prop :=
  ∀ s : State, s.params.Valid →
    (s.infoWord.extractLsb' 0 16).toNat = s.params.nMax ∧ (s.infoWord.extractLsb' 16 16).toNat = s.params.ksDepth ∧
    ∀ t, step s = .next t → t.params = s.params ∧ t.infoWord = s.infoWord

/-! ## The PRNG -/

/-- R87: PRNG_SEED writes S, X and W and nothing else; an increment that is 0 or even takes the fault SEED_BAD, code 5,
before anything is written (log 12). -/
def Obligations.PrngSeedClearsTheState : Prop :=
  ∀ (s : State) (inc : DWord),
    (inc.getLsbD 0 = true → exec (.prngSeed inc) s = .next { s with prngS := inc, prngX := 0#64, prngW := 0#64 }) ∧
    (inc = 0#64 ∨ inc.getLsbD 0 = false → exec (.prngSeed inc) s = .next (Claims.faulted s 5#4))

/-- R88: PRNG_NEXT advances W by S, squares, adds, swaps the halves; the output r = lo32(X) is the high half before the
swap; nothing else changes. -/
def Obligations.PrngNextDrawsOneOutput : Prop :=
  ∀ s : State, ∃ t, exec .prngNext s = .next t ∧
    t = { s with prngW := s.prngW + s.prngS,
                 prngX := (Claims.square s).extractLsb' 0 32 ++ (Claims.square s).extractLsb' 32 32 } ∧
    t.drawn = (Claims.square s).extractLsb' 32 32 ∧ t.drawn = t.prngX.extractLsb' 0 32

/-- R91: W after j draws from W = 0 is j * S. -/
def Obligations.WeylAccumulatorClosedForm : Prop :=
  ∀ (inc x0 : DWord) (j : Nat), (Claims.prngState inc x0 j).2 = BitVec.ofNat 64 j * inc

/-- R93: from X = 0 and a small increment the outputs are all 0. -/
def Obligations.DegenerateStreamFromZero : Prop :=
  ∀ (inc : DWord) (j : Nat), 1 ≤ inc.toNat → inc.toNat < 2 ^ 32 → 1 ≤ j → j * inc.toNat < 2 ^ 32 →
    Claims.prngOut inc 0#64 (j - 1) = 0#32 ∧ (Claims.prngState inc 0#64 j).1 = BitVec.ofNat 64 (j * inc.toNat) <<< 32

/-- R90: the draws of PRNG_NEXT after PRNG_SEED depend on S and X alone, whatever else the state holds. -/
def Obligations.PrngOutputsDependOnSeedAndStart : Prop :=
  ∀ (s : State) (j : Nat), s.prngW = 0#64 →
    (State.draw^[j] s).prngX = (Claims.prngState s.prngS s.prngX j).1 ∧
    (State.draw^[j] s).prngW = (Claims.prngState s.prngS s.prngX j).2 ∧
    (State.draw^[j + 1] s).drawn = Claims.prngOut s.prngS s.prngX j

/-! ## The datapath -/

/-- R103: the two pairings and the constant, made odd; the result is odd and not zero; the constant is taken exactly
when all four key words are equal. -/
def Obligations.SeedDerivation : Prop :=
  ∀ k0 k1 k2 k3 : Word, ∃ a : DWord,
    (¬ (k0 = k1 ∧ k2 = k3) → a = (k2 ^^^ k3) ++ (k0 ^^^ k1)) ∧
    (k0 = k1 ∧ k2 = k3 → ¬ (k0 = k2 ∧ k1 = k3) → a = (k1 ^^^ k3) ++ (k0 ^^^ k2)) ∧
    (k0 = k1 ∧ k2 = k3 → k0 = k2 ∧ k1 = k3 → a = 0x9E3779B9#64) ∧
    seedOf k0 k1 k2 k3 = (if a.getLsbD 0 then a else a + 1#64) ∧
    (seedOf k0 k1 k2 k3).getLsbD 0 = true ∧ seedOf k0 k1 k2 k3 ≠ 0#64

/-- R102: the round count, its table of values, and the bound of the keystream length. -/
def Obligations.RoundCountAndLength : Prop :=
  roundsOf 2 = 76 ∧ roundsOf 3 = 54 ∧ roundsOf 4 = 44 ∧ roundsOf 5 = 37 ∧ roundsOf 6 = 33 ∧ roundsOf 7 = 30 ∧
  roundsOf 8 = 28 ∧ roundsOf 16 = 20 ∧ roundsOf 32 = 16 ∧ roundsOf 64 = 14 ∧
  (∀ n, 65 ≤ n → n ≤ 128 → roundsOf n = 13) ∧ (∀ n, 129 ≤ n → roundsOf n = 12) ∧
  (∀ n, 2 ≤ n → roundsOf n = 12 + 128 / n ∧ streamLength n = n * roundsOf n ∧ streamLength n ≤ 12 * n + 128)

/-- log 20 (R105): MX does not read the word it updates, so the decrypt update with the same operands gives the word back, and
every other DATA byte is as it was. -/
def Obligations.StepInverseLaw : Prop :=
  ∀ (s : State) (sum r : Word) (u : State), s.params.Valid → 2 ≤ s.n.toNat → s.n.toNat ≤ s.params.nMax →
    s.p.toNat < s.n.toNat →
    u = s.setData s.p.toNat (s.dataWord s.p.toNat + s.whitened sum r) →
    u.whitened sum r = s.whitened sum r ∧ u.dataWord s.p.toNat - u.whitened sum r = s.dataWord s.p.toNat ∧
      ∀ a, (a < 0x1000 + 4 * s.p.toNat ∨ 0x1000 + 4 * s.p.toNat + 4 ≤ a) → u.dataByte a = s.dataByte a

/-! ## The micro-ops -/

/-- R117: SEED completes from every state, in both directions; it never takes SEED_BAD (R103). -/
def Obligations.SeedStartsTheSweep : Prop :=
  ∀ (s : State) (inc : DWord), inc = seedOf s.key0 s.key1 s.key2 s.key3 →
    (s.dir = false → exec .seed s = .next { s with
      prngS := inc, prngX := s.params.x0, prngW := 0#64, rnd := s.rounds, ksptr := 0#32,
      sum := 0#32, p := 0#32, phase := 0x3#4 }) ∧
    (s.dir = true → exec .seed s = .next { s with
      prngS := inc, prngX := s.params.x0, prngW := 0#64, rnd := s.rounds, ksptr := 0#32,
      sum := s.rounds * 0x9E3779B9#32, p := s.n - 1#32, phase := 0x2#4 })

/-- R118: FILL stores one draw at KS[KSPTR], and changes no other keystream byte and no DATA byte. -/
def Obligations.FillStoresOneDraw : Prop :=
  ∀ s : State, s.ksptr.toNat < s.params.ksDepth →
    ∃ t, exec .fill s = .next t ∧
      t = { s with
        ks := t.ks, prngW := s.prngW + s.prngS,
        prngX := (Claims.square s).extractLsb' 0 32 ++ (Claims.square s).extractLsb' 32 32,
        ksptr := s.ksptr + 1#32, draws := s.draws + 1#32,
        phase := if s.ksptr + 1#32 = s.n * s.rounds then 0x4#4 else s.phase } ∧
      t.ksWord s.ksptr.toNat = (Claims.square s).extractLsb' 32 32 ∧
      (∀ a, (a < 4 * s.ksptr.toNat ∨ 4 * s.ksptr.toNat + 4 ≤ a) → t.ksByte a = s.ksByte a) ∧
      ∀ a, t.dataByte a = s.dataByte a

/-- log 20 (R105 to R108, R119 are the spec's general knowledge): one forward word update with a fresh draw, the
position, the round's end and the completion; the word at P is the only one stored and KS is not touched. -/
def Obligations.EncStepUpdatesOneWord : Prop :=
  ∀ (s : State) (sum : Word), s.params.Valid → 1 ≤ s.n.toNat → s.n.toNat ≤ s.params.nMax → s.p.toNat < s.params.nMax →
    sum = (if s.p = 0#32 then s.sum + 0x9E3779B9#32 else s.sum) →
    ∃ t, exec .encStep s = .next t ∧
      t = { s with
        data := t.data, prngW := s.prngW + s.prngS,
        prngX := (Claims.square s).extractLsb' 0 32 ++ (Claims.square s).extractLsb' 32 32,
        sum := sum, draws := s.draws + 1#32,
        p := if s.p.toNat = s.n.toNat - 1 then 0#32 else s.p + 1#32,
        rnd := if s.p.toNat = s.n.toNat - 1 then s.rnd - 1#32 else s.rnd,
        phase := if s.p.toNat = s.n.toNat - 1 ∧ s.rnd - 1#32 = 0#32 then 0x0#4 else s.phase,
        done := if s.p.toNat = s.n.toNat - 1 ∧ s.rnd - 1#32 = 0#32 then true else s.done } ∧
      t.dataWord s.p.toNat = s.dataWord s.p.toNat +
        (Claims.mix s (Claims.nextWord s) (Claims.prevWord s) sum ^^^ (Claims.square s).extractLsb' 32 32) ∧
      (∀ a, (a < 0x1000 + 4 * s.p.toNat ∨ 0x1000 + 4 * s.p.toNat + 4 ≤ a) → t.dataByte a = s.dataByte a) ∧
      ∀ a, t.ksByte a = s.ksByte a

/-- log 20 (R105, R106, R108, R120 are the spec's general knowledge): one reverse word update with the keystream word
below KSPTR, the position, the round's end and the completion; no draw, and the word at P is the only one stored. -/
def Obligations.DecStepUndoesOneWord : Prop :=
  ∀ s : State, s.params.Valid → 1 ≤ s.n.toNat → s.n.toNat ≤ s.params.nMax → s.p.toNat < s.params.nMax →
    1 ≤ s.ksptr.toNat → s.ksptr.toNat ≤ s.params.ksDepth →
    ∃ t, exec .decStep s = .next t ∧
      t = { s with
        data := t.data, ksptr := s.ksptr - 1#32,
        sum := if s.p.toNat = 0 then s.sum - 0x9E3779B9#32 else s.sum,
        p := if s.p.toNat = 0 then s.n - 1#32 else s.p - 1#32,
        rnd := if s.p.toNat = 0 then s.rnd - 1#32 else s.rnd,
        phase := if s.p.toNat = 0 ∧ s.rnd - 1#32 = 0#32 then 0x0#4 else s.phase,
        done := if s.p.toNat = 0 ∧ s.rnd - 1#32 = 0#32 then true else s.done } ∧
      t.dataWord s.p.toNat = s.dataWord s.p.toNat -
        (Claims.mix s (Claims.nextWord s) (Claims.prevWord s) s.sum ^^^ s.ksWord (s.ksptr.toNat - 1)) ∧
      (∀ a, (a < 0x1000 + 4 * s.p.toNat ∨ 0x1000 + 4 * s.p.toNat + 4 ≤ a) → t.dataByte a = s.dataByte a) ∧
      ∀ a, t.ksByte a = s.ksByte a

/-- log 9: where the micro-ops stop, and that they stop nowhere else. No state that meets the invariant is one of
these (InvStatesNeverStop). -/
def Obligations.MicroOpsStopOutsideTheirMemories : Prop :=
  ∀ (s : State) (next prev here replay : Nat), next = ((s.p + 1#32) % s.n).toNat → prev = ((s.p + s.n - 1#32) % s.n).toNat →
    here = s.p.toNat → replay = (s.ksptr - 1#32).toNat →
    (∀ i, i = .encStep ∨ i = .decStep →
      (s.n = 0#32 → exec i s = .fault .zeroMagnitude) ∧
      (s.n ≠ 0#32 → s.params.nMax ≤ next → exec i s = .fault (.dataIndex next)) ∧
      (s.n ≠ 0#32 → next < s.params.nMax → s.params.nMax ≤ prev → exec i s = .fault (.dataIndex prev)) ∧
      (s.n ≠ 0#32 → next < s.params.nMax → prev < s.params.nMax → s.params.nMax ≤ here →
        exec i s = .fault (.dataIndex here))) ∧
    (s.n ≠ 0#32 → next < s.params.nMax → prev < s.params.nMax → here < s.params.nMax →
      (∃ t, exec .encStep s = .next t) ∧
      (s.params.ksDepth ≤ replay → exec .decStep s = .fault (.ksIndex replay)) ∧
      (replay < s.params.ksDepth → ∃ t, exec .decStep s = .next t)) ∧
    (s.params.ksDepth ≤ s.ksptr.toNat → exec .fill s = .fault (.ksIndex s.ksptr.toNat)) ∧
    (s.ksptr.toNat < s.params.ksDepth → ∃ t, exec .fill s = .next t)

/-- R14, R13, R47: the engine writes no host register but through completion and fault entry, no parameter and no
keystream word but in FILL; only ENC_STEP and DEC_STEP store to DATA, and only the word at P. -/
def Obligations.EngineLeavesHostRegisters : Prop :=
  ∀ (s t : State) (i : Instr), i ∈ Claims.microOps → exec i s = .next t →
    t.count = s.count ∧ t.key0 = s.key0 ∧ t.key1 = s.key1 ∧ t.key2 = s.key2 ∧ t.key3 = s.key3 ∧ t.wign = s.wign ∧
    t.dir = s.dir ∧ t.rounds = s.rounds ∧ t.n = s.n ∧ t.fault = s.fault ∧ t.err = s.err ∧ t.params = s.params ∧
    t.inbox = s.inbox ∧ t.rsp = s.rsp ∧ t.resets = s.resets ∧
    (i ≠ .fill → ∀ a, t.ksByte a = s.ksByte a) ∧ (i = .seed ∨ i = .fill → ∀ a, t.dataByte a = s.dataByte a) ∧
    ∀ a, (a < 0x1000 + 4 * s.p.toNat ∨ 0x1000 + 4 * s.p.toNat + 4 ≤ a) → t.dataByte a = s.dataByte a

/-- R125, R147: nothing of an earlier operation reaches the next one: SEED gives the same state whatever the PRNG,
the sweep registers and the keystream cursor held. -/
def Obligations.SeedForgetsThePreviousOperation : Prop :=
  ∀ (s : State) (x w inc : DWord) (rnd p sum ksptr : Word),
    exec .seed { s with prngX := x, prngW := w, prngS := inc, rnd := rnd, p := p, sum := sum, ksptr := ksptr } =
      exec .seed s

/-! ## Whole operations and whole-machine rules -/

/-- R122, R124, R127, R128: from SEED an encrypt takes 1 + L(n) engine steps, is BUSY before each of them, and then is
IDLE and DONE with L(n) draws; it stores to no DATA word from n on and to no keystream word; it draws the stream of the
key's increment in order. -/
def Obligations.EncryptCompletesInItsSteps : Prop :=
  ∀ s : State, Inv s → s.phase = 0x1#4 → s.dir = false → s.inbox = [] →
    (∀ k, k < 1 + s.n.toNat * s.rounds.toNat → ∃ t, Claims.steps k s = .next t ∧ t.busy = true ∧
      (1 ≤ k → (t.prngX, t.prngW) = Claims.prngState (seedOf s.key0 s.key1 s.key2 s.key3) s.params.x0 (k - 1) ∧
        t.draws.toNat = k - 1)) ∧
    ∃ t, Claims.steps (1 + s.n.toNat * s.rounds.toNat) s = .next t ∧ t.phase = 0x0#4 ∧ t.done = true ∧
      t.draws.toNat = s.n.toNat * s.rounds.toNat ∧ t.rnd = 0#32 ∧ t.ks = s.ks ∧
      ∀ a, 0x1000 + 4 * s.n.toNat ≤ a → t.dataByte a = s.dataByte a

/-- R122, R124, R127: from SEED a decrypt takes 1 + 2*L(n) engine steps, is BUSY before each of them, and then is IDLE
and DONE with L(n) draws and the keystream cursor at 0; it stores to no DATA word from n on. -/
def Obligations.DecryptCompletesInItsSteps : Prop :=
  ∀ s : State, Inv s → s.phase = 0x1#4 → s.dir = true → s.inbox = [] →
    (∀ k, k < 1 + 2 * (s.n.toNat * s.rounds.toNat) → ∃ t, Claims.steps k s = .next t ∧ t.busy = true) ∧
    ∃ t, Claims.steps (1 + 2 * (s.n.toNat * s.rounds.toNat)) s = .next t ∧ t.phase = 0x0#4 ∧ t.done = true ∧
      t.draws.toNat = s.n.toNat * s.rounds.toNat ∧ t.rnd = 0#32 ∧ t.ksptr = 0#32 ∧ t.sum = 0#32 ∧
      ∀ a, 0x1000 + 4 * s.n.toNat ≤ a → t.dataByte a = s.dataByte a

/-- R123(2): after k FILLs KSPTR is k and the keystream holds the first k outputs in production order; DATA is untouched. -/
def Obligations.FillsHoldTheStreamInOrder : Prop :=
  ∀ (s : State) (k : Nat), Inv s → s.phase = 0x1#4 → s.dir = true → s.inbox = [] → k ≤ s.n.toNat * s.rounds.toNat →
    ∃ t, Claims.steps (1 + k) s = .next t ∧ t.ksptr.toNat = k ∧ t.draws.toNat = k ∧ t.data = s.data ∧
      ∀ j < k, t.ksWord j = Claims.prngOut (seedOf s.key0 s.key1 s.key2 s.key3) s.params.x0 j

/-- R126: encrypt then decrypt, and decrypt then encrypt, restore every word of the message, for every valid key, every
magnitude, odd or even, and every start state in IDLE whatever its memory holds. A decrypt is an operation only where the
keystream fits (R144), which is the last hypothesis. -/
def Obligations.RoundTripRestoresTheMessage : Prop :=
  ∀ (s : State) (n : Nat), s.params.Valid → s.phase = 0x0#4 → 2 ≤ Claims.nonZeroKeys s →
    2 ≤ n → n ≤ s.params.nMax → n * (12 + 128 / n) ≤ s.params.ksDepth →
    (∃ t u, Claims.encryptOperation s n = .next t ∧ t.done = true ∧ Claims.decryptOperation t n = .next u ∧
      u.done = true ∧ ∀ i < n, u.dataWord i = s.dataWord i) ∧
    (∃ t u, Claims.decryptOperation s n = .next t ∧ t.done = true ∧ Claims.encryptOperation t n = .next u ∧
      u.done = true ∧ ∀ i < n, u.dataWord i = s.dataWord i)

/-- R155: in PHASE FAULT no step but a reset changes anything but WIGN and the answer; a gated write sets WIGN, reads
work, and only reset leaves it. -/
def Obligations.FaultIsStickyUntilReset : Prop :=
  ∀ s : State, s.params.Valid → s.phase = 0xF#4 →
    (∀ t, step s = .next t → (∀ rest, s.inbox ≠ .reset :: rest) →
      t = { s with inbox := s.inbox.tail, wign := t.wign, rsp := t.rsp } ∧ t.phase = 0xF#4) ∧
    (∀ i, Claims.Gated s i → Claims.Completes (exec i s) { s with wign := true }) ∧
    (∀ t rest, s.inbox = .txn t :: rest → t.extractLsb' 46 2 = 0#2 → t.getLsbD 45 = false →
      step s = .next { s with inbox := rest, rsp := some (Claims.readAnswer s (Claims.offset t)) }) ∧
    (∀ rest, s.inbox = .reset :: rest → ∃ t, step s = .next t ∧ t.phase = 0x0#4 ∧ t.fault = false)

/-- R129, R133: while BUSY no transaction changes anything but WIGN and the answer, so none changes the operation. -/
def Obligations.HostCannotDisturbAnOperation : Prop :=
  ∀ (s : State) (t : Record) (rest : List Event), s.busy = true → s.inbox = .txn t :: rest →
    t.extractLsb' 46 2 = 0#2 →
    ∃ (w : Bool) (r : Response), (s.wign = true → w = true) ∧
      step s = .next { s with inbox := rest, wign := w, rsp := some r }

/-- R18, R19, R152: FAULT rises only through fault entry: with a code of R151 that was 0 before, DONE 0, PHASE FAULT, and
no DATA byte, key or count changed. -/
def Obligations.FaultRisesOnlyByFaultEntry : Prop :=
  ∀ s t : State, Inv s → step s = .next t → s.fault = false → t.fault = true →
    t.phase = 0xF#4 ∧ t.busy = false ∧ t.done = false ∧ 1 ≤ t.err.toNat ∧ t.err.toNat ≤ 6 ∧ t.err ≠ 5#4 ∧
    s.phase = 0x0#4 ∧ t.count = s.count ∧ t.key0 = s.key0 ∧ t.key1 = s.key1 ∧ t.key2 = s.key2 ∧ t.key3 = s.key3 ∧
    ∀ a, t.dataByte a = s.dataByte a

/-- R111, R156: the contents of DATA (and of KS) steer nothing: two states that differ only in them and in the read data
step alike, and differ afterwards only in them and in the read data. -/
def Obligations.MessageContentsSteerNothing : Prop :=
  ∀ s s' t : State, Claims.control s = Claims.control s' → step s = .next t →
    ∃ t', step s' = .next t' ∧ Claims.control t = Claims.control t'
end

