-- ==== Sys2Proof/Laws/Datapath.lean ====
section
/-! SUPPORT. The datapath's functions: what each computes, said once (41_cipher_datapath, 40_prng). -/

namespace Sys2Proof.Machine

/-! ## Halves -/

/-- R88: the swap exchanges the two halves. -/
theorem swap32_eq (v : DWord) : swap32 v = lo32 v ++ hi32 v := by
  ext i hi
  simp [swap32, lo32, hi32]
  grind

@[simp] theorem lo32_swap32 (v : DWord) : lo32 (swap32 v) = hi32 v := by
  ext i hi
  simp [swap32, lo32, hi32, hi]

/-- R75: pack puts its first word into the low half. -/
theorem pack_eq (a b : Word) : pack a b = b ++ a := by
  ext i hi
  simp [pack]
  grind

theorem pack_eq_zero_iff (a b : Word) : pack a b = 0#64 ↔ a = 0#32 ∧ b = 0#32 := by
  rw [pack_eq]
  constructor
  · intro h
    constructor
    · have := congrArg (BitVec.extractLsb' 0 32) h
      rw [BitVec.extractLsb'_append_eq_right] at this
      simpa using this
    · have := congrArg (BitVec.extractLsb' 32 32) h
      rw [BitVec.extractLsb'_append_eq_left] at this
      simpa using this
  · rintro ⟨rfl, rfl⟩; rfl

/-! ## The seed (R103) -/

theorem getLsbD_zero_add_one {v : DWord} (h : v.getLsbD 0 = false) : (v + 1#64).getLsbD 0 = true := by
  simp only [BitVec.getLsbD, Nat.testBit_zero] at h ⊢
  simp only [BitVec.toNat_add, decide_eq_true_eq, decide_eq_false_iff_not] at h ⊢
  simp only [BitVec.toNat_ofNat]
  omega

theorem seedOf_odd (k0 k1 k2 k3 : Word) : (seedOf k0 k1 k2 k3).getLsbD 0 = true := by
  unfold seedOf
  dsimp only
  generalize (if pack (k0 ^^^ k1) (k2 ^^^ k3) ≠ 0#64 then _ else _ : DWord) = a
  split
  · assumption
  · exact getLsbD_zero_add_one (by simpa using ‹¬ a.getLsbD 0 = true›)

theorem ne_zero_of_odd {v : DWord} (h : v.getLsbD 0 = true) : v ≠ 0#64 := by
  rintro rfl; simp at h

/-- No key reaches SEED_BAD (R87, R103). -/
@[simp] theorem seedGood_seedOf (k0 k1 k2 k3 : Word) : seedGood (seedOf k0 k1 k2 k3) = true := by
  have h := seedOf_odd k0 k1 k2 k3
  simp only [seedGood, h, ne_zero_of_odd h, ne_eq, not_false_eq_true, decide_true, Bool.and_self]

theorem seedGood_iff (v : DWord) : seedGood v = true ↔ v.getLsbD 0 = true := by
  simp only [seedGood, Bool.and_eq_true, decide_eq_true_eq]
  exact ⟨And.right, fun h => ⟨ne_zero_of_odd h, h⟩⟩

theorem xor_eq_zero_iff_eq (a b : Word) : a ^^^ b = 0#32 ↔ a = b := by
  simp

/-! ## Round count (R102) -/

theorem roundsOf_pos (n : Nat) : 1 ≤ roundsOf n := Nat.le_trans (by decide) (Nat.le_add_right 12 (128 / n))

theorem roundsOf_le {n : Nat} (h : 2 ≤ n) : roundsOf n ≤ 76 := by
  have : 128 / n ≤ 128 / 2 := Nat.div_le_div_left h (by decide)
  simp only [roundsOf]; omega

theorem streamLength_le (n : Nat) : streamLength n ≤ 12 * n + 128 := by
  have := Nat.mul_div_le 128 n
  simp only [streamLength, roundsOf, Nat.mul_add]
  omega

theorem streamLength_lt {n : Nat} (h : n ≤ 1024) : streamLength n < 2 ^ 32 := by
  have := streamLength_le n
  omega

/-! ## The count (R74) -/

theorem magnitude_ofNat {n : Nat} (h : n < 2 ^ 31) : magnitude (BitVec.ofNat 32 n) = n := by
  have : (BitVec.ofNat 32 n).toInt = n := by
    rw [BitVec.toInt_ofNat']; simp [Int.bmod]; omega
  simp [magnitude, this]

theorem negative_ofNat {n : Nat} (h : n < 2 ^ 31) : negative (BitVec.ofNat 32 n) = false := by
  have : (BitVec.ofNat 32 n).toInt = n := by
    rw [BitVec.toInt_ofNat']; simp [Int.bmod]; omega
  simp [negative, this]

theorem toInt_neg_ofNat {n : Nat} (h : n < 2 ^ 31) : (-BitVec.ofNat 32 n).toInt = -(n : Int) := by
  rw [BitVec.toInt_neg, BitVec.toInt_ofNat']
  simp [Int.bmod]
  omega

theorem magnitude_neg_ofNat {n : Nat} (h : n < 2 ^ 31) : magnitude (-BitVec.ofNat 32 n) = n := by
  simp [magnitude, toInt_neg_ofNat h]

theorem negative_neg_ofNat {n : Nat} (h : n < 2 ^ 31) (h1 : 1 ≤ n) : negative (-BitVec.ofNat 32 n) = true := by
  simp only [negative, toInt_neg_ofNat h, decide_eq_true_eq]
  omega

/-! ## Indexes of a sweep (R106) -/

theorem nextIndex_eq {s : State} (hP : s.p.toNat < 1024) : s.nextIndex = (s.p.toNat + 1) % s.n.toNat := by
  simp only [State.nextIndex, BitVec.toNat_umod, BitVec.toNat_add, BitVec.toNat_ofNat]
  congr 1; omega

theorem prevIndex_eq {s : State} (h1 : 1 ≤ s.n.toNat) (hN : s.n.toNat ≤ 1024) (hP : s.p.toNat < 1024) :
    s.prevIndex = (s.p.toNat + s.n.toNat - 1) % s.n.toNat := by
  simp only [State.prevIndex, BitVec.toNat_umod, BitVec.toNat_sub, BitVec.toNat_add, BitVec.toNat_ofNat]
  congr 1; omega

/-- A sweep step inside the window does not stop. -/
theorem sweepStop_none {s : State} (h1 : 1 ≤ s.n.toNat) (hN : s.n.toNat ≤ s.params.nMax) (hM : s.params.nMax ≤ 1024)
    (hP : s.p.toNat < s.params.nMax) : s.sweepStop = none := by
  have h0 : s.n ≠ 0#32 := by rintro h; rw [h] at h1; simp at h1
  have e1 := nextIndex_eq (s := s) (by omega)
  have e2 := prevIndex_eq (s := s) h1 (by omega) (by omega)
  have h3 : (s.p.toNat + 1) % s.n.toNat < s.n.toNat := Nat.mod_lt _ (by omega)
  have h4 : (s.p.toNat + s.n.toNat - 1) % s.n.toNat < s.n.toNat := Nat.mod_lt _ (by omega)
  have h5 : s.wordIndex = s.p.toNat := rfl
  rw [State.sweepStop, if_neg h0, if_neg (by omega), if_neg (by omega), if_neg (by omega)]

/-- What the checks of a sweep step ensure when they do not stop it. -/
theorem bounds_of_sweepStop_none {s : State} (h : s.sweepStop = none) :
    s.n ≠ 0#32 ∧ s.nextIndex < s.params.nMax ∧ s.prevIndex < s.params.nMax ∧ s.wordIndex < s.params.nMax := by
  simp only [State.sweepStop] at h
  split_ifs at h with h0 h1 h2 h3
  exact ⟨h0, by omega, by omega, by omega⟩

/-- R105, R106: the neighbours of word p are other words than p. -/
theorem next_ne (p n : Nat) (h2 : 2 ≤ n) (hp : p < n) : (p + 1) % n ≠ p := by
  rcases Nat.lt_or_ge (p + 1) n with h | h
  · rw [Nat.mod_eq_of_lt h]; omega
  · have : p + 1 = n := by omega
    rw [this, Nat.mod_self]; omega

theorem prev_ne (p n : Nat) (h2 : 2 ≤ n) (hp : p < n) : (p + n - 1) % n ≠ p := by
  rcases Nat.eq_zero_or_pos p with rfl | h
  · rw [Nat.mod_eq_of_lt (by omega)]; omega
  · have : p + n - 1 = (p - 1) + n := by omega
    rw [this, Nat.add_mod_right, Nat.mod_eq_of_lt (by omega)]; omega

end Sys2Proof.Machine
end

