-- ==== Sys2Proof/Laws/Decode.lean ====
section
/-! SUPPORT. The fields of a record and the record of fields (30_encoding R85). -/

namespace Sys2Proof

section fields
variable (we : Bool) (off : BitVec 11) (align : BitVec 2) (v : Word)

@[simp] theorem recTop_record : recTop (record we off align v) = 0#2 := by
  ext i hi; simp [recTop, record]; grind
@[simp] theorem recWe_record : recWe (record we off align v) = we := by
  simp [recWe, record]; grind
@[simp] theorem recUpper_record : recUpper (record we off align v) = off.getLsbD 10 := by
  simp [recUpper, record]; grind
@[simp] theorem recOff_record : recOff (record we off align v) = off := by
  ext i hi; simp [recOff, record]; grind
@[simp] theorem recIndex_record : recIndex (record we off align v) = off.extractLsb' 0 10 := by
  ext i hi; simp [recIndex, record]; grind
@[simp] theorem recAlign_record : recAlign (record we off align v) = align := by
  ext i hi; simp [recAlign, record]; grind
@[simp] theorem recWdata_record : recWdata (record we off align v) = v := by
  ext i hi; simp [recWdata, record]; grind
@[simp] theorem recCmd_record : recCmd (record we off align v) = v.extractLsb' 0 4 := by
  ext i hi; simp [recCmd, record]; grind
end fields

/-- A record with T[47:46] = 0 is the record of its fields: no bit is outside them. -/
theorem record_of_fields {t : Record} (h : recTop t = 0#2) :
    record (recWe t) (recOff t) (recAlign t) (recWdata t) = t := by
  have h46 : t.getLsbD 46 = false := by
    have := congrArg (·.getLsbD 0) h; simpa [recTop] using this
  have h47 : t.getLsbD 47 = false := by
    have := congrArg (·.getLsbD 1) h; simpa [recTop] using this
  ext i hi
  simp only [record, recWe, recOff, recAlign, recWdata]
  simp
  grind

@[simp] theorem dataOffset_upper (i : BitVec 10) : (dataOffset i).getLsbD 10 = true := by
  simp [dataOffset]; grind

@[simp] theorem dataOffset_index (i : BitVec 10) : (dataOffset i).extractLsb' 0 10 = i := by
  ext k hk; simp [dataOffset]; grind

/-- In the upper half the word offset is the DATA offset of the index. -/
theorem recOff_of_upper {t : Record} (h : recUpper t = true) : recOff t = dataOffset (recIndex t) := by
  have h44 : t.getLsbD 44 = true := h
  ext k hk
  simp [recOff, recIndex, dataOffset]
  grind

/-- Every transaction is the record of some fields. -/
theorem exists_record {t : Record} (h : recTop t = 0#2) : ∃ we off align v, t = record we off align v :=
  ⟨_, _, _, _, (record_of_fields h).symm⟩

/-- R50: the four cases of addr[1:0]. -/
theorem align_cases (a : BitVec 2) : a = 0#2 ∨ a = 1#2 ∨ a = 2#2 ∨ a = 3#2 := by revert a; decide

/-- The byte offset of a record: four times the word offset, and addr[1:0]. -/
theorem toNat_offset_record (we : Bool) (off : BitVec 11) (align : BitVec 2) (v : Word) :
    ((record we off align v).extractLsb' 32 13).toNat = 4 * off.toNat + align.toNat := by
  have : (record we off align v).extractLsb' 32 13 = off ++ align := by
    ext i hi; simp [record]; grind
  rw [this, BitVec.toNat_append, ← Nat.shiftLeft_add_eq_or_of_lt align.isLt, Nat.shiftLeft_eq]
  omega

/-- R71: the word offsets of the lower half. -/
theorem off_lt_of_lower {off : BitVec 11} (h : off.getLsbD 10 = false) : off.toNat < 0x400 := by
  have h2 := off.isLt
  rw [BitVec.getLsbD, Nat.testBit_eq_decide_div_mod_eq] at h
  simp at h; omega

theorem dataOffset_toNat (i : BitVec 10) : (dataOffset i).toNat = 0x400 + i.toNat := by
  rw [dataOffset, BitVec.toNat_append, ← Nat.shiftLeft_add_eq_or_of_lt i.isLt]; rfl

/-- R71: a word offset of the upper half is a DATA offset. -/
theorem eq_dataOffset_of_upper {off : BitVec 11} (h : off.getLsbD 10 = true) :
    off = dataOffset (off.extractLsb' 0 10) := by
  apply BitVec.eq_of_toNat_eq
  have h2 := off.isLt
  rw [BitVec.getLsbD, Nat.testBit_eq_decide_div_mod_eq] at h
  rw [dataOffset_toNat]
  simp at h ⊢; omega

/-! ## A record under the table's masks -/

theorem record_and (we : Bool) (off : BitVec 11) (align : BitVec 2) (v m : Word) :
    record we off align v &&& (BitVec.allOnes 16 ++ m) = record we off align (v &&& m) := by
  unfold record
  rw [BitVec.and_append, BitVec.and_allOnes]

theorem record_and_zero (we : Bool) (off : BitVec 11) (align : BitVec 2) (v : Word) :
    record we off align v &&& 0xFFFF00000000#48 = record we off align 0#32 := by
  have := record_and we off align v 0#32
  rw [BitVec.and_zero] at this; exact this

theorem record_and_ones (we : Bool) (off : BitVec 11) (align : BitVec 2) (v : Word) :
    record we off align v &&& 0xFFFFFFFFFFFF#48 = record we off align v := by
  have := record_and we off align v (BitVec.allOnes 32)
  rw [BitVec.and_allOnes] at this; exact this

/-- R72: of a command's wdata only bits 3..0 count. -/
theorem and_cmd (v : Word) : v &&& 0xF#32 = (v.extractLsb' 0 4).setWidth 32 := by
  apply BitVec.eq_of_toNat_eq
  simp
  rw [show (15 : Nat) = 2 ^ 4 - 1 from rfl, Nat.and_two_pow_sub_one_eq_mod]; omega

theorem record_and_cmd (we : Bool) (off : BitVec 11) (align : BitVec 2) (v : Word) :
    record we off align v &&& 0xFFFF0000000F#48 = record we off align ((v.extractLsb' 0 4).setWidth 32) := by
  have := record_and we off align v 0xF#32
  rw [and_cmd] at this; exact this

/-- A record under the masks of the two DATA rows and of the misaligned rows. -/
theorem record_and_window (we : Bool) (off : BitVec 11) (align : BitVec 2) (v : Word) :
    record we off align v &&& 0xF00300000000#48 = record we (off &&& 0x400#11) align 0#32 := by
  have hm : (0xF00300000000#48 : Record) = BitVec.allOnes 2 ++ BitVec.allOnes 1 ++ 0x400#11 ++ BitVec.allOnes 2 ++ 0#32 := rfl
  rw [hm]
  unfold record
  rw [BitVec.and_append, BitVec.and_append, BitVec.and_append, BitVec.and_append, BitVec.and_allOnes,
    BitVec.and_allOnes, BitVec.and_allOnes, BitVec.and_zero]

/-! ## The decoder on a record of fields -/

theorem decodeTxn_misaligned1 (p : Params) (we : Bool) (off : BitVec 11) (v : Word) :
    decodeTxn p (record we off 1#2 v) = .ok (.buserrMisaligned1 we off) := by
  simp [decodeTxn]

theorem decodeTxn_misaligned2 (p : Params) (we : Bool) (off : BitVec 11) (v : Word) :
    decodeTxn p (record we off 2#2 v) = .ok (.buserrMisaligned2 we off) := by
  simp [decodeTxn]

theorem decodeTxn_misaligned3 (p : Params) (we : Bool) (off : BitVec 11) (v : Word) :
    decodeTxn p (record we off 3#2 v) = .ok (.buserrMisaligned3 we off) := by
  simp [decodeTxn]

theorem decodeTxn_window (p : Params) (we : Bool) (i : BitVec 10) (v : Word) :
    decodeTxn p (record we (dataOffset i) 0#2 v) = .ok
      (if i.toNat < p.nMax then (if we then .wrData i v else .rdData i) else .buserrUnmapped we (dataOffset i)) := by
  simp only [decodeTxn, recTop_record, recAlign_record, recUpper_record, dataOffset_upper]
  simp [decodeWindow]

theorem decodeTxn_lower (p : Params) (we : Bool) (off : BitVec 11) (v : Word) (h : off.getLsbD 10 = false) :
    decodeTxn p (record we off 0#2 v) = .ok
      (if we then decodeWrite (record we off 0#2 v) else decodeRead (record we off 0#2 v)) := by
  simp only [decodeTxn, recTop_record, recAlign_record, recUpper_record, h]
  cases we <;> simp

end Sys2Proof
end

