-- ==== Sys2Proof/Laws/State.lean ====
section
/-! SUPPORT. What each named update writes and leaves: one lemma per field, true by rfl. -/

namespace Sys2Proof.Machine

/-! The codes of PHASE as numerals (R79). -/
@[simp] theorem Phase.idle_eq : Phase.idle = 0#4 := rfl
@[simp] theorem Phase.seed_eq : Phase.seed = 1#4 := rfl
@[simp] theorem Phase.fill_eq : Phase.fill = 2#4 := rfl
@[simp] theorem Phase.enc_eq : Phase.enc = 3#4 := rfl
@[simp] theorem Phase.dec_eq : Phase.dec = 4#4 := rfl
@[simp] theorem Phase.fault_eq : Phase.fault = 15#4 := rfl

section setData
variable (s : State) (i : Nat) (v : Word)
@[simp] theorem State.setData_count : (s.setData i v).count = s.count := rfl
@[simp] theorem State.setData_key0 : (s.setData i v).key0 = s.key0 := rfl
@[simp] theorem State.setData_key1 : (s.setData i v).key1 = s.key1 := rfl
@[simp] theorem State.setData_key2 : (s.setData i v).key2 = s.key2 := rfl
@[simp] theorem State.setData_key3 : (s.setData i v).key3 = s.key3 := rfl
@[simp] theorem State.setData_phase : (s.setData i v).phase = s.phase := rfl
@[simp] theorem State.setData_done : (s.setData i v).done = s.done := rfl
@[simp] theorem State.setData_fault : (s.setData i v).fault = s.fault := rfl
@[simp] theorem State.setData_err : (s.setData i v).err = s.err := rfl
@[simp] theorem State.setData_wign : (s.setData i v).wign = s.wign := rfl
@[simp] theorem State.setData_dir : (s.setData i v).dir = s.dir := rfl
@[simp] theorem State.setData_rounds : (s.setData i v).rounds = s.rounds := rfl
@[simp] theorem State.setData_draws : (s.setData i v).draws = s.draws := rfl
@[simp] theorem State.setData_n : (s.setData i v).n = s.n := rfl
@[simp] theorem State.setData_rnd : (s.setData i v).rnd = s.rnd := rfl
@[simp] theorem State.setData_p : (s.setData i v).p = s.p := rfl
@[simp] theorem State.setData_sum : (s.setData i v).sum = s.sum := rfl
@[simp] theorem State.setData_ksptr : (s.setData i v).ksptr = s.ksptr := rfl
@[simp] theorem State.setData_prngX : (s.setData i v).prngX = s.prngX := rfl
@[simp] theorem State.setData_prngW : (s.setData i v).prngW = s.prngW := rfl
@[simp] theorem State.setData_prngS : (s.setData i v).prngS = s.prngS := rfl
@[simp] theorem State.setData_data : (s.setData i v).data = Memory.storeWord s.data (dataAddr i) v := rfl
@[simp] theorem State.setData_ks : (s.setData i v).ks = s.ks := rfl
@[simp] theorem State.setData_params : (s.setData i v).params = s.params := rfl
@[simp] theorem State.setData_inbox : (s.setData i v).inbox = s.inbox := rfl
@[simp] theorem State.setData_rsp : (s.setData i v).rsp = s.rsp := rfl
@[simp] theorem State.setData_resets : (s.setData i v).resets = s.resets := rfl
end setData

section setKs
variable (s : State) (j : Nat) (v : Word)
@[simp] theorem State.setKs_count : (s.setKs j v).count = s.count := rfl
@[simp] theorem State.setKs_key0 : (s.setKs j v).key0 = s.key0 := rfl
@[simp] theorem State.setKs_key1 : (s.setKs j v).key1 = s.key1 := rfl
@[simp] theorem State.setKs_key2 : (s.setKs j v).key2 = s.key2 := rfl
@[simp] theorem State.setKs_key3 : (s.setKs j v).key3 = s.key3 := rfl
@[simp] theorem State.setKs_phase : (s.setKs j v).phase = s.phase := rfl
@[simp] theorem State.setKs_done : (s.setKs j v).done = s.done := rfl
@[simp] theorem State.setKs_fault : (s.setKs j v).fault = s.fault := rfl
@[simp] theorem State.setKs_err : (s.setKs j v).err = s.err := rfl
@[simp] theorem State.setKs_wign : (s.setKs j v).wign = s.wign := rfl
@[simp] theorem State.setKs_dir : (s.setKs j v).dir = s.dir := rfl
@[simp] theorem State.setKs_rounds : (s.setKs j v).rounds = s.rounds := rfl
@[simp] theorem State.setKs_draws : (s.setKs j v).draws = s.draws := rfl
@[simp] theorem State.setKs_n : (s.setKs j v).n = s.n := rfl
@[simp] theorem State.setKs_rnd : (s.setKs j v).rnd = s.rnd := rfl
@[simp] theorem State.setKs_p : (s.setKs j v).p = s.p := rfl
@[simp] theorem State.setKs_sum : (s.setKs j v).sum = s.sum := rfl
@[simp] theorem State.setKs_ksptr : (s.setKs j v).ksptr = s.ksptr := rfl
@[simp] theorem State.setKs_prngX : (s.setKs j v).prngX = s.prngX := rfl
@[simp] theorem State.setKs_prngW : (s.setKs j v).prngW = s.prngW := rfl
@[simp] theorem State.setKs_prngS : (s.setKs j v).prngS = s.prngS := rfl
@[simp] theorem State.setKs_data : (s.setKs j v).data = s.data := rfl
@[simp] theorem State.setKs_ks : (s.setKs j v).ks = Memory.storeWord s.ks (ksAddr j) v := rfl
@[simp] theorem State.setKs_params : (s.setKs j v).params = s.params := rfl
@[simp] theorem State.setKs_inbox : (s.setKs j v).inbox = s.inbox := rfl
@[simp] theorem State.setKs_rsp : (s.setKs j v).rsp = s.rsp := rfl
@[simp] theorem State.setKs_resets : (s.setKs j v).resets = s.resets := rfl
end setKs

section answerRead
variable (s : State) (v : Word)
@[simp] theorem State.answerRead_count : (s.answerRead v).count = s.count := rfl
@[simp] theorem State.answerRead_key0 : (s.answerRead v).key0 = s.key0 := rfl
@[simp] theorem State.answerRead_key1 : (s.answerRead v).key1 = s.key1 := rfl
@[simp] theorem State.answerRead_key2 : (s.answerRead v).key2 = s.key2 := rfl
@[simp] theorem State.answerRead_key3 : (s.answerRead v).key3 = s.key3 := rfl
@[simp] theorem State.answerRead_phase : (s.answerRead v).phase = s.phase := rfl
@[simp] theorem State.answerRead_done : (s.answerRead v).done = s.done := rfl
@[simp] theorem State.answerRead_fault : (s.answerRead v).fault = s.fault := rfl
@[simp] theorem State.answerRead_err : (s.answerRead v).err = s.err := rfl
@[simp] theorem State.answerRead_wign : (s.answerRead v).wign = s.wign := rfl
@[simp] theorem State.answerRead_dir : (s.answerRead v).dir = s.dir := rfl
@[simp] theorem State.answerRead_rounds : (s.answerRead v).rounds = s.rounds := rfl
@[simp] theorem State.answerRead_draws : (s.answerRead v).draws = s.draws := rfl
@[simp] theorem State.answerRead_n : (s.answerRead v).n = s.n := rfl
@[simp] theorem State.answerRead_rnd : (s.answerRead v).rnd = s.rnd := rfl
@[simp] theorem State.answerRead_p : (s.answerRead v).p = s.p := rfl
@[simp] theorem State.answerRead_sum : (s.answerRead v).sum = s.sum := rfl
@[simp] theorem State.answerRead_ksptr : (s.answerRead v).ksptr = s.ksptr := rfl
@[simp] theorem State.answerRead_prngX : (s.answerRead v).prngX = s.prngX := rfl
@[simp] theorem State.answerRead_prngW : (s.answerRead v).prngW = s.prngW := rfl
@[simp] theorem State.answerRead_prngS : (s.answerRead v).prngS = s.prngS := rfl
@[simp] theorem State.answerRead_data : (s.answerRead v).data = s.data := rfl
@[simp] theorem State.answerRead_ks : (s.answerRead v).ks = s.ks := rfl
@[simp] theorem State.answerRead_params : (s.answerRead v).params = s.params := rfl
@[simp] theorem State.answerRead_inbox : (s.answerRead v).inbox = s.inbox := rfl
@[simp] theorem State.answerRead_rsp : (s.answerRead v).rsp = some ⟨some v, false⟩ := rfl
@[simp] theorem State.answerRead_resets : (s.answerRead v).resets = s.resets := rfl
end answerRead

section answerWrite
variable (s : State)
@[simp] theorem State.answerWrite_count : (s.answerWrite).count = s.count := rfl
@[simp] theorem State.answerWrite_key0 : (s.answerWrite).key0 = s.key0 := rfl
@[simp] theorem State.answerWrite_key1 : (s.answerWrite).key1 = s.key1 := rfl
@[simp] theorem State.answerWrite_key2 : (s.answerWrite).key2 = s.key2 := rfl
@[simp] theorem State.answerWrite_key3 : (s.answerWrite).key3 = s.key3 := rfl
@[simp] theorem State.answerWrite_phase : (s.answerWrite).phase = s.phase := rfl
@[simp] theorem State.answerWrite_done : (s.answerWrite).done = s.done := rfl
@[simp] theorem State.answerWrite_fault : (s.answerWrite).fault = s.fault := rfl
@[simp] theorem State.answerWrite_err : (s.answerWrite).err = s.err := rfl
@[simp] theorem State.answerWrite_wign : (s.answerWrite).wign = s.wign := rfl
@[simp] theorem State.answerWrite_dir : (s.answerWrite).dir = s.dir := rfl
@[simp] theorem State.answerWrite_rounds : (s.answerWrite).rounds = s.rounds := rfl
@[simp] theorem State.answerWrite_draws : (s.answerWrite).draws = s.draws := rfl
@[simp] theorem State.answerWrite_n : (s.answerWrite).n = s.n := rfl
@[simp] theorem State.answerWrite_rnd : (s.answerWrite).rnd = s.rnd := rfl
@[simp] theorem State.answerWrite_p : (s.answerWrite).p = s.p := rfl
@[simp] theorem State.answerWrite_sum : (s.answerWrite).sum = s.sum := rfl
@[simp] theorem State.answerWrite_ksptr : (s.answerWrite).ksptr = s.ksptr := rfl
@[simp] theorem State.answerWrite_prngX : (s.answerWrite).prngX = s.prngX := rfl
@[simp] theorem State.answerWrite_prngW : (s.answerWrite).prngW = s.prngW := rfl
@[simp] theorem State.answerWrite_prngS : (s.answerWrite).prngS = s.prngS := rfl
@[simp] theorem State.answerWrite_data : (s.answerWrite).data = s.data := rfl
@[simp] theorem State.answerWrite_ks : (s.answerWrite).ks = s.ks := rfl
@[simp] theorem State.answerWrite_params : (s.answerWrite).params = s.params := rfl
@[simp] theorem State.answerWrite_inbox : (s.answerWrite).inbox = s.inbox := rfl
@[simp] theorem State.answerWrite_rsp : (s.answerWrite).rsp = some ⟨none, false⟩ := rfl
@[simp] theorem State.answerWrite_resets : (s.answerWrite).resets = s.resets := rfl
end answerWrite

section answerBusError
variable (s : State)
@[simp] theorem State.answerBusError_count : (s.answerBusError).count = s.count := rfl
@[simp] theorem State.answerBusError_key0 : (s.answerBusError).key0 = s.key0 := rfl
@[simp] theorem State.answerBusError_key1 : (s.answerBusError).key1 = s.key1 := rfl
@[simp] theorem State.answerBusError_key2 : (s.answerBusError).key2 = s.key2 := rfl
@[simp] theorem State.answerBusError_key3 : (s.answerBusError).key3 = s.key3 := rfl
@[simp] theorem State.answerBusError_phase : (s.answerBusError).phase = s.phase := rfl
@[simp] theorem State.answerBusError_done : (s.answerBusError).done = s.done := rfl
@[simp] theorem State.answerBusError_fault : (s.answerBusError).fault = s.fault := rfl
@[simp] theorem State.answerBusError_err : (s.answerBusError).err = s.err := rfl
@[simp] theorem State.answerBusError_wign : (s.answerBusError).wign = s.wign := rfl
@[simp] theorem State.answerBusError_dir : (s.answerBusError).dir = s.dir := rfl
@[simp] theorem State.answerBusError_rounds : (s.answerBusError).rounds = s.rounds := rfl
@[simp] theorem State.answerBusError_draws : (s.answerBusError).draws = s.draws := rfl
@[simp] theorem State.answerBusError_n : (s.answerBusError).n = s.n := rfl
@[simp] theorem State.answerBusError_rnd : (s.answerBusError).rnd = s.rnd := rfl
@[simp] theorem State.answerBusError_p : (s.answerBusError).p = s.p := rfl
@[simp] theorem State.answerBusError_sum : (s.answerBusError).sum = s.sum := rfl
@[simp] theorem State.answerBusError_ksptr : (s.answerBusError).ksptr = s.ksptr := rfl
@[simp] theorem State.answerBusError_prngX : (s.answerBusError).prngX = s.prngX := rfl
@[simp] theorem State.answerBusError_prngW : (s.answerBusError).prngW = s.prngW := rfl
@[simp] theorem State.answerBusError_prngS : (s.answerBusError).prngS = s.prngS := rfl
@[simp] theorem State.answerBusError_data : (s.answerBusError).data = s.data := rfl
@[simp] theorem State.answerBusError_ks : (s.answerBusError).ks = s.ks := rfl
@[simp] theorem State.answerBusError_params : (s.answerBusError).params = s.params := rfl
@[simp] theorem State.answerBusError_inbox : (s.answerBusError).inbox = s.inbox := rfl
@[simp] theorem State.answerBusError_rsp : (s.answerBusError).rsp = some ⟨some 0#32, true⟩ := rfl
@[simp] theorem State.answerBusError_resets : (s.answerBusError).resets = s.resets := rfl
end answerBusError

section markIgnored
variable (s : State)
@[simp] theorem State.markIgnored_count : (s.markIgnored).count = s.count := rfl
@[simp] theorem State.markIgnored_key0 : (s.markIgnored).key0 = s.key0 := rfl
@[simp] theorem State.markIgnored_key1 : (s.markIgnored).key1 = s.key1 := rfl
@[simp] theorem State.markIgnored_key2 : (s.markIgnored).key2 = s.key2 := rfl
@[simp] theorem State.markIgnored_key3 : (s.markIgnored).key3 = s.key3 := rfl
@[simp] theorem State.markIgnored_phase : (s.markIgnored).phase = s.phase := rfl
@[simp] theorem State.markIgnored_done : (s.markIgnored).done = s.done := rfl
@[simp] theorem State.markIgnored_fault : (s.markIgnored).fault = s.fault := rfl
@[simp] theorem State.markIgnored_err : (s.markIgnored).err = s.err := rfl
@[simp] theorem State.markIgnored_wign : (s.markIgnored).wign = true := rfl
@[simp] theorem State.markIgnored_dir : (s.markIgnored).dir = s.dir := rfl
@[simp] theorem State.markIgnored_rounds : (s.markIgnored).rounds = s.rounds := rfl
@[simp] theorem State.markIgnored_draws : (s.markIgnored).draws = s.draws := rfl
@[simp] theorem State.markIgnored_n : (s.markIgnored).n = s.n := rfl
@[simp] theorem State.markIgnored_rnd : (s.markIgnored).rnd = s.rnd := rfl
@[simp] theorem State.markIgnored_p : (s.markIgnored).p = s.p := rfl
@[simp] theorem State.markIgnored_sum : (s.markIgnored).sum = s.sum := rfl
@[simp] theorem State.markIgnored_ksptr : (s.markIgnored).ksptr = s.ksptr := rfl
@[simp] theorem State.markIgnored_prngX : (s.markIgnored).prngX = s.prngX := rfl
@[simp] theorem State.markIgnored_prngW : (s.markIgnored).prngW = s.prngW := rfl
@[simp] theorem State.markIgnored_prngS : (s.markIgnored).prngS = s.prngS := rfl
@[simp] theorem State.markIgnored_data : (s.markIgnored).data = s.data := rfl
@[simp] theorem State.markIgnored_ks : (s.markIgnored).ks = s.ks := rfl
@[simp] theorem State.markIgnored_params : (s.markIgnored).params = s.params := rfl
@[simp] theorem State.markIgnored_inbox : (s.markIgnored).inbox = s.inbox := rfl
@[simp] theorem State.markIgnored_rsp : (s.markIgnored).rsp = s.rsp := rfl
@[simp] theorem State.markIgnored_resets : (s.markIgnored).resets = s.resets := rfl
end markIgnored

section complete
variable (s : State)
@[simp] theorem State.complete_count : (s.complete).count = s.count := rfl
@[simp] theorem State.complete_key0 : (s.complete).key0 = s.key0 := rfl
@[simp] theorem State.complete_key1 : (s.complete).key1 = s.key1 := rfl
@[simp] theorem State.complete_key2 : (s.complete).key2 = s.key2 := rfl
@[simp] theorem State.complete_key3 : (s.complete).key3 = s.key3 := rfl
@[simp] theorem State.complete_phase : (s.complete).phase = Phase.idle := rfl
@[simp] theorem State.complete_done : (s.complete).done = true := rfl
@[simp] theorem State.complete_fault : (s.complete).fault = s.fault := rfl
@[simp] theorem State.complete_err : (s.complete).err = s.err := rfl
@[simp] theorem State.complete_wign : (s.complete).wign = s.wign := rfl
@[simp] theorem State.complete_dir : (s.complete).dir = s.dir := rfl
@[simp] theorem State.complete_rounds : (s.complete).rounds = s.rounds := rfl
@[simp] theorem State.complete_draws : (s.complete).draws = s.draws := rfl
@[simp] theorem State.complete_n : (s.complete).n = s.n := rfl
@[simp] theorem State.complete_rnd : (s.complete).rnd = s.rnd := rfl
@[simp] theorem State.complete_p : (s.complete).p = s.p := rfl
@[simp] theorem State.complete_sum : (s.complete).sum = s.sum := rfl
@[simp] theorem State.complete_ksptr : (s.complete).ksptr = s.ksptr := rfl
@[simp] theorem State.complete_prngX : (s.complete).prngX = s.prngX := rfl
@[simp] theorem State.complete_prngW : (s.complete).prngW = s.prngW := rfl
@[simp] theorem State.complete_prngS : (s.complete).prngS = s.prngS := rfl
@[simp] theorem State.complete_data : (s.complete).data = s.data := rfl
@[simp] theorem State.complete_ks : (s.complete).ks = s.ks := rfl
@[simp] theorem State.complete_params : (s.complete).params = s.params := rfl
@[simp] theorem State.complete_inbox : (s.complete).inbox = s.inbox := rfl
@[simp] theorem State.complete_rsp : (s.complete).rsp = s.rsp := rfl
@[simp] theorem State.complete_resets : (s.complete).resets = s.resets := rfl
end complete

section raiseFault
variable (s : State) (c : FaultCode)
@[simp] theorem State.raiseFault_count : (s.raiseFault c).count = s.count := rfl
@[simp] theorem State.raiseFault_key0 : (s.raiseFault c).key0 = s.key0 := rfl
@[simp] theorem State.raiseFault_key1 : (s.raiseFault c).key1 = s.key1 := rfl
@[simp] theorem State.raiseFault_key2 : (s.raiseFault c).key2 = s.key2 := rfl
@[simp] theorem State.raiseFault_key3 : (s.raiseFault c).key3 = s.key3 := rfl
@[simp] theorem State.raiseFault_phase : (s.raiseFault c).phase = Phase.fault := rfl
@[simp] theorem State.raiseFault_done : (s.raiseFault c).done = false := rfl
@[simp] theorem State.raiseFault_fault : (s.raiseFault c).fault = true := rfl
@[simp] theorem State.raiseFault_err : (s.raiseFault c).err = c.code := rfl
@[simp] theorem State.raiseFault_wign : (s.raiseFault c).wign = s.wign := rfl
@[simp] theorem State.raiseFault_dir : (s.raiseFault c).dir = s.dir := rfl
@[simp] theorem State.raiseFault_rounds : (s.raiseFault c).rounds = s.rounds := rfl
@[simp] theorem State.raiseFault_draws : (s.raiseFault c).draws = s.draws := rfl
@[simp] theorem State.raiseFault_n : (s.raiseFault c).n = s.n := rfl
@[simp] theorem State.raiseFault_rnd : (s.raiseFault c).rnd = s.rnd := rfl
@[simp] theorem State.raiseFault_p : (s.raiseFault c).p = s.p := rfl
@[simp] theorem State.raiseFault_sum : (s.raiseFault c).sum = s.sum := rfl
@[simp] theorem State.raiseFault_ksptr : (s.raiseFault c).ksptr = s.ksptr := rfl
@[simp] theorem State.raiseFault_prngX : (s.raiseFault c).prngX = s.prngX := rfl
@[simp] theorem State.raiseFault_prngW : (s.raiseFault c).prngW = s.prngW := rfl
@[simp] theorem State.raiseFault_prngS : (s.raiseFault c).prngS = s.prngS := rfl
@[simp] theorem State.raiseFault_data : (s.raiseFault c).data = s.data := rfl
@[simp] theorem State.raiseFault_ks : (s.raiseFault c).ks = s.ks := rfl
@[simp] theorem State.raiseFault_params : (s.raiseFault c).params = s.params := rfl
@[simp] theorem State.raiseFault_inbox : (s.raiseFault c).inbox = s.inbox := rfl
@[simp] theorem State.raiseFault_rsp : (s.raiseFault c).rsp = s.rsp := rfl
@[simp] theorem State.raiseFault_resets : (s.raiseFault c).resets = s.resets := rfl
end raiseFault

section seedPrng
variable (s : State) (inc : DWord)
@[simp] theorem State.seedPrng_count : (s.seedPrng inc).count = s.count := rfl
@[simp] theorem State.seedPrng_key0 : (s.seedPrng inc).key0 = s.key0 := rfl
@[simp] theorem State.seedPrng_key1 : (s.seedPrng inc).key1 = s.key1 := rfl
@[simp] theorem State.seedPrng_key2 : (s.seedPrng inc).key2 = s.key2 := rfl
@[simp] theorem State.seedPrng_key3 : (s.seedPrng inc).key3 = s.key3 := rfl
@[simp] theorem State.seedPrng_phase : (s.seedPrng inc).phase = s.phase := rfl
@[simp] theorem State.seedPrng_done : (s.seedPrng inc).done = s.done := rfl
@[simp] theorem State.seedPrng_fault : (s.seedPrng inc).fault = s.fault := rfl
@[simp] theorem State.seedPrng_err : (s.seedPrng inc).err = s.err := rfl
@[simp] theorem State.seedPrng_wign : (s.seedPrng inc).wign = s.wign := rfl
@[simp] theorem State.seedPrng_dir : (s.seedPrng inc).dir = s.dir := rfl
@[simp] theorem State.seedPrng_rounds : (s.seedPrng inc).rounds = s.rounds := rfl
@[simp] theorem State.seedPrng_draws : (s.seedPrng inc).draws = s.draws := rfl
@[simp] theorem State.seedPrng_n : (s.seedPrng inc).n = s.n := rfl
@[simp] theorem State.seedPrng_rnd : (s.seedPrng inc).rnd = s.rnd := rfl
@[simp] theorem State.seedPrng_p : (s.seedPrng inc).p = s.p := rfl
@[simp] theorem State.seedPrng_sum : (s.seedPrng inc).sum = s.sum := rfl
@[simp] theorem State.seedPrng_ksptr : (s.seedPrng inc).ksptr = s.ksptr := rfl
@[simp] theorem State.seedPrng_prngX : (s.seedPrng inc).prngX = 0#64 := rfl
@[simp] theorem State.seedPrng_prngW : (s.seedPrng inc).prngW = 0#64 := rfl
@[simp] theorem State.seedPrng_prngS : (s.seedPrng inc).prngS = inc := rfl
@[simp] theorem State.seedPrng_data : (s.seedPrng inc).data = s.data := rfl
@[simp] theorem State.seedPrng_ks : (s.seedPrng inc).ks = s.ks := rfl
@[simp] theorem State.seedPrng_params : (s.seedPrng inc).params = s.params := rfl
@[simp] theorem State.seedPrng_inbox : (s.seedPrng inc).inbox = s.inbox := rfl
@[simp] theorem State.seedPrng_rsp : (s.seedPrng inc).rsp = s.rsp := rfl
@[simp] theorem State.seedPrng_resets : (s.seedPrng inc).resets = s.resets := rfl
end seedPrng

section draw
variable (s : State)
@[simp] theorem State.draw_count : (s.draw).count = s.count := rfl
@[simp] theorem State.draw_key0 : (s.draw).key0 = s.key0 := rfl
@[simp] theorem State.draw_key1 : (s.draw).key1 = s.key1 := rfl
@[simp] theorem State.draw_key2 : (s.draw).key2 = s.key2 := rfl
@[simp] theorem State.draw_key3 : (s.draw).key3 = s.key3 := rfl
@[simp] theorem State.draw_phase : (s.draw).phase = s.phase := rfl
@[simp] theorem State.draw_done : (s.draw).done = s.done := rfl
@[simp] theorem State.draw_fault : (s.draw).fault = s.fault := rfl
@[simp] theorem State.draw_err : (s.draw).err = s.err := rfl
@[simp] theorem State.draw_wign : (s.draw).wign = s.wign := rfl
@[simp] theorem State.draw_dir : (s.draw).dir = s.dir := rfl
@[simp] theorem State.draw_rounds : (s.draw).rounds = s.rounds := rfl
@[simp] theorem State.draw_draws : (s.draw).draws = s.draws := rfl
@[simp] theorem State.draw_n : (s.draw).n = s.n := rfl
@[simp] theorem State.draw_rnd : (s.draw).rnd = s.rnd := rfl
@[simp] theorem State.draw_p : (s.draw).p = s.p := rfl
@[simp] theorem State.draw_sum : (s.draw).sum = s.sum := rfl
@[simp] theorem State.draw_ksptr : (s.draw).ksptr = s.ksptr := rfl
@[simp] theorem State.draw_prngX : (s.draw).prngX = (prngAdvance s.prngX s.prngW s.prngS).1 := rfl
@[simp] theorem State.draw_prngW : (s.draw).prngW = (prngAdvance s.prngX s.prngW s.prngS).2 := rfl
@[simp] theorem State.draw_prngS : (s.draw).prngS = s.prngS := rfl
@[simp] theorem State.draw_data : (s.draw).data = s.data := rfl
@[simp] theorem State.draw_ks : (s.draw).ks = s.ks := rfl
@[simp] theorem State.draw_params : (s.draw).params = s.params := rfl
@[simp] theorem State.draw_inbox : (s.draw).inbox = s.inbox := rfl
@[simp] theorem State.draw_rsp : (s.draw).rsp = s.rsp := rfl
@[simp] theorem State.draw_resets : (s.draw).resets = s.resets := rfl
end draw

section beginRun
variable (s : State)
@[simp] theorem State.beginRun_count : (s.beginRun).count = s.count := rfl
@[simp] theorem State.beginRun_key0 : (s.beginRun).key0 = s.key0 := rfl
@[simp] theorem State.beginRun_key1 : (s.beginRun).key1 = s.key1 := rfl
@[simp] theorem State.beginRun_key2 : (s.beginRun).key2 = s.key2 := rfl
@[simp] theorem State.beginRun_key3 : (s.beginRun).key3 = s.key3 := rfl
@[simp] theorem State.beginRun_phase : (s.beginRun).phase = s.phase := rfl
@[simp] theorem State.beginRun_done : (s.beginRun).done = false := rfl
@[simp] theorem State.beginRun_fault : (s.beginRun).fault = s.fault := rfl
@[simp] theorem State.beginRun_err : (s.beginRun).err = s.err := rfl
@[simp] theorem State.beginRun_wign : (s.beginRun).wign = false := rfl
@[simp] theorem State.beginRun_dir : (s.beginRun).dir = negative s.count := rfl
@[simp] theorem State.beginRun_rounds : (s.beginRun).rounds = 0#32 := rfl
@[simp] theorem State.beginRun_draws : (s.beginRun).draws = 0#32 := rfl
@[simp] theorem State.beginRun_n : (s.beginRun).n = s.n := rfl
@[simp] theorem State.beginRun_rnd : (s.beginRun).rnd = s.rnd := rfl
@[simp] theorem State.beginRun_p : (s.beginRun).p = s.p := rfl
@[simp] theorem State.beginRun_sum : (s.beginRun).sum = s.sum := rfl
@[simp] theorem State.beginRun_ksptr : (s.beginRun).ksptr = s.ksptr := rfl
@[simp] theorem State.beginRun_prngX : (s.beginRun).prngX = s.prngX := rfl
@[simp] theorem State.beginRun_prngW : (s.beginRun).prngW = s.prngW := rfl
@[simp] theorem State.beginRun_prngS : (s.beginRun).prngS = s.prngS := rfl
@[simp] theorem State.beginRun_data : (s.beginRun).data = s.data := rfl
@[simp] theorem State.beginRun_ks : (s.beginRun).ks = s.ks := rfl
@[simp] theorem State.beginRun_params : (s.beginRun).params = s.params := rfl
@[simp] theorem State.beginRun_inbox : (s.beginRun).inbox = s.inbox := rfl
@[simp] theorem State.beginRun_rsp : (s.beginRun).rsp = s.rsp := rfl
@[simp] theorem State.beginRun_resets : (s.beginRun).resets = s.resets := rfl
end beginRun

section launch
variable (s : State) (m : Nat)
@[simp] theorem State.launch_count : (s.launch m).count = s.count := rfl
@[simp] theorem State.launch_key0 : (s.launch m).key0 = s.key0 := rfl
@[simp] theorem State.launch_key1 : (s.launch m).key1 = s.key1 := rfl
@[simp] theorem State.launch_key2 : (s.launch m).key2 = s.key2 := rfl
@[simp] theorem State.launch_key3 : (s.launch m).key3 = s.key3 := rfl
@[simp] theorem State.launch_phase : (s.launch m).phase = Phase.seed := rfl
@[simp] theorem State.launch_done : (s.launch m).done = s.done := rfl
@[simp] theorem State.launch_fault : (s.launch m).fault = s.fault := rfl
@[simp] theorem State.launch_err : (s.launch m).err = s.err := rfl
@[simp] theorem State.launch_wign : (s.launch m).wign = s.wign := rfl
@[simp] theorem State.launch_dir : (s.launch m).dir = s.dir := rfl
@[simp] theorem State.launch_rounds : (s.launch m).rounds = BitVec.ofNat 32 (roundsOf m) := rfl
@[simp] theorem State.launch_draws : (s.launch m).draws = s.draws := rfl
@[simp] theorem State.launch_n : (s.launch m).n = BitVec.ofNat 32 m := rfl
@[simp] theorem State.launch_rnd : (s.launch m).rnd = s.rnd := rfl
@[simp] theorem State.launch_p : (s.launch m).p = s.p := rfl
@[simp] theorem State.launch_sum : (s.launch m).sum = s.sum := rfl
@[simp] theorem State.launch_ksptr : (s.launch m).ksptr = s.ksptr := rfl
@[simp] theorem State.launch_prngX : (s.launch m).prngX = s.prngX := rfl
@[simp] theorem State.launch_prngW : (s.launch m).prngW = s.prngW := rfl
@[simp] theorem State.launch_prngS : (s.launch m).prngS = s.prngS := rfl
@[simp] theorem State.launch_data : (s.launch m).data = s.data := rfl
@[simp] theorem State.launch_ks : (s.launch m).ks = s.ks := rfl
@[simp] theorem State.launch_params : (s.launch m).params = s.params := rfl
@[simp] theorem State.launch_inbox : (s.launch m).inbox = s.inbox := rfl
@[simp] theorem State.launch_rsp : (s.launch m).rsp = s.rsp := rfl
@[simp] theorem State.launch_resets : (s.launch m).resets = s.resets := rfl
end launch

section fillWord
variable (s : State)
@[simp] theorem State.fillWord_count : (s.fillWord).count = s.count := rfl
@[simp] theorem State.fillWord_key0 : (s.fillWord).key0 = s.key0 := rfl
@[simp] theorem State.fillWord_key1 : (s.fillWord).key1 = s.key1 := rfl
@[simp] theorem State.fillWord_key2 : (s.fillWord).key2 = s.key2 := rfl
@[simp] theorem State.fillWord_key3 : (s.fillWord).key3 = s.key3 := rfl
@[simp] theorem State.fillWord_phase : (s.fillWord).phase = if s.ksptr + 1#32 = s.n * s.rounds then Phase.dec else s.phase := rfl
@[simp] theorem State.fillWord_done : (s.fillWord).done = s.done := rfl
@[simp] theorem State.fillWord_fault : (s.fillWord).fault = s.fault := rfl
@[simp] theorem State.fillWord_err : (s.fillWord).err = s.err := rfl
@[simp] theorem State.fillWord_wign : (s.fillWord).wign = s.wign := rfl
@[simp] theorem State.fillWord_dir : (s.fillWord).dir = s.dir := rfl
@[simp] theorem State.fillWord_rounds : (s.fillWord).rounds = s.rounds := rfl
@[simp] theorem State.fillWord_draws : (s.fillWord).draws = s.draws + 1#32 := rfl
@[simp] theorem State.fillWord_n : (s.fillWord).n = s.n := rfl
@[simp] theorem State.fillWord_rnd : (s.fillWord).rnd = s.rnd := rfl
@[simp] theorem State.fillWord_p : (s.fillWord).p = s.p := rfl
@[simp] theorem State.fillWord_sum : (s.fillWord).sum = s.sum := rfl
@[simp] theorem State.fillWord_ksptr : (s.fillWord).ksptr = s.ksptr + 1#32 := rfl
@[simp] theorem State.fillWord_prngX : (s.fillWord).prngX = s.draw.prngX := rfl
@[simp] theorem State.fillWord_prngW : (s.fillWord).prngW = s.draw.prngW := rfl
@[simp] theorem State.fillWord_prngS : (s.fillWord).prngS = s.prngS := rfl
@[simp] theorem State.fillWord_data : (s.fillWord).data = s.data := rfl
@[simp] theorem State.fillWord_ks : (s.fillWord).ks = Memory.storeWord s.ks (ksAddr s.ksptr.toNat) s.draw.drawn := rfl
@[simp] theorem State.fillWord_params : (s.fillWord).params = s.params := rfl
@[simp] theorem State.fillWord_inbox : (s.fillWord).inbox = s.inbox := rfl
@[simp] theorem State.fillWord_rsp : (s.fillWord).rsp = s.rsp := rfl
@[simp] theorem State.fillWord_resets : (s.fillWord).resets = s.resets := rfl
end fillWord

section encUpdate
variable (s : State)
@[simp] theorem State.encUpdate_count : (s.encUpdate).count = s.count := rfl
@[simp] theorem State.encUpdate_key0 : (s.encUpdate).key0 = s.key0 := rfl
@[simp] theorem State.encUpdate_key1 : (s.encUpdate).key1 = s.key1 := rfl
@[simp] theorem State.encUpdate_key2 : (s.encUpdate).key2 = s.key2 := rfl
@[simp] theorem State.encUpdate_key3 : (s.encUpdate).key3 = s.key3 := rfl
@[simp] theorem State.encUpdate_phase : (s.encUpdate).phase = s.phase := rfl
@[simp] theorem State.encUpdate_done : (s.encUpdate).done = s.done := rfl
@[simp] theorem State.encUpdate_fault : (s.encUpdate).fault = s.fault := rfl
@[simp] theorem State.encUpdate_err : (s.encUpdate).err = s.err := rfl
@[simp] theorem State.encUpdate_wign : (s.encUpdate).wign = s.wign := rfl
@[simp] theorem State.encUpdate_dir : (s.encUpdate).dir = s.dir := rfl
@[simp] theorem State.encUpdate_rounds : (s.encUpdate).rounds = s.rounds := rfl
@[simp] theorem State.encUpdate_draws : (s.encUpdate).draws = s.draws + 1#32 := rfl
@[simp] theorem State.encUpdate_n : (s.encUpdate).n = s.n := rfl
@[simp] theorem State.encUpdate_rnd : (s.encUpdate).rnd = s.rnd := rfl
@[simp] theorem State.encUpdate_p : (s.encUpdate).p = s.p := rfl
@[simp] theorem State.encUpdate_sum : (s.encUpdate).sum = s.encSum := rfl
@[simp] theorem State.encUpdate_ksptr : (s.encUpdate).ksptr = s.ksptr := rfl
@[simp] theorem State.encUpdate_prngX : (s.encUpdate).prngX = s.draw.prngX := rfl
@[simp] theorem State.encUpdate_prngW : (s.encUpdate).prngW = s.draw.prngW := rfl
@[simp] theorem State.encUpdate_prngS : (s.encUpdate).prngS = s.prngS := rfl
@[simp] theorem State.encUpdate_data : (s.encUpdate).data = Memory.storeWord s.data (dataAddr s.wordIndex) (s.dataWord s.wordIndex + s.whitened s.encSum s.draw.drawn) := rfl
@[simp] theorem State.encUpdate_ks : (s.encUpdate).ks = s.ks := rfl
@[simp] theorem State.encUpdate_params : (s.encUpdate).params = s.params := rfl
@[simp] theorem State.encUpdate_inbox : (s.encUpdate).inbox = s.inbox := rfl
@[simp] theorem State.encUpdate_rsp : (s.encUpdate).rsp = s.rsp := rfl
@[simp] theorem State.encUpdate_resets : (s.encUpdate).resets = s.resets := rfl
end encUpdate

section decUpdate
variable (s : State)
@[simp] theorem State.decUpdate_count : (s.decUpdate).count = s.count := rfl
@[simp] theorem State.decUpdate_key0 : (s.decUpdate).key0 = s.key0 := rfl
@[simp] theorem State.decUpdate_key1 : (s.decUpdate).key1 = s.key1 := rfl
@[simp] theorem State.decUpdate_key2 : (s.decUpdate).key2 = s.key2 := rfl
@[simp] theorem State.decUpdate_key3 : (s.decUpdate).key3 = s.key3 := rfl
@[simp] theorem State.decUpdate_phase : (s.decUpdate).phase = s.phase := rfl
@[simp] theorem State.decUpdate_done : (s.decUpdate).done = s.done := rfl
@[simp] theorem State.decUpdate_fault : (s.decUpdate).fault = s.fault := rfl
@[simp] theorem State.decUpdate_err : (s.decUpdate).err = s.err := rfl
@[simp] theorem State.decUpdate_wign : (s.decUpdate).wign = s.wign := rfl
@[simp] theorem State.decUpdate_dir : (s.decUpdate).dir = s.dir := rfl
@[simp] theorem State.decUpdate_rounds : (s.decUpdate).rounds = s.rounds := rfl
@[simp] theorem State.decUpdate_draws : (s.decUpdate).draws = s.draws := rfl
@[simp] theorem State.decUpdate_n : (s.decUpdate).n = s.n := rfl
@[simp] theorem State.decUpdate_rnd : (s.decUpdate).rnd = s.rnd := rfl
@[simp] theorem State.decUpdate_p : (s.decUpdate).p = s.p := rfl
@[simp] theorem State.decUpdate_sum : (s.decUpdate).sum = s.sum := rfl
@[simp] theorem State.decUpdate_ksptr : (s.decUpdate).ksptr = s.ksptr - 1#32 := rfl
@[simp] theorem State.decUpdate_prngX : (s.decUpdate).prngX = s.prngX := rfl
@[simp] theorem State.decUpdate_prngW : (s.decUpdate).prngW = s.prngW := rfl
@[simp] theorem State.decUpdate_prngS : (s.decUpdate).prngS = s.prngS := rfl
@[simp] theorem State.decUpdate_data : (s.decUpdate).data = Memory.storeWord s.data (dataAddr s.wordIndex) (s.dataWord s.wordIndex - s.whitened s.sum (s.ksWord s.replayIndex)) := rfl
@[simp] theorem State.decUpdate_ks : (s.decUpdate).ks = s.ks := rfl
@[simp] theorem State.decUpdate_params : (s.decUpdate).params = s.params := rfl
@[simp] theorem State.decUpdate_inbox : (s.decUpdate).inbox = s.inbox := rfl
@[simp] theorem State.decUpdate_rsp : (s.decUpdate).rsp = s.rsp := rfl
@[simp] theorem State.decUpdate_resets : (s.decUpdate).resets = s.resets := rfl
end decUpdate

section encAdvance
variable (s : State)
@[simp] theorem State.encAdvance_count : s.encAdvance.count = s.count := by
  unfold State.encAdvance; (repeat' split) <;> rfl
@[simp] theorem State.encAdvance_key0 : s.encAdvance.key0 = s.key0 := by
  unfold State.encAdvance; (repeat' split) <;> rfl
@[simp] theorem State.encAdvance_key1 : s.encAdvance.key1 = s.key1 := by
  unfold State.encAdvance; (repeat' split) <;> rfl
@[simp] theorem State.encAdvance_key2 : s.encAdvance.key2 = s.key2 := by
  unfold State.encAdvance; (repeat' split) <;> rfl
@[simp] theorem State.encAdvance_key3 : s.encAdvance.key3 = s.key3 := by
  unfold State.encAdvance; (repeat' split) <;> rfl
@[simp] theorem State.encAdvance_fault : s.encAdvance.fault = s.fault := by
  unfold State.encAdvance; (repeat' split) <;> rfl
@[simp] theorem State.encAdvance_err : s.encAdvance.err = s.err := by
  unfold State.encAdvance; (repeat' split) <;> rfl
@[simp] theorem State.encAdvance_wign : s.encAdvance.wign = s.wign := by
  unfold State.encAdvance; (repeat' split) <;> rfl
@[simp] theorem State.encAdvance_dir : s.encAdvance.dir = s.dir := by
  unfold State.encAdvance; (repeat' split) <;> rfl
@[simp] theorem State.encAdvance_rounds : s.encAdvance.rounds = s.rounds := by
  unfold State.encAdvance; (repeat' split) <;> rfl
@[simp] theorem State.encAdvance_draws : s.encAdvance.draws = s.draws := by
  unfold State.encAdvance; (repeat' split) <;> rfl
@[simp] theorem State.encAdvance_n : s.encAdvance.n = s.n := by
  unfold State.encAdvance; (repeat' split) <;> rfl
@[simp] theorem State.encAdvance_sum : s.encAdvance.sum = s.sum := by
  unfold State.encAdvance; (repeat' split) <;> rfl
@[simp] theorem State.encAdvance_ksptr : s.encAdvance.ksptr = s.ksptr := by
  unfold State.encAdvance; (repeat' split) <;> rfl
@[simp] theorem State.encAdvance_prngX : s.encAdvance.prngX = s.prngX := by
  unfold State.encAdvance; (repeat' split) <;> rfl
@[simp] theorem State.encAdvance_prngW : s.encAdvance.prngW = s.prngW := by
  unfold State.encAdvance; (repeat' split) <;> rfl
@[simp] theorem State.encAdvance_prngS : s.encAdvance.prngS = s.prngS := by
  unfold State.encAdvance; (repeat' split) <;> rfl
@[simp] theorem State.encAdvance_data : s.encAdvance.data = s.data := by
  unfold State.encAdvance; (repeat' split) <;> rfl
@[simp] theorem State.encAdvance_ks : s.encAdvance.ks = s.ks := by
  unfold State.encAdvance; (repeat' split) <;> rfl
@[simp] theorem State.encAdvance_params : s.encAdvance.params = s.params := by
  unfold State.encAdvance; (repeat' split) <;> rfl
@[simp] theorem State.encAdvance_inbox : s.encAdvance.inbox = s.inbox := by
  unfold State.encAdvance; (repeat' split) <;> rfl
@[simp] theorem State.encAdvance_rsp : s.encAdvance.rsp = s.rsp := by
  unfold State.encAdvance; (repeat' split) <;> rfl
@[simp] theorem State.encAdvance_resets : s.encAdvance.resets = s.resets := by
  unfold State.encAdvance; (repeat' split) <;> rfl
end encAdvance

section decAdvance
variable (s : State)
@[simp] theorem State.decAdvance_count : s.decAdvance.count = s.count := by
  unfold State.decAdvance; (repeat' split) <;> rfl
@[simp] theorem State.decAdvance_key0 : s.decAdvance.key0 = s.key0 := by
  unfold State.decAdvance; (repeat' split) <;> rfl
@[simp] theorem State.decAdvance_key1 : s.decAdvance.key1 = s.key1 := by
  unfold State.decAdvance; (repeat' split) <;> rfl
@[simp] theorem State.decAdvance_key2 : s.decAdvance.key2 = s.key2 := by
  unfold State.decAdvance; (repeat' split) <;> rfl
@[simp] theorem State.decAdvance_key3 : s.decAdvance.key3 = s.key3 := by
  unfold State.decAdvance; (repeat' split) <;> rfl
@[simp] theorem State.decAdvance_fault : s.decAdvance.fault = s.fault := by
  unfold State.decAdvance; (repeat' split) <;> rfl
@[simp] theorem State.decAdvance_err : s.decAdvance.err = s.err := by
  unfold State.decAdvance; (repeat' split) <;> rfl
@[simp] theorem State.decAdvance_wign : s.decAdvance.wign = s.wign := by
  unfold State.decAdvance; (repeat' split) <;> rfl
@[simp] theorem State.decAdvance_dir : s.decAdvance.dir = s.dir := by
  unfold State.decAdvance; (repeat' split) <;> rfl
@[simp] theorem State.decAdvance_rounds : s.decAdvance.rounds = s.rounds := by
  unfold State.decAdvance; (repeat' split) <;> rfl
@[simp] theorem State.decAdvance_draws : s.decAdvance.draws = s.draws := by
  unfold State.decAdvance; (repeat' split) <;> rfl
@[simp] theorem State.decAdvance_n : s.decAdvance.n = s.n := by
  unfold State.decAdvance; (repeat' split) <;> rfl
@[simp] theorem State.decAdvance_ksptr : s.decAdvance.ksptr = s.ksptr := by
  unfold State.decAdvance; (repeat' split) <;> rfl
@[simp] theorem State.decAdvance_prngX : s.decAdvance.prngX = s.prngX := by
  unfold State.decAdvance; (repeat' split) <;> rfl
@[simp] theorem State.decAdvance_prngW : s.decAdvance.prngW = s.prngW := by
  unfold State.decAdvance; (repeat' split) <;> rfl
@[simp] theorem State.decAdvance_prngS : s.decAdvance.prngS = s.prngS := by
  unfold State.decAdvance; (repeat' split) <;> rfl
@[simp] theorem State.decAdvance_data : s.decAdvance.data = s.data := by
  unfold State.decAdvance; (repeat' split) <;> rfl
@[simp] theorem State.decAdvance_ks : s.decAdvance.ks = s.ks := by
  unfold State.decAdvance; (repeat' split) <;> rfl
@[simp] theorem State.decAdvance_params : s.decAdvance.params = s.params := by
  unfold State.decAdvance; (repeat' split) <;> rfl
@[simp] theorem State.decAdvance_inbox : s.decAdvance.inbox = s.inbox := by
  unfold State.decAdvance; (repeat' split) <;> rfl
@[simp] theorem State.decAdvance_rsp : s.decAdvance.rsp = s.rsp := by
  unfold State.decAdvance; (repeat' split) <;> rfl
@[simp] theorem State.decAdvance_resets : s.decAdvance.resets = s.resets := by
  unfold State.decAdvance; (repeat' split) <;> rfl
end decAdvance

section startSweep
variable (s : State)
@[simp] theorem State.startSweep_count : s.startSweep.count = s.count := by
  unfold State.startSweep; (repeat' split) <;> rfl
@[simp] theorem State.startSweep_key0 : s.startSweep.key0 = s.key0 := by
  unfold State.startSweep; (repeat' split) <;> rfl
@[simp] theorem State.startSweep_key1 : s.startSweep.key1 = s.key1 := by
  unfold State.startSweep; (repeat' split) <;> rfl
@[simp] theorem State.startSweep_key2 : s.startSweep.key2 = s.key2 := by
  unfold State.startSweep; (repeat' split) <;> rfl
@[simp] theorem State.startSweep_key3 : s.startSweep.key3 = s.key3 := by
  unfold State.startSweep; (repeat' split) <;> rfl
@[simp] theorem State.startSweep_done : s.startSweep.done = s.done := by
  unfold State.startSweep; (repeat' split) <;> rfl
@[simp] theorem State.startSweep_fault : s.startSweep.fault = s.fault := by
  unfold State.startSweep; (repeat' split) <;> rfl
@[simp] theorem State.startSweep_err : s.startSweep.err = s.err := by
  unfold State.startSweep; (repeat' split) <;> rfl
@[simp] theorem State.startSweep_wign : s.startSweep.wign = s.wign := by
  unfold State.startSweep; (repeat' split) <;> rfl
@[simp] theorem State.startSweep_dir : s.startSweep.dir = s.dir := by
  unfold State.startSweep; (repeat' split) <;> rfl
@[simp] theorem State.startSweep_rounds : s.startSweep.rounds = s.rounds := by
  unfold State.startSweep; (repeat' split) <;> rfl
@[simp] theorem State.startSweep_draws : s.startSweep.draws = s.draws := by
  unfold State.startSweep; (repeat' split) <;> rfl
@[simp] theorem State.startSweep_n : s.startSweep.n = s.n := by
  unfold State.startSweep; (repeat' split) <;> rfl
@[simp] theorem State.startSweep_rnd : s.startSweep.rnd = s.rnd := by
  unfold State.startSweep; (repeat' split) <;> rfl
@[simp] theorem State.startSweep_ksptr : s.startSweep.ksptr = s.ksptr := by
  unfold State.startSweep; (repeat' split) <;> rfl
@[simp] theorem State.startSweep_prngX : s.startSweep.prngX = s.prngX := by
  unfold State.startSweep; (repeat' split) <;> rfl
@[simp] theorem State.startSweep_prngW : s.startSweep.prngW = s.prngW := by
  unfold State.startSweep; (repeat' split) <;> rfl
@[simp] theorem State.startSweep_prngS : s.startSweep.prngS = s.prngS := by
  unfold State.startSweep; (repeat' split) <;> rfl
@[simp] theorem State.startSweep_data : s.startSweep.data = s.data := by
  unfold State.startSweep; (repeat' split) <;> rfl
@[simp] theorem State.startSweep_ks : s.startSweep.ks = s.ks := by
  unfold State.startSweep; (repeat' split) <;> rfl
@[simp] theorem State.startSweep_params : s.startSweep.params = s.params := by
  unfold State.startSweep; (repeat' split) <;> rfl
@[simp] theorem State.startSweep_inbox : s.startSweep.inbox = s.inbox := by
  unfold State.startSweep; (repeat' split) <;> rfl
@[simp] theorem State.startSweep_rsp : s.startSweep.rsp = s.rsp := by
  unfold State.startSweep; (repeat' split) <;> rfl
@[simp] theorem State.startSweep_resets : s.startSweep.resets = s.resets := by
  unfold State.startSweep; (repeat' split) <;> rfl
end startSweep

/-! ## Readers under updates that do not touch what they read -/

section readers
variable (s : State)
@[simp] theorem State.setData_ksByte (i : Nat) (v : Word) (a : Nat) : (s.setData i v).ksByte a = s.ksByte a := rfl
@[simp] theorem State.setData_ksWord (i : Nat) (v : Word) (j : Nat) : (s.setData i v).ksWord j = s.ksWord j := rfl
@[simp] theorem State.setData_keyWord (i : Nat) (v : Word) (k : BitVec 2) : (s.setData i v).keyWord k = s.keyWord k := rfl
@[simp] theorem State.setData_busy (i : Nat) (v : Word) : (s.setData i v).busy = s.busy := rfl
@[simp] theorem State.setData_nextIndex (i : Nat) (v : Word) : (s.setData i v).nextIndex = s.nextIndex := rfl
@[simp] theorem State.setData_prevIndex (i : Nat) (v : Word) : (s.setData i v).prevIndex = s.prevIndex := rfl
@[simp] theorem State.setData_wordIndex (i : Nat) (v : Word) : (s.setData i v).wordIndex = s.wordIndex := rfl
@[simp] theorem State.setData_increment (i : Nat) (v : Word) : (s.setData i v).increment = s.increment := rfl
@[simp] theorem State.setKs_dataByte (j : Nat) (v : Word) (a : Nat) : (s.setKs j v).dataByte a = s.dataByte a := rfl
@[simp] theorem State.setKs_dataWord (j : Nat) (v : Word) (i : Nat) : (s.setKs j v).dataWord i = s.dataWord i := rfl
@[simp] theorem State.setKs_keyWord (j : Nat) (v : Word) (k : BitVec 2) : (s.setKs j v).keyWord k = s.keyWord k := rfl
@[simp] theorem State.setKs_busy (j : Nat) (v : Word) : (s.setKs j v).busy = s.busy := rfl
@[simp] theorem State.setKs_nextIndex (j : Nat) (v : Word) : (s.setKs j v).nextIndex = s.nextIndex := rfl
@[simp] theorem State.setKs_prevIndex (j : Nat) (v : Word) : (s.setKs j v).prevIndex = s.prevIndex := rfl
@[simp] theorem State.setKs_wordIndex (j : Nat) (v : Word) : (s.setKs j v).wordIndex = s.wordIndex := rfl
@[simp] theorem State.setKs_increment (j : Nat) (v : Word) : (s.setKs j v).increment = s.increment := rfl
@[simp] theorem State.answerRead_dataByte (v : Word) (a : Nat) : (s.answerRead v).dataByte a = s.dataByte a := rfl
@[simp] theorem State.answerRead_dataWord (v : Word) (i : Nat) : (s.answerRead v).dataWord i = s.dataWord i := rfl
@[simp] theorem State.answerRead_ksByte (v : Word) (a : Nat) : (s.answerRead v).ksByte a = s.ksByte a := rfl
@[simp] theorem State.answerRead_ksWord (v : Word) (j : Nat) : (s.answerRead v).ksWord j = s.ksWord j := rfl
@[simp] theorem State.answerRead_keyWord (v : Word) (k : BitVec 2) : (s.answerRead v).keyWord k = s.keyWord k := rfl
@[simp] theorem State.answerRead_busy (v : Word) : (s.answerRead v).busy = s.busy := rfl
@[simp] theorem State.answerRead_nextIndex (v : Word) : (s.answerRead v).nextIndex = s.nextIndex := rfl
@[simp] theorem State.answerRead_prevIndex (v : Word) : (s.answerRead v).prevIndex = s.prevIndex := rfl
@[simp] theorem State.answerRead_wordIndex (v : Word) : (s.answerRead v).wordIndex = s.wordIndex := rfl
@[simp] theorem State.answerRead_increment (v : Word) : (s.answerRead v).increment = s.increment := rfl
@[simp] theorem State.answerWrite_dataByte (a : Nat) : (s.answerWrite).dataByte a = s.dataByte a := rfl
@[simp] theorem State.answerWrite_dataWord (i : Nat) : (s.answerWrite).dataWord i = s.dataWord i := rfl
@[simp] theorem State.answerWrite_ksByte (a : Nat) : (s.answerWrite).ksByte a = s.ksByte a := rfl
@[simp] theorem State.answerWrite_ksWord (j : Nat) : (s.answerWrite).ksWord j = s.ksWord j := rfl
@[simp] theorem State.answerWrite_keyWord (k : BitVec 2) : (s.answerWrite).keyWord k = s.keyWord k := rfl
@[simp] theorem State.answerWrite_busy : (s.answerWrite).busy = s.busy := rfl
@[simp] theorem State.answerWrite_nextIndex : (s.answerWrite).nextIndex = s.nextIndex := rfl
@[simp] theorem State.answerWrite_prevIndex : (s.answerWrite).prevIndex = s.prevIndex := rfl
@[simp] theorem State.answerWrite_wordIndex : (s.answerWrite).wordIndex = s.wordIndex := rfl
@[simp] theorem State.answerWrite_increment : (s.answerWrite).increment = s.increment := rfl
@[simp] theorem State.answerBusError_dataByte (a : Nat) : (s.answerBusError).dataByte a = s.dataByte a := rfl
@[simp] theorem State.answerBusError_dataWord (i : Nat) : (s.answerBusError).dataWord i = s.dataWord i := rfl
@[simp] theorem State.answerBusError_ksByte (a : Nat) : (s.answerBusError).ksByte a = s.ksByte a := rfl
@[simp] theorem State.answerBusError_ksWord (j : Nat) : (s.answerBusError).ksWord j = s.ksWord j := rfl
@[simp] theorem State.answerBusError_keyWord (k : BitVec 2) : (s.answerBusError).keyWord k = s.keyWord k := rfl
@[simp] theorem State.answerBusError_busy : (s.answerBusError).busy = s.busy := rfl
@[simp] theorem State.answerBusError_nextIndex : (s.answerBusError).nextIndex = s.nextIndex := rfl
@[simp] theorem State.answerBusError_prevIndex : (s.answerBusError).prevIndex = s.prevIndex := rfl
@[simp] theorem State.answerBusError_wordIndex : (s.answerBusError).wordIndex = s.wordIndex := rfl
@[simp] theorem State.answerBusError_increment : (s.answerBusError).increment = s.increment := rfl
@[simp] theorem State.markIgnored_dataByte (a : Nat) : (s.markIgnored).dataByte a = s.dataByte a := rfl
@[simp] theorem State.markIgnored_dataWord (i : Nat) : (s.markIgnored).dataWord i = s.dataWord i := rfl
@[simp] theorem State.markIgnored_ksByte (a : Nat) : (s.markIgnored).ksByte a = s.ksByte a := rfl
@[simp] theorem State.markIgnored_ksWord (j : Nat) : (s.markIgnored).ksWord j = s.ksWord j := rfl
@[simp] theorem State.markIgnored_keyWord (k : BitVec 2) : (s.markIgnored).keyWord k = s.keyWord k := rfl
@[simp] theorem State.markIgnored_busy : (s.markIgnored).busy = s.busy := rfl
@[simp] theorem State.markIgnored_nextIndex : (s.markIgnored).nextIndex = s.nextIndex := rfl
@[simp] theorem State.markIgnored_prevIndex : (s.markIgnored).prevIndex = s.prevIndex := rfl
@[simp] theorem State.markIgnored_wordIndex : (s.markIgnored).wordIndex = s.wordIndex := rfl
@[simp] theorem State.markIgnored_increment : (s.markIgnored).increment = s.increment := rfl
@[simp] theorem State.complete_dataByte (a : Nat) : (s.complete).dataByte a = s.dataByte a := rfl
@[simp] theorem State.complete_dataWord (i : Nat) : (s.complete).dataWord i = s.dataWord i := rfl
@[simp] theorem State.complete_ksByte (a : Nat) : (s.complete).ksByte a = s.ksByte a := rfl
@[simp] theorem State.complete_ksWord (j : Nat) : (s.complete).ksWord j = s.ksWord j := rfl
@[simp] theorem State.complete_keyWord (k : BitVec 2) : (s.complete).keyWord k = s.keyWord k := rfl
@[simp] theorem State.complete_nextIndex : (s.complete).nextIndex = s.nextIndex := rfl
@[simp] theorem State.complete_prevIndex : (s.complete).prevIndex = s.prevIndex := rfl
@[simp] theorem State.complete_wordIndex : (s.complete).wordIndex = s.wordIndex := rfl
@[simp] theorem State.complete_increment : (s.complete).increment = s.increment := rfl
@[simp] theorem State.raiseFault_dataByte (c : FaultCode) (a : Nat) : (s.raiseFault c).dataByte a = s.dataByte a := rfl
@[simp] theorem State.raiseFault_dataWord (c : FaultCode) (i : Nat) : (s.raiseFault c).dataWord i = s.dataWord i := rfl
@[simp] theorem State.raiseFault_ksByte (c : FaultCode) (a : Nat) : (s.raiseFault c).ksByte a = s.ksByte a := rfl
@[simp] theorem State.raiseFault_ksWord (c : FaultCode) (j : Nat) : (s.raiseFault c).ksWord j = s.ksWord j := rfl
@[simp] theorem State.raiseFault_keyWord (c : FaultCode) (k : BitVec 2) : (s.raiseFault c).keyWord k = s.keyWord k := rfl
@[simp] theorem State.raiseFault_nextIndex (c : FaultCode) : (s.raiseFault c).nextIndex = s.nextIndex := rfl
@[simp] theorem State.raiseFault_prevIndex (c : FaultCode) : (s.raiseFault c).prevIndex = s.prevIndex := rfl
@[simp] theorem State.raiseFault_wordIndex (c : FaultCode) : (s.raiseFault c).wordIndex = s.wordIndex := rfl
@[simp] theorem State.raiseFault_increment (c : FaultCode) : (s.raiseFault c).increment = s.increment := rfl
@[simp] theorem State.seedPrng_dataByte (inc : DWord) (a : Nat) : (s.seedPrng inc).dataByte a = s.dataByte a := rfl
@[simp] theorem State.seedPrng_dataWord (inc : DWord) (i : Nat) : (s.seedPrng inc).dataWord i = s.dataWord i := rfl
@[simp] theorem State.seedPrng_ksByte (inc : DWord) (a : Nat) : (s.seedPrng inc).ksByte a = s.ksByte a := rfl
@[simp] theorem State.seedPrng_ksWord (inc : DWord) (j : Nat) : (s.seedPrng inc).ksWord j = s.ksWord j := rfl
@[simp] theorem State.seedPrng_keyWord (inc : DWord) (k : BitVec 2) : (s.seedPrng inc).keyWord k = s.keyWord k := rfl
@[simp] theorem State.seedPrng_busy (inc : DWord) : (s.seedPrng inc).busy = s.busy := rfl
@[simp] theorem State.seedPrng_nextIndex (inc : DWord) : (s.seedPrng inc).nextIndex = s.nextIndex := rfl
@[simp] theorem State.seedPrng_prevIndex (inc : DWord) : (s.seedPrng inc).prevIndex = s.prevIndex := rfl
@[simp] theorem State.seedPrng_wordIndex (inc : DWord) : (s.seedPrng inc).wordIndex = s.wordIndex := rfl
@[simp] theorem State.seedPrng_increment (inc : DWord) : (s.seedPrng inc).increment = s.increment := rfl
@[simp] theorem State.draw_dataByte (a : Nat) : (s.draw).dataByte a = s.dataByte a := rfl
@[simp] theorem State.draw_dataWord (i : Nat) : (s.draw).dataWord i = s.dataWord i := rfl
@[simp] theorem State.draw_ksByte (a : Nat) : (s.draw).ksByte a = s.ksByte a := rfl
@[simp] theorem State.draw_ksWord (j : Nat) : (s.draw).ksWord j = s.ksWord j := rfl
@[simp] theorem State.draw_keyWord (k : BitVec 2) : (s.draw).keyWord k = s.keyWord k := rfl
@[simp] theorem State.draw_busy : (s.draw).busy = s.busy := rfl
@[simp] theorem State.draw_nextIndex : (s.draw).nextIndex = s.nextIndex := rfl
@[simp] theorem State.draw_prevIndex : (s.draw).prevIndex = s.prevIndex := rfl
@[simp] theorem State.draw_wordIndex : (s.draw).wordIndex = s.wordIndex := rfl
@[simp] theorem State.draw_increment : (s.draw).increment = s.increment := rfl
@[simp] theorem State.beginRun_dataByte (a : Nat) : (s.beginRun).dataByte a = s.dataByte a := rfl
@[simp] theorem State.beginRun_dataWord (i : Nat) : (s.beginRun).dataWord i = s.dataWord i := rfl
@[simp] theorem State.beginRun_ksByte (a : Nat) : (s.beginRun).ksByte a = s.ksByte a := rfl
@[simp] theorem State.beginRun_ksWord (j : Nat) : (s.beginRun).ksWord j = s.ksWord j := rfl
@[simp] theorem State.beginRun_keyWord (k : BitVec 2) : (s.beginRun).keyWord k = s.keyWord k := rfl
@[simp] theorem State.beginRun_busy : (s.beginRun).busy = s.busy := rfl
@[simp] theorem State.beginRun_nextIndex : (s.beginRun).nextIndex = s.nextIndex := rfl
@[simp] theorem State.beginRun_prevIndex : (s.beginRun).prevIndex = s.prevIndex := rfl
@[simp] theorem State.beginRun_wordIndex : (s.beginRun).wordIndex = s.wordIndex := rfl
@[simp] theorem State.beginRun_increment : (s.beginRun).increment = s.increment := rfl
@[simp] theorem State.launch_dataByte (m : Nat) (a : Nat) : (s.launch m).dataByte a = s.dataByte a := rfl
@[simp] theorem State.launch_dataWord (m : Nat) (i : Nat) : (s.launch m).dataWord i = s.dataWord i := rfl
@[simp] theorem State.launch_ksByte (m : Nat) (a : Nat) : (s.launch m).ksByte a = s.ksByte a := rfl
@[simp] theorem State.launch_ksWord (m : Nat) (j : Nat) : (s.launch m).ksWord j = s.ksWord j := rfl
@[simp] theorem State.launch_keyWord (m : Nat) (k : BitVec 2) : (s.launch m).keyWord k = s.keyWord k := rfl
@[simp] theorem State.launch_wordIndex (m : Nat) : (s.launch m).wordIndex = s.wordIndex := rfl
@[simp] theorem State.launch_increment (m : Nat) : (s.launch m).increment = s.increment := rfl
@[simp] theorem State.fillWord_dataByte (a : Nat) : (s.fillWord).dataByte a = s.dataByte a := rfl
@[simp] theorem State.fillWord_dataWord (i : Nat) : (s.fillWord).dataWord i = s.dataWord i := rfl
@[simp] theorem State.fillWord_keyWord (k : BitVec 2) : (s.fillWord).keyWord k = s.keyWord k := rfl
@[simp] theorem State.fillWord_nextIndex : (s.fillWord).nextIndex = s.nextIndex := rfl
@[simp] theorem State.fillWord_prevIndex : (s.fillWord).prevIndex = s.prevIndex := rfl
@[simp] theorem State.fillWord_wordIndex : (s.fillWord).wordIndex = s.wordIndex := rfl
@[simp] theorem State.fillWord_increment : (s.fillWord).increment = s.increment := rfl
@[simp] theorem State.encUpdate_ksByte (a : Nat) : (s.encUpdate).ksByte a = s.ksByte a := rfl
@[simp] theorem State.encUpdate_ksWord (j : Nat) : (s.encUpdate).ksWord j = s.ksWord j := rfl
@[simp] theorem State.encUpdate_keyWord (k : BitVec 2) : (s.encUpdate).keyWord k = s.keyWord k := rfl
@[simp] theorem State.encUpdate_busy : (s.encUpdate).busy = s.busy := rfl
@[simp] theorem State.encUpdate_nextIndex : (s.encUpdate).nextIndex = s.nextIndex := rfl
@[simp] theorem State.encUpdate_prevIndex : (s.encUpdate).prevIndex = s.prevIndex := rfl
@[simp] theorem State.encUpdate_wordIndex : (s.encUpdate).wordIndex = s.wordIndex := rfl
@[simp] theorem State.encUpdate_increment : (s.encUpdate).increment = s.increment := rfl
@[simp] theorem State.decUpdate_ksByte (a : Nat) : (s.decUpdate).ksByte a = s.ksByte a := rfl
@[simp] theorem State.decUpdate_ksWord (j : Nat) : (s.decUpdate).ksWord j = s.ksWord j := rfl
@[simp] theorem State.decUpdate_keyWord (k : BitVec 2) : (s.decUpdate).keyWord k = s.keyWord k := rfl
@[simp] theorem State.decUpdate_busy : (s.decUpdate).busy = s.busy := rfl
@[simp] theorem State.decUpdate_nextIndex : (s.decUpdate).nextIndex = s.nextIndex := rfl
@[simp] theorem State.decUpdate_prevIndex : (s.decUpdate).prevIndex = s.prevIndex := rfl
@[simp] theorem State.decUpdate_wordIndex : (s.decUpdate).wordIndex = s.wordIndex := rfl
@[simp] theorem State.decUpdate_increment : (s.decUpdate).increment = s.increment := rfl
@[simp] theorem State.encAdvance_dataByte (a : Nat) : s.encAdvance.dataByte a = s.dataByte a := by
  simp [State.dataByte]
@[simp] theorem State.encAdvance_dataWord (i : Nat) : s.encAdvance.dataWord i = s.dataWord i := by
  simp [State.dataWord, State.dataByte]
@[simp] theorem State.encAdvance_ksByte (a : Nat) : s.encAdvance.ksByte a = s.ksByte a := by
  simp [State.ksByte]
@[simp] theorem State.encAdvance_ksWord (j : Nat) : s.encAdvance.ksWord j = s.ksWord j := by
  simp [State.ksWord, State.ksByte]
@[simp] theorem State.encAdvance_keyWord (k : BitVec 2) : s.encAdvance.keyWord k = s.keyWord k := by
  simp [State.keyWord]
@[simp] theorem State.encAdvance_increment : s.encAdvance.increment = s.increment := by
  simp [State.increment]
@[simp] theorem State.decAdvance_dataByte (a : Nat) : s.decAdvance.dataByte a = s.dataByte a := by
  simp [State.dataByte]
@[simp] theorem State.decAdvance_dataWord (i : Nat) : s.decAdvance.dataWord i = s.dataWord i := by
  simp [State.dataWord, State.dataByte]
@[simp] theorem State.decAdvance_ksByte (a : Nat) : s.decAdvance.ksByte a = s.ksByte a := by
  simp [State.ksByte]
@[simp] theorem State.decAdvance_ksWord (j : Nat) : s.decAdvance.ksWord j = s.ksWord j := by
  simp [State.ksWord, State.ksByte]
@[simp] theorem State.decAdvance_keyWord (k : BitVec 2) : s.decAdvance.keyWord k = s.keyWord k := by
  simp [State.keyWord]
@[simp] theorem State.decAdvance_increment : s.decAdvance.increment = s.increment := by
  simp [State.increment]
@[simp] theorem State.startSweep_dataByte (a : Nat) : s.startSweep.dataByte a = s.dataByte a := by
  simp [State.dataByte]
@[simp] theorem State.startSweep_dataWord (i : Nat) : s.startSweep.dataWord i = s.dataWord i := by
  simp [State.dataWord, State.dataByte]
@[simp] theorem State.startSweep_ksByte (a : Nat) : s.startSweep.ksByte a = s.ksByte a := by
  simp [State.ksByte]
@[simp] theorem State.startSweep_ksWord (j : Nat) : s.startSweep.ksWord j = s.ksWord j := by
  simp [State.ksWord, State.ksByte]
@[simp] theorem State.startSweep_keyWord (k : BitVec 2) : s.startSweep.keyWord k = s.keyWord k := by
  simp [State.keyWord]
@[simp] theorem State.startSweep_increment : s.startSweep.increment = s.increment := by
  simp [State.increment]
end readers

end Sys2Proof.Machine
end

