-- ==== Sys2Proof/Laws/Memory.lean ====
section
/-! SUPPORT. Memory: read after write, the canonical form is kept, equal contents are equal data. -/

namespace Sys2Proof.Machine

/-! ## Bytes -/

theorem Memory.byteAt_store (m : Memory) (a b : Nat) (v : Byte) :
    (Memory.store m a v).byteAt b = if b = a then some v else m.byteAt b := by
  induction m with
  | nil => simp [Memory.store, Memory.byteAt, eq_comm]
  | cons c m ih =>
    simp only [Memory.store]
    split
    · simp [Memory.byteAt, eq_comm]
    · split <;> simp only [Memory.byteAt, ih] <;> grind

/-- A store adds its own cell and no other. -/
theorem Memory.mem_store {m : Memory} {a : Nat} {v : Byte} {c : Host.Cell} (h : c ∈ Memory.store m a v) :
    c = (a, v) ∨ c ∈ m := by
  induction m with
  | nil => simpa [Memory.store] using h
  | cons d m ih =>
    simp only [Memory.store] at h
    split at h
    · simpa using h
    · split at h <;> simp only [List.mem_cons] at h ⊢ <;> grind

theorem Memory.store_wf {m : Memory} (h : Memory.wf m) (a : Nat) (v : Byte) : Memory.wf (Memory.store m a v) := by
  induction m with
  | nil => simp [Memory.store, Memory.wf]
  | cons d m ih =>
    obtain ⟨hd, hm⟩ := List.pairwise_cons.mp h
    simp only [Memory.store]
    split
    · refine List.pairwise_cons.mpr ⟨fun c hc => ?_, h⟩
      rcases List.mem_cons.mp hc with rfl | hc
      · assumption
      · exact lt_trans ‹a < d.1› (hd c hc)
    · split
      · subst_vars; exact List.pairwise_cons.mpr ⟨hd, hm⟩
      · refine List.pairwise_cons.mpr ⟨fun c hc => ?_, ih hm⟩
        rcases Memory.mem_store hc with rfl | hc
        · simp only; omega
        · exact hd c hc

/-- In a canonical memory no address below the first is listed. -/
theorem Memory.byteAt_of_lt {m : Memory} {a : Nat} (h : ∀ c ∈ m, a < c.1) : m.byteAt a = none := by
  induction m with
  | nil => rfl
  | cons d m ih =>
    have := h d (by simp)
    simp only [Memory.byteAt, if_neg (Nat.ne_of_gt this)]
    exact ih fun c hc => h c (List.mem_cons_of_mem _ hc)

/-- Two canonical memories that hold the same bytes are equal data. -/
theorem Memory.ext_of_wf {m m' : Memory} (h : Memory.wf m) (h' : Memory.wf m')
    (e : ∀ a, m.byteAt a = m'.byteAt a) : m = m' := by
  induction m generalizing m' with
  | nil =>
    cases m' with
    | nil => rfl
    | cons d m' => simpa [Memory.byteAt] using e d.1
  | cons c m ih =>
    obtain ⟨hc, hm⟩ := List.pairwise_cons.mp h
    cases m' with
    | nil => simpa [Memory.byteAt] using e c.1
    | cons d m' =>
      obtain ⟨hd, hm'⟩ := List.pairwise_cons.mp h'
      have first : c.1 = d.1 := by
        rcases Nat.lt_trichotomy c.1 d.1 with lt | eq | gt
        · have := e c.1
          rw [Memory.byteAt_of_lt (m := d :: m') (by rintro x (_ | ⟨_, hx⟩); exacts [lt, lt_trans lt (hd _ hx)])] at this
          simp [Memory.byteAt] at this
        · exact eq
        · have := e d.1
          rw [Memory.byteAt_of_lt (m := c :: m) (by rintro x (_ | ⟨_, hx⟩); exacts [gt, lt_trans gt (hc _ hx)])] at this
          simp [Memory.byteAt] at this
      have value : c.2 = d.2 := by simpa [Memory.byteAt, first] using e c.1
      have rest : m = m' := ih hm hm' fun a => by
        by_cases ha : c.1 = a
        · subst ha
          rw [Memory.byteAt_of_lt hc, first, Memory.byteAt_of_lt hd]
        · simpa [Memory.byteAt, ha, first ▸ ha] using e a
      rw [rest, Prod.ext first value]

/-! ## Words -/

theorem wordOfBytes_extract (v : Word) :
    wordOfBytes (v.extractLsb' 0 8) (v.extractLsb' 8 8) (v.extractLsb' 16 8) (v.extractLsb' 24 8) = v := by
  ext i hi
  simp [wordOfBytes]
  grind

theorem Memory.byteAt_storeWord (m : Memory) (a b : Nat) (v : Word) :
    (Memory.storeWord m a v).byteAt b =
      if b = a then some (v.extractLsb' 0 8) else if b = a + 1 then some (v.extractLsb' 8 8)
      else if b = a + 2 then some (v.extractLsb' 16 8) else if b = a + 3 then some (v.extractLsb' 24 8)
      else m.byteAt b := by
  simp only [Memory.storeWord, Memory.byteAt_store]
  grind

theorem Memory.byteAt_storeWord_of_outside {m : Memory} {a b : Nat} {v : Word} (h : b < a ∨ a + 4 ≤ b) :
    (Memory.storeWord m a v).byteAt b = m.byteAt b := by
  rw [Memory.byteAt_storeWord]
  grind

theorem Memory.storeWord_wf {m : Memory} (h : Memory.wf m) (a : Nat) (v : Word) : Memory.wf (Memory.storeWord m a v) :=
  Memory.store_wf (Memory.store_wf (Memory.store_wf (Memory.store_wf h _ _) _ _) _ _) _ _

theorem Memory.mem_storeWord {m : Memory} {a : Nat} {v : Word} {c : Host.Cell} (h : c ∈ Memory.storeWord m a v) :
    (a ≤ c.1 ∧ c.1 < a + 4) ∨ c ∈ m := by
  rcases Memory.mem_store h with rfl | h
  · left; simp
  rcases Memory.mem_store h with rfl | h
  · left; simp
  rcases Memory.mem_store h with rfl | h
  · left; simp
  rcases Memory.mem_store h with rfl | h
  · left; simp
  exact .inr h

/-! ## The DATA window -/

theorem State.dataByte_setData (s : State) {i a : Nat} {v : Word} (h : a < dataAddr i ∨ dataAddr i + 4 ≤ a) :
    (s.setData i v).dataByte a = s.dataByte a := by
  simp [State.dataByte, Memory.byteAt_storeWord_of_outside h]

theorem State.dataWord_setData_same (s : State) (i : Nat) (v : Word) : (s.setData i v).dataWord i = v := by
  simp [State.dataWord, State.dataByte, Memory.byteAt_storeWord, wordOfBytes_extract]

theorem State.dataWord_setData_other (s : State) {i j : Nat} (v : Word) (h : j ≠ i) :
    (s.setData i v).dataWord j = s.dataWord j := by
  have far : ∀ k < 4, dataAddr j + k < dataAddr i ∨ dataAddr i + 4 ≤ dataAddr j + k := by
    intro k hk; simp only [dataAddr]; omega
  have h0 := s.dataByte_setData (v := v) (far 0 (by omega))
  have h1 := s.dataByte_setData (v := v) (far 1 (by omega))
  have h2 := s.dataByte_setData (v := v) (far 2 (by omega))
  have h3 := s.dataByte_setData (v := v) (far 3 (by omega))
  simp only [Nat.add_zero] at h0
  simp only [State.dataWord, h0, h1, h2, h3]

/-- Read after write in the DATA window. -/
theorem State.dataWord_setData (s : State) (i j : Nat) (v : Word) :
    (s.setData i v).dataWord j = if j = i then v else s.dataWord j := by
  split
  · subst_vars; exact s.dataWord_setData_same _ v
  · exact s.dataWord_setData_other v ‹_›

/-- Words read the same where their bytes do. -/
theorem State.dataWord_congr {s t : State} {i : Nat}
    (h : ∀ a, dataAddr i ≤ a → a < dataAddr i + 4 → t.dataByte a = s.dataByte a) : t.dataWord i = s.dataWord i := by
  simp only [State.dataWord]
  rw [h _ (by omega) (by omega), h _ (by omega) (by omega), h _ (by omega) (by omega), h _ (by omega) (by omega)]

/-! ## The keystream RAM -/

theorem State.ksByte_setKs (s : State) {j a : Nat} {v : Word} (h : a < ksAddr j ∨ ksAddr j + 4 ≤ a) :
    (s.setKs j v).ksByte a = s.ksByte a := by
  simp [State.ksByte, Memory.byteAt_storeWord_of_outside h]

theorem State.ksWord_setKs_same (s : State) (j : Nat) (v : Word) : (s.setKs j v).ksWord j = v := by
  simp [State.ksWord, State.ksByte, Memory.byteAt_storeWord, wordOfBytes_extract]

theorem State.ksWord_setKs_other (s : State) {i j : Nat} (v : Word) (h : j ≠ i) :
    (s.setKs i v).ksWord j = s.ksWord j := by
  have far : ∀ k < 4, ksAddr j + k < ksAddr i ∨ ksAddr i + 4 ≤ ksAddr j + k := by
    intro k hk; simp only [ksAddr]; omega
  have h0 := s.ksByte_setKs (v := v) (far 0 (by omega))
  have h1 := s.ksByte_setKs (v := v) (far 1 (by omega))
  have h2 := s.ksByte_setKs (v := v) (far 2 (by omega))
  have h3 := s.ksByte_setKs (v := v) (far 3 (by omega))
  simp only [Nat.add_zero] at h0
  simp only [State.ksWord, h0, h1, h2, h3]

/-- Read after write in the keystream RAM. -/
theorem State.ksWord_setKs (s : State) (i j : Nat) (v : Word) :
    (s.setKs i v).ksWord j = if j = i then v else s.ksWord j := by
  split
  · subst_vars; exact s.ksWord_setKs_same _ v
  · exact s.ksWord_setKs_other v ‹_›

end Sys2Proof.Machine
end

