-- ==== Sys2Proof/Laws/Step.lean ====
section
/-! SUPPORT. What a step can do, said once: a reset, a transaction, a micro-op, or nothing (00_scope R10). -/

namespace Sys2Proof.Machine

/-! ## PHASE -/

/-- R16: BUSY by the code of PHASE. -/
theorem State.busy_iff (s : State) :
    s.busy = true ↔ s.phase = 1#4 ∨ s.phase = 2#4 ∨ s.phase = 3#4 ∨ s.phase = 4#4 := by
  simp only [State.busy]; generalize s.phase = c; revert c; decide

theorem State.busy_iff_toNat (s : State) : s.busy = true ↔ 1 ≤ s.phase.toNat ∧ s.phase.toNat ≤ 4 := by
  simp only [State.busy]; generalize s.phase = c; revert c; decide

theorem State.busy_congr {s t : State} (h : t.phase = s.phase) : t.busy = s.busy := by
  simp only [State.busy, h]

theorem State.not_busy_of_idle {s : State} (h : s.phase = 0#4) : s.busy = false := by simp [State.busy, h]

theorem State.not_busy_of_fault {s : State} (h : s.phase = 0xF#4) : s.busy = false := by simp [State.busy, h]

/-- R79: what PHASE selects. -/
theorem decodePhase_ok {c : PhaseCode} {i : Instr} (h : decodePhase c = .ok i) :
    (c = 1#4 ∧ i = .seed) ∨ (c = 2#4 ∧ i = .fill) ∨ (c = 3#4 ∧ i = .encStep) ∨ (c = 4#4 ∧ i = .decStep) := by
  simp only [decodePhase] at h
  split_ifs at h <;> injection h with h <;> simp_all

theorem decodePhase_noMicroOp {c : PhaseCode} (h : decodePhase c = .error .noMicroOp) : c = 0#4 ∨ c = 0xF#4 := by
  simp only [decodePhase] at h
  split_ifs at h <;> simp_all

/-! ## One step -/

/-- A transaction that decodes is executed in the state without it. -/
theorem step_txn {s : State} {r : Record} {rest : List Event} {i : Instr} (h : s.inbox = .txn r :: rest)
    (d : decodeTxn s.params r = .ok i) : step s = exec i { s with inbox := rest } := by
  simp [step, State.fetch, h, State.fetchTxn, d]

theorem step_reset {s : State} {rest : List Event} (h : s.inbox = .reset :: rest) :
    step s = .next { s with inbox := rest }.resetStep := by
  simp [step, State.fetch, h]

/-- The engine's turn: nothing listed, or its step listed first. `u` is the state it steps from. -/
def EngineTurn (s u : State) : Prop :=
  (s.inbox = [] ∧ u = s) ∨ ∃ rest, s.inbox = .engine :: rest ∧ u = { s with inbox := rest }

theorem EngineTurn.phase {s u : State} (h : EngineTurn s u) : u.phase = s.phase := by
  rcases h with ⟨_, rfl⟩ | ⟨_, _, rfl⟩ <;> rfl

theorem EngineTurn.fetch {s u : State} (h : EngineTurn s u) : s.fetch = u.fetchEngine := by
  rcases h with ⟨h, rfl⟩ | ⟨_, h, rfl⟩ <;> simp [State.fetch, h]

theorem step_microOp {s u : State} {i : Instr} (h : EngineTurn s u) (d : decodePhase s.phase = .ok i) :
    step s = exec i u := by
  simp [step, h.fetch, State.fetchEngine, h.phase, d]

theorem step_quiet {s u : State} (h : EngineTurn s u) (d : s.phase = 0#4 ∨ s.phase = 0xF#4) : step s = .next u := by
  rcases d with d | d <;> simp [step, h.fetch, State.fetchEngine, h.phase, d, decodePhase]

/-- Everything a step that answers a next state can be. -/
theorem step_cases {s t : State} (h : step s = .next t) :
    (∃ rest, s.inbox = .reset :: rest ∧ t = { s with inbox := rest }.resetStep) ∨
    (∃ r rest i, s.inbox = .txn r :: rest ∧ decodeTxn s.params r = .ok i ∧ exec i { s with inbox := rest } = .next t) ∨
    (∃ u i, EngineTurn s u ∧ decodePhase s.phase = .ok i ∧ exec i u = .next t) ∨
    (EngineTurn s t ∧ (s.phase = 0#4 ∨ s.phase = 0xF#4)) := by
  have engine : ∀ u, EngineTurn s u → (∃ u i, EngineTurn s u ∧ decodePhase s.phase = .ok i ∧ exec i u = .next t) ∨
      (EngineTurn s t ∧ (s.phase = 0#4 ∨ s.phase = 0xF#4)) := by
    intro u hu
    match hd : decodePhase s.phase with
    | .ok i => exact .inl ⟨u, i, hu, rfl, by rwa [step_microOp hu hd] at h⟩
    | .error .noMicroOp =>
      have hp := decodePhase_noMicroOp hd
      rw [step_quiet hu hp] at h
      injection h with h
      exact .inr ⟨h ▸ hu, hp⟩
    | .error .recordBits => simp [step, hu.fetch, State.fetchEngine, hu.phase, hd] at h
    | .error .reservedPhase => simp [step, hu.fetch, State.fetchEngine, hu.phase, hd] at h
  match hi : s.inbox with
  | [] => exact .inr (.inr (engine s (.inl ⟨hi, rfl⟩)))
  | .engine :: rest => exact .inr (.inr (engine _ (.inr ⟨rest, hi, rfl⟩)))
  | .reset :: rest =>
    rw [step_reset hi] at h
    injection h with h
    exact .inl ⟨rest, rfl, h.symm⟩
  | .txn r :: rest =>
    match hd : decodeTxn s.params r with
    | .ok i => exact .inr (.inl ⟨r, rest, i, rfl, hd, by rwa [step_txn hi hd] at h⟩)
    | .error e => simp [step, State.fetch, hi, State.fetchTxn, hd] at h

/-- R85: every record with T[47:46] = 0 decodes. -/
theorem decodeTxn_total {p : Params} {r : Record} (h : recTop r = 0#2) : ∃ i, decodeTxn p r = .ok i := by
  simp only [decodeTxn, h]
  split_ifs <;> simp_all

end Sys2Proof.Machine
end

