-- ==== Sys2Proof/Laws/Exec.lean ====
section
/-! SUPPORT. Everything each shared operation and each kind of instruction can do, said once. -/

namespace Sys2Proof.Machine

/-! ## The write gate (R132, R133) -/

theorem State.gatedWrite_idle {s : State} (h : s.phase = 0#4) (f : State → State) :
    s.gatedWrite f = (f s).answerWrite := by
  simp [State.gatedWrite, h]

theorem State.gatedWrite_ignored {s : State} (h : s.phase ≠ 0#4) (f : State → State) :
    s.gatedWrite f = s.markIgnored.answerWrite := by
  simp [State.gatedWrite, h]

/-! ## CMD_RUN (R143) -/

theorem keyOk_iff (s : State) :
    keyOk s.key0 s.key1 s.key2 s.key3 = true ↔
      2 ≤ [s.key0, s.key1, s.key2, s.key3].countP (fun k => k ≠ 0#32) := by
  simp only [keyOk, nonZero, decide_eq_true_eq, List.countP_cons, List.countP_nil]
  split_ifs <;> simp_all

/-- Every outcome of CMD_RUN in IDLE: a fault with one of the codes 1 to 4, the no-op of COUNT = 0, or a launch. -/
theorem State.run_cases (s : State) :
    (∃ c : FaultCode, c ≠ .seedBad ∧ c ≠ .badCmd ∧ s.run = s.beginRun.raiseFault c) ∨
    (magnitude s.count = 0 ∧ s.run = { s.beginRun with done := true }) ∨
    (2 ≤ magnitude s.count ∧ magnitude s.count ≤ s.params.nMax ∧
      (s.beginRun.dir = true → streamLength (magnitude s.count) ≤ s.params.ksDepth) ∧
      keyOk s.key0 s.key1 s.key2 s.key3 = true ∧ s.run = s.beginRun.launch (magnitude s.count)) := by
  by_cases h1 : keyOk s.beginRun.key0 s.beginRun.key1 s.beginRun.key2 s.beginRun.key3 = false
  · exact .inl ⟨.keyWeak, by decide, by decide, by rw [State.run, State.runChecked, if_pos h1]⟩
  by_cases h2 : magnitude s.count = 1
  · exact .inl ⟨.countOne, by decide, by decide, by rw [State.run, State.runChecked, if_neg h1, if_pos h2]⟩
  by_cases h3 : s.beginRun.params.nMax < magnitude s.count
  · exact .inl ⟨.countRange, by decide, by decide, by rw [State.run, State.runChecked, if_neg h1, if_neg h2, if_pos h3]⟩
  by_cases h4 : magnitude s.count = 0
  · exact .inr (.inl ⟨h4, by rw [State.run, State.runChecked, if_neg h1, if_neg h2, if_neg h3, if_pos h4]⟩)
  by_cases h5 : s.beginRun.dir = true ∧ s.beginRun.params.ksDepth < streamLength (magnitude s.count)
  · exact .inl ⟨.ksAlloc, by decide, by decide,
      by rw [State.run, State.runChecked, if_neg h1, if_neg h2, if_neg h3, if_neg h4, if_pos h5]⟩
  · refine .inr (.inr ⟨by omega, Nat.le_of_not_lt h3, fun hd => ?_, by simpa using h1,
      by rw [State.run, State.runChecked, if_neg h1, if_neg h2, if_neg h3, if_neg h4, if_neg h5]⟩)
    by_contra hs
    exact h5 ⟨hd, Nat.lt_of_not_le hs⟩

/-! ## The host's instructions -/

theorem careMask_decodeCommand (c : BitVec 4) : (decodeCommand c).careMask ≠ 0#48 := by revert c; decide

theorem careMask_decodeWrite (r : Record) : (decodeWrite r).careMask ≠ 0#48 := by
  unfold decodeWrite
  split
  · exact careMask_decodeCommand _
  iterate 9 (split; · simp [Instr.careMask])
  simp [Instr.careMask]

theorem careMask_decodeRead (r : Record) : (decodeRead r).careMask ≠ 0#48 := by
  unfold decodeRead
  iterate 10 (split; · simp [Instr.careMask])
  simp [Instr.careMask]

/-- A transaction is never a micro-op nor an operation of the PRNG: those have no bits of a record. -/
theorem careMask_decodeTxn {p : Params} {r : Record} {i : Instr} (d : decodeTxn p r = .ok i) :
    i.careMask ≠ 0#48 := by
  unfold decodeTxn at d
  split at d; · cases d
  iterate 3 (split at d; · injection d with d; subst d; simp [Instr.careMask])
  split at d
  · injection d with d
    subst d
    unfold decodeWindow
    split
    · split <;> simp [Instr.careMask]
    · simp [Instr.careMask]
  split at d <;> injection d with d <;> subst d
  · exact careMask_decodeWrite r
  · exact careMask_decodeRead r

/-- What a write that the gate lets through does to the state, before its answer. -/
def IdleEffect (s u : State) : Prop :=
  u = s ∨ u = s.run ∨ u = s.badCommand ∨ (∃ v, u = { s with count := v }) ∨ (∃ v, u = { s with key0 := v }) ∨
    (∃ v, u = { s with key1 := v }) ∨ (∃ v, u = { s with key2 := v }) ∨ (∃ v, u = { s with key3 := v }) ∨
    ∃ j v, j < s.params.nMax ∧ u = s.setData j v

/-- Every instruction of the host completes: it answers and changes nothing, or it only sets WIGN, or it takes its
effect in IDLE. -/
theorem exec_host_cases {p : Params} {r : Record} {i : Instr} (d : decodeTxn p r = .ok i) (s : State) :
    ∃ t, exec i s = .next t ∧
      ((∃ a, t = { s with rsp := some a }) ∨ (s.phase ≠ 0#4 ∧ t = s.markIgnored.answerWrite) ∨
        (s.phase = 0#4 ∧ ∃ u, IdleEffect s u ∧ t = u.answerWrite)) := by
  have gate : ∀ f : State → State, (s.phase = 0#4 → IdleEffect s (f s)) →
      ((∃ a, s.gatedWrite f = { s with rsp := some a }) ∨
        (s.phase ≠ 0#4 ∧ s.gatedWrite f = s.markIgnored.answerWrite) ∨
        (s.phase = 0#4 ∧ ∃ u, IdleEffect s u ∧ s.gatedWrite f = u.answerWrite)) := by
    intro f hf
    by_cases h : s.phase = 0#4
    · exact .inr (.inr ⟨h, _, hf h, State.gatedWrite_idle h f⟩)
    · exact .inr (.inl ⟨h, State.gatedWrite_ignored h f⟩)
  have bad : IdleEffect s s.badCommand := .inr (.inr (.inl rfl))
  have host := careMask_decodeTxn d
  cases i
  case seed => exact absurd rfl host
  case fill => exact absurd rfl host
  case encStep => exact absurd rfl host
  case decStep => exact absurd rfl host
  case prngNext => exact absurd rfl host
  case prngSeed v => exact absurd rfl host
  case cmdNop => exact ⟨_, rfl, gate id fun _ => .inl rfl⟩
  case cmdRun => exact ⟨_, rfl, gate State.run fun _ => .inr (.inl rfl)⟩
  case wrCount v => exact ⟨_, rfl, gate _ fun _ => .inr (.inr (.inr (.inl ⟨v, rfl⟩)))⟩
  case wrKey0 v => exact ⟨_, rfl, gate _ fun _ => .inr (.inr (.inr (.inr (.inl ⟨v, rfl⟩))))⟩
  case wrKey1 v => exact ⟨_, rfl, gate _ fun _ => .inr (.inr (.inr (.inr (.inr (.inl ⟨v, rfl⟩)))))⟩
  case wrKey2 v => exact ⟨_, rfl, gate _ fun _ => .inr (.inr (.inr (.inr (.inr (.inr (.inl ⟨v, rfl⟩))))))⟩
  case wrKey3 v => exact ⟨_, rfl, gate _ fun _ => .inr (.inr (.inr (.inr (.inr (.inr (.inr (.inl ⟨v, rfl⟩)))))))⟩
  case wrData j v =>
    simp only [exec, execWrData]
    split
    · exact ⟨_, rfl, gate _ fun _ => .inr (.inr (.inr (.inr (.inr (.inr (.inr (.inr ⟨_, v, ‹_›, rfl⟩)))))))⟩
    · exact ⟨_, rfl, .inl ⟨_, rfl⟩⟩
  case rdData j =>
    simp only [exec, execRdData]
    split <;> exact ⟨_, rfl, .inl ⟨_, rfl⟩⟩
  all_goals first
    | exact ⟨_, rfl, .inl ⟨_, rfl⟩⟩
    | exact ⟨_, rfl, gate State.badCommand fun _ => bad⟩

/-! ## The micro-ops -/

/-- SEED never takes SEED_BAD (R103). -/
theorem exec_seed (s : State) : exec .seed s = .next s.launchSweep := by
  simp [exec, execSeed, State.increment]

theorem exec_fill {s t : State} (h : exec .fill s = .next t) : s.ksptr.toNat < s.params.ksDepth ∧ t = s.fillWord := by
  simp only [exec, execFill] at h
  split_ifs at h with hk
  injection h with h
  exact ⟨by omega, h.symm⟩

theorem exec_encStep {s t : State} (h : exec .encStep s = .next t) :
    s.sweepStop = none ∧ t = s.encUpdate.encAdvance := by
  simp only [exec, execEncStep] at h
  split at h
  · cases h
  · injection h with h
    exact ⟨‹_›, h.symm⟩

theorem exec_decStep {s t : State} (h : exec .decStep s = .next t) :
    s.sweepStop = none ∧ s.replayIndex < s.params.ksDepth ∧ t = s.decUpdate.decAdvance := by
  simp only [exec, execDecStep] at h
  split at h
  · cases h
  · split_ifs at h with hk
    injection h with h
    exact ⟨‹_›, by omega, h.symm⟩

/-- The position after an ENC_STEP (R119, R121). -/
theorem State.encAdvance_cases (s : State) :
    (s.p ≠ s.n - 1#32 ∧ s.encAdvance = { s with p := s.p + 1#32 }) ∨
    (s.p = s.n - 1#32 ∧ s.rnd - 1#32 ≠ 0#32 ∧ s.encAdvance = { s with p := 0#32, rnd := s.rnd - 1#32 }) ∨
    (s.p = s.n - 1#32 ∧ s.rnd - 1#32 = 0#32 ∧
      s.encAdvance = { s with p := 0#32, rnd := s.rnd - 1#32, phase := Phase.idle, done := true }) := by
  simp only [State.encAdvance]
  split_ifs with h1 h2
  · exact .inr (.inr ⟨h1, h2, rfl⟩)
  · exact .inr (.inl ⟨h1, h2, rfl⟩)
  · exact .inl ⟨h1, rfl⟩

/-- The position after a DEC_STEP (R120, R121). -/
theorem State.decAdvance_cases (s : State) :
    (s.p ≠ 0#32 ∧ s.decAdvance = { s with p := s.p - 1#32 }) ∨
    (s.p = 0#32 ∧ s.rnd - 1#32 ≠ 0#32 ∧
      s.decAdvance = { s with sum := s.sum - delta, rnd := s.rnd - 1#32, p := s.n - 1#32 }) ∨
    (s.p = 0#32 ∧ s.rnd - 1#32 = 0#32 ∧
      s.decAdvance = { s with sum := s.sum - delta, rnd := s.rnd - 1#32, p := s.n - 1#32, phase := Phase.idle,
                              done := true }) := by
  simp only [State.decAdvance]
  split_ifs with h1 h2
  · exact .inr (.inr ⟨h1, h2, rfl⟩)
  · exact .inr (.inl ⟨h1, h2, rfl⟩)
  · exact .inl ⟨h1, rfl⟩

end Sys2Proof.Machine
end

