-- ==== Sys2Proof/Laws/Inv.lean ====
section
/-! SUPPORT. The invariant under the shared operations (42_sequencer R130), one lemma per operation. -/

namespace Sys2Proof.Machine

variable {s t : State}

/-- Where no operation runs, the invariant is about the flags, the parameters and the memories alone. -/
theorem Inv.of_quiet (hp : s.params.Valid) (hq : s.phase = 0#4 ∨ s.phase = 15#4) (hf : FlagsSound s)
    (hm : MemorySound s) : Inv s := by
  have hb : s.busy = false := by
    rcases hq with h | h
    · exact State.not_busy_of_idle h
    · exact State.not_busy_of_fault h
  constructor
  · exact hp
  · rcases hq with h | h <;> simp [PhaseLegal, h]
  · exact hf
  · intro h; simp [hb] at h
  · intro h; rcases hq with q | q <;> simp [q] at h
  · intro h; simp [hb] at h
  · intro h; rcases hq with q | q <;> simp [q] at h
  · intro h; rcases hq with q | q <;> simp [q] at h
  · intro h; rcases hq with q | q <;> simp [q] at h
  · exact hm

/-- What the host writes beside DATA and CTRL the invariant does not mention. -/
theorem Inv.host_fields (h : Inv s) (c k0 k1 k2 k3 : Word) (w : Bool) (i : List Event) (r : Option Response) (m : Nat) :
    Inv { s with count := c, key0 := k0, key1 := k1, key2 := k2, key3 := k3, wign := w, inbox := i, rsp := r,
                 resets := m } :=
  ⟨h.params, h.phase, h.flags, h.operation, h.seed, h.sweep, h.enc, h.fill, h.dec, h.memory⟩

theorem MemorySound.setData {j : Nat} (h : MemorySound s) (hj : j < s.params.nMax) (v : Word) :
    MemorySound (s.setData j v) := by
  obtain ⟨h1, h2, h3, h4⟩ := h
  refine ⟨Memory.storeWord_wf h1 _ _, h2, fun c hc => ?_, h4⟩
  rcases Memory.mem_storeWord hc with hc | hc
  · simp only [dataAddr, State.setData_params] at hc ⊢; omega
  · exact h3 c hc

theorem MemorySound.setKs {j : Nat} (h : MemorySound s) (hj : j < s.params.ksDepth) (v : Word) :
    MemorySound (s.setKs j v) := by
  obtain ⟨h1, h2, h3, h4⟩ := h
  refine ⟨h1, Memory.storeWord_wf h2 _ _, h3, fun c hc => ?_⟩
  rcases Memory.mem_storeWord hc with hc | hc
  · simp only [ksAddr, State.setKs_params] at hc ⊢; omega
  · exact h4 c hc

theorem Inv.setData {j : Nat} (h : Inv s) (hj : j < s.params.nMax) (v : Word) : Inv (s.setData j v) :=
  ⟨h.params, h.phase, h.flags, h.operation, h.seed, h.sweep, h.enc, h.fill, h.dec, h.memory.setData hj v⟩

theorem FaultCode.code_range (c : FaultCode) : 1 ≤ c.code.toNat ∧ c.code.toNat ≤ 6 := by cases c <;> decide

/-- R152: fault entry keeps the invariant, from any PHASE. -/
theorem Inv.raiseFault (hp : s.params.Valid) (hm : MemorySound s) (c : FaultCode) : Inv (s.raiseFault c) :=
  .of_quiet hp (.inr rfl) ⟨by simp, by simp, fun _ => c.code_range, by simp⟩ hm

theorem Inv.fault_of_idle (h : Inv s) (hi : s.phase = 0#4) : s.fault = false := by
  cases hf : s.fault
  · rfl
  · have := h.flags.1.mp hf
    simp [hi] at this

/-- R143: CMD_RUN in IDLE keeps the invariant, whatever its checks say. -/
theorem Inv.run (h : Inv s) (hi : s.phase = 0#4) : Inv s.run := by
  have hf := h.fault_of_idle hi
  have he := h.flags.2.1 hf
  have hp := h.params
  rcases s.run_cases with ⟨c, -, -, e⟩ | ⟨-, e⟩ | ⟨h2, hN, hk, -, e⟩ <;> rw [e]
  · exact Inv.raiseFault (s := s.beginRun) hp h.memory c
  · exact .of_quiet hp (.inl hi) ⟨by simp [hf, hi], by simp [he], by simp [hf], by simp [hi]⟩ h.memory
  · have hn : (BitVec.ofNat 32 (magnitude s.count)).toNat = magnitude s.count := by
      rw [BitVec.toNat_ofNat, Nat.mod_eq_of_lt]
      have := hp.2.1; omega
    have hr : (BitVec.ofNat 32 (roundsOf (magnitude s.count))).toNat = roundsOf (magnitude s.count) := by
      rw [BitVec.toNat_ofNat, Nat.mod_eq_of_lt]
      have := roundsOf_le h2; omega
    constructor
    · exact hp
    · simp [PhaseLegal]
    · exact ⟨by simp [hf], by simp [he], by simp [hf], by simp⟩
    · intro _
      simp only [State.launch_n, State.launch_rounds, State.launch_params, State.launch_dir, hn, hr]
      exact ⟨h2, hN, trivial, hk⟩
    · intro _; rfl
    · intro _ hx; exact absurd rfl hx
    · intro hx; simp at hx
    · intro hx; simp at hx
    · intro hx; simp at hx
    · exact h.memory

/-- R171: reset establishes the invariant again. -/
theorem Inv.resetStep (h : Inv s) : Inv s.resetStep :=
  .of_quiet h.params (.inl rfl) ⟨by simp [State.resetStep, State.reset], by simp [State.resetStep, State.reset],
    by simp [State.resetStep, State.reset], by simp [State.resetStep, State.reset]⟩
    ⟨by simp [State.resetStep, State.reset], by simp [State.resetStep, State.reset],
      by simp [State.resetStep, State.reset], by simp [State.resetStep, State.reset]⟩

/-- Every effect the gate lets through keeps the invariant. -/
theorem Inv.idleEffect (h : Inv s) (hi : s.phase = 0#4) {u : State} (hu : IdleEffect s u) : Inv u := by
  rcases hu with rfl | rfl | rfl | ⟨v, rfl⟩ | ⟨v, rfl⟩ | ⟨v, rfl⟩ | ⟨v, rfl⟩ | ⟨v, rfl⟩ | ⟨j, v, hj, rfl⟩
  · exact h
  · exact h.run hi
  · exact Inv.raiseFault h.params h.memory _
  · exact h.host_fields v s.key0 s.key1 s.key2 s.key3 s.wign s.inbox s.rsp s.resets
  · exact h.host_fields s.count v s.key1 s.key2 s.key3 s.wign s.inbox s.rsp s.resets
  · exact h.host_fields s.count s.key0 v s.key2 s.key3 s.wign s.inbox s.rsp s.resets
  · exact h.host_fields s.count s.key0 s.key1 v s.key3 s.wign s.inbox s.rsp s.resets
  · exact h.host_fields s.count s.key0 s.key1 s.key2 v s.wign s.inbox s.rsp s.resets
  · exact h.setData hj v

/-- Only the event list differs. -/
theorem Inv.withInbox (h : Inv s) (i : List Event) : Inv { s with inbox := i } :=
  h.host_fields s.count s.key0 s.key1 s.key2 s.key3 s.wign i s.rsp s.resets

theorem Inv.withRsp (h : Inv s) (r : Option Response) : Inv { s with rsp := r } :=
  h.host_fields s.count s.key0 s.key1 s.key2 s.key3 s.wign s.inbox r s.resets

theorem Inv.ignored (h : Inv s) : Inv s.markIgnored.answerWrite :=
  h.host_fields s.count s.key0 s.key1 s.key2 s.key3 true s.inbox _ s.resets

/-! ## The micro-ops -/

/-- The numbers of a running operation are small, so their 32-bit products and sums do not wrap. -/
theorem Inv.bounds (h : Inv s) (hb : s.busy = true) :
    2 ≤ s.n.toNat ∧ s.n.toNat ≤ s.params.nMax ∧ s.params.nMax ≤ 1024 ∧ s.params.ksDepth ≤ 65535 ∧
      s.rounds.toNat = roundsOf s.n.toNat ∧ s.rounds.toNat ≤ 76 ∧ 12 ≤ s.rounds.toNat ∧
      s.n.toNat * s.rounds.toNat = streamLength s.n.toNat ∧ s.n.toNat * s.rounds.toNat < 2 ^ 32 ∧
      (s.dir = true → s.n.toNat * s.rounds.toNat ≤ s.params.ksDepth) := by
  obtain ⟨h1, h2, h3, h4⟩ := h.operation hb
  have h5 := roundsOf_le h1
  have h6 := h.params
  have h7 : s.n.toNat * s.rounds.toNat = streamLength s.n.toNat := by rw [h3]; rfl
  refine ⟨h1, h2, h6.2.1, h6.2.2.2.1, h3, by omega, by rw [h3]; exact Nat.le_add_right 12 _, h7, ?_, ?_⟩
  · rw [h7]; exact streamLength_lt (by omega)
  · rw [h7]; exact h4

theorem Inv.flags_busy (h : Inv s) (hb : s.busy = true) : s.fault = false ∧ s.err = 0#4 ∧ s.done = false := by
  have hq := s.busy_iff.mp hb
  have hf : s.fault = false := by
    cases hf : s.fault
    · rfl
    · have := h.flags.1.mp hf
      simp [this] at hq
  refine ⟨hf, h.flags.2.1 hf, ?_⟩
  cases hd : s.done
  · rfl
  · have := h.flags.2.2.2 hd
    simp [this] at hq

/-- The invariant of a state in the middle of an operation, from what its PHASE asks. -/
theorem Inv.of_sweep (hp : s.params.Valid) (hm : MemorySound s) (hf : s.fault = false) (he : s.err = 0#4)
    (hd : s.done = false)
    (hop : 2 ≤ s.n.toNat ∧ s.n.toNat ≤ s.params.nMax ∧ s.rounds.toNat = roundsOf s.n.toNat ∧
      (s.dir = true → streamLength s.n.toNat ≤ s.params.ksDepth))
    (hsw : 1 ≤ s.rnd.toNat ∧ s.rnd.toNat ≤ s.rounds.toNat ∧ s.p.toNat < s.n.toNat ∧ s.prngS.getLsbD 0 = true)
    (hph : s.phase = 2#4 ∨ s.phase = 3#4 ∨ s.phase = 4#4) (h2 : FillSound s) (h3 : EncSound s) (h4 : DecSound s) :
    Inv s := by
  have hx : s.phase ≠ 1#4 ∧ s.phase ≠ 15#4 := by rcases hph with h | h | h <;> simp [h]
  exact ⟨hp, by rcases hph with h | h | h <;> simp [PhaseLegal, h], ⟨by simp [hf, hx.2], fun _ => he, by simp [hf],
    by simp [hd]⟩, fun _ => hop, fun h => absurd h hx.1, fun _ _ => hsw, h3, h2, h4, hm⟩

/-- SEED starts a sweep in the invariant (R117). -/
theorem Inv.launchSweep (h : Inv s) (hs : s.phase = 1#4) : Inv s.launchSweep := by
  have hb : s.busy = true := s.busy_iff.mpr (.inl hs)
  obtain ⟨hf, he, hd⟩ := h.flags_busy hb
  obtain ⟨h1, h2, h3, h4, h5, h6, h7, h8, h9, h10⟩ := h.bounds hb
  have hodd : s.increment.getLsbD 0 = true := seedOf_odd ..
  have hp : (s.n - 1#32).toNat = s.n.toNat - 1 := by
    rw [BitVec.toNat_sub]; simp; omega
  have hpos : 0 < s.n.toNat * s.rounds.toNat := Nat.mul_pos (by omega) (by omega)
  unfold State.launchSweep State.startSweep
  split
  · rename_i hdir
    refine .of_sweep h.params h.memory hf he hd (h.operation hb) ⟨by simp; omega, by simp, ?_, hodd⟩ (.inl rfl)
      (fun _ => ⟨hdir, hpos, h.seed hs, hp, rfl, rfl⟩) (fun hx => absurd hx (by simp)) (fun hx => absurd hx (by simp))
    simp only [State.seedPrng_n]; rw [hp]; omega
  · rename_i hdir
    refine .of_sweep h.params h.memory hf he hd (h.operation hb) ⟨by simp; omega, by simp, by simp; omega, hodd⟩
      (.inr (.inl rfl)) (fun hx => absurd hx (by simp))
      (fun _ => ⟨by simpa using hdir, by simp [h.seed hs], by simp⟩) (fun hx => absurd hx (by simp))

/-- FILL keeps the invariant, and its last draw starts the decrypt sweep in it (R118, R123). -/
theorem Inv.fillWord (h : Inv s) (hs : s.phase = 2#4) : Inv s.fillWord := by
  have hb : s.busy = true := s.busy_iff.mpr (.inr (.inl hs))
  obtain ⟨hf, he, hd⟩ := h.flags_busy hb
  obtain ⟨h1, h2, h3, h4, h5, h6, h7, h8, h9, h10⟩ := h.bounds hb
  obtain ⟨f1, f2, f3, f4, f5, f6⟩ := h.fill hs
  have hsw := h.sweep hb (by simp [hs])
  have hk : (s.ksptr + 1#32).toNat = s.ksptr.toNat + 1 := by rw [BitVec.toNat_add]; simp; omega
  have hm : (s.n * s.rounds).toNat = s.n.toNat * s.rounds.toNat := by
    rw [BitVec.toNat_mul, Nat.mod_eq_of_lt h9]
  have hmem : MemorySound s.fillWord := by
    have := h10 f1
    exact h.memory.setKs (s := s) (j := s.ksptr.toNat) (by omega) _
  have hcase : (s.ksptr + 1#32 = s.n * s.rounds) ↔ s.ksptr.toNat + 1 = s.n.toNat * s.rounds.toNat := by
    rw [← hk, ← hm, BitVec.toNat_inj]
  by_cases hlast : s.ksptr + 1#32 = s.n * s.rounds
  · have hph : s.fillWord.phase = 4#4 := by
      simp only [State.fillWord_phase, if_pos hlast]
    have hl := hcase.mp hlast
    refine .of_sweep h.params hmem hf he hd (h.operation hb) hsw (.inr (.inr hph)) (fun hx => absurd (hph.symm.trans hx) (by decide))
      (fun hx => absurd (hph.symm.trans hx) (by decide)) (fun _ => ⟨f1, ?_, by simp [f5, f6], ?_⟩)
    · simp only [State.fillWord_ksptr, State.fillWord_rnd, State.fillWord_n, State.fillWord_p, hk, f4, f5, hl]
      obtain ⟨r, hr⟩ : ∃ r, s.rounds.toNat = r + 1 := ⟨s.rounds.toNat - 1, by omega⟩
      rw [hr, Nat.mul_add, Nat.add_sub_cancel, Nat.mul_comm]
      omega
    · simp only [State.fillWord_draws, State.fillWord_n, State.fillWord_rounds, f3, hk, hl]
  · have hph : s.fillWord.phase = 2#4 := by
      simp only [State.fillWord_phase, if_neg hlast, hs]
    have hl : s.ksptr.toNat + 1 ≠ s.n.toNat * s.rounds.toNat := fun e => hlast (hcase.mpr e)
    refine .of_sweep h.params hmem hf he hd (h.operation hb) hsw (.inl hph)
      (fun _ => ⟨f1, ?_, by simp [f3], f4, f5, f6⟩) (fun hx => absurd (hph.symm.trans hx) (by decide)) (fun hx => absurd (hph.symm.trans hx) (by decide))
    simp only [State.fillWord_ksptr, State.fillWord_n, State.fillWord_rounds, hk]
    omega

/-- In the middle of a sweep: the position is the last of a round exactly at N - 1, and RND - 1 counts down. -/
theorem Inv.sweep_arith (h : Inv s) (hb : s.busy = true) (hs : s.phase ≠ 1#4) :
    (s.p = s.n - 1#32 ↔ s.p.toNat + 1 = s.n.toNat) ∧ (s.rnd - 1#32).toNat = s.rnd.toNat - 1 ∧
      (s.rnd - 1#32 = 0#32 ↔ s.rnd.toNat = 1) ∧ (s.n - 1#32).toNat = s.n.toNat - 1 ∧ s.sweepStop = none := by
  obtain ⟨h1, h2, h3, h4, h5, h6, h7, h8, h9, h10⟩ := h.bounds hb
  obtain ⟨w1, w2, w3, w4⟩ := h.sweep hb hs
  have hn : (s.n - 1#32).toNat = s.n.toNat - 1 := by
    rw [BitVec.toNat_sub]; simp; omega
  have hr : (s.rnd - 1#32).toNat = s.rnd.toNat - 1 := by
    rw [BitVec.toNat_sub]; simp; omega
  refine ⟨?_, hr, ?_, hn, sweepStop_none (by omega) h2 h3 (by omega)⟩
  · rw [← BitVec.toNat_inj, hn]; omega
  · rw [← BitVec.toNat_inj, hr]; simp; omega

/-- ENC_STEP keeps the invariant (R119, R121). -/
theorem Inv.encStep (h : Inv s) (hs : s.phase = 3#4) : Inv s.encUpdate.encAdvance := by
  have hb : s.busy = true := s.busy_iff.mpr (.inr (.inr (.inl hs)))
  obtain ⟨hf, he, hd⟩ := h.flags_busy hb
  obtain ⟨h1, h2, h3, h4, h5, h6, h7, h8, h9, h10⟩ := h.bounds hb
  obtain ⟨w1, w2, w3, w4⟩ := h.sweep hb (by simp [hs])
  obtain ⟨e1, e2, e3⟩ := h.enc hs
  obtain ⟨a1, a2, a3, a4, -⟩ := h.sweep_arith hb (by simp [hs])
  have hmem : MemorySound s.encUpdate :=
    h.memory.setData (s := s) (j := s.wordIndex) (by simp only [State.wordIndex]; omega) _
  have hlen : (s.rounds.toNat - s.rnd.toNat + 1) * s.n.toNat ≤ s.n.toNat * s.rounds.toNat := by
    rw [Nat.mul_comm]; exact Nat.mul_le_mul_left _ (by omega)
  have hdraws : (s.draws + 1#32).toNat = (s.rounds.toNat - s.rnd.toNat) * s.n.toNat + s.p.toNat + 1 := by
    rw [BitVec.toNat_add, e2]
    rw [Nat.add_mul] at hlen
    simp; omega
  have hsum : s.encSum = BitVec.ofNat 32 (s.rounds.toNat - s.rnd.toNat + 1) * delta := by
    unfold State.encSum
    split
    · rename_i hp0
      rw [e3, hp0]
      simp only [BitVec.toNat_ofNat, Nat.zero_mod, Nat.lt_irrefl, if_false, Nat.add_zero]
      rw [BitVec.ofNat_add, BitVec.add_mul]
      simp
    · rename_i hp0
      have : 0 < s.p.toNat := by
        rcases Nat.eq_zero_or_pos s.p.toNat with hz | hz
        · exact absurd (BitVec.eq_of_toNat_eq (by simpa using hz)) hp0
        · exact hz
      rw [e3, if_pos this]
  rcases s.encUpdate.encAdvance_cases with ⟨hp, e⟩ | ⟨hp, hr, e⟩ | ⟨hp, hr, e⟩ <;> rw [e]
  · have hp' : s.p.toNat + 1 ≠ s.n.toNat := fun x => hp (a1.mpr x)
    have hp1 : (s.p + 1#32).toNat = s.p.toNat + 1 := by rw [BitVec.toNat_add]; simp; omega
    refine .of_sweep h.params hmem hf he hd (h.operation hb) ⟨w1, w2, ?_, w4⟩ (.inr (.inl hs))
      (fun hx => by simp [hs] at hx) (fun _ => ⟨e1, ?_, ?_⟩) (fun hx => by simp [hs] at hx)
    · simp only [State.encUpdate_p, State.encUpdate_n, hp1]; omega
    · simp only [State.encUpdate_p, State.encUpdate_n, State.encUpdate_draws, State.encUpdate_rounds,
        State.encUpdate_rnd, hp1, hdraws, Nat.add_assoc]
    · simp only [State.encUpdate_p, State.encUpdate_sum, State.encUpdate_rounds, State.encUpdate_rnd, hp1, hsum]
      rw [if_pos (by omega)]
  · have hp' : s.p.toNat + 1 = s.n.toNat := a1.mp hp
    have hr' : s.rnd.toNat ≠ 1 := fun x => hr (a3.mpr x)
    have hk : s.rounds.toNat - (s.rnd.toNat - 1) = s.rounds.toNat - s.rnd.toNat + 1 := by omega
    refine .of_sweep h.params hmem hf he hd (h.operation hb) ⟨?_, ?_, ?_, w4⟩ (.inr (.inl hs))
      (fun hx => by simp [hs] at hx) (fun _ => ⟨e1, ?_, ?_⟩) (fun hx => by simp [hs] at hx)
    · simp only [State.encUpdate_rnd, a2]; omega
    · simp only [State.encUpdate_rnd, State.encUpdate_rounds, a2]; omega
    · simp; omega
    · simp only [State.encUpdate_n, State.encUpdate_draws, State.encUpdate_rounds, State.encUpdate_rnd, a2, hk, hdraws,
        Nat.add_mul]
      simp; omega
    · simp only [State.encUpdate_sum, State.encUpdate_rounds, State.encUpdate_rnd, a2, hk, hsum]
      simp
  · exact .of_quiet h.params (.inl rfl) ⟨by simp [hf], by simp [he], by simp [hf], by simp⟩ hmem

/-- DEC_STEP keeps the invariant (R120, R121). -/
theorem Inv.decStep (h : Inv s) (hs : s.phase = 4#4) : Inv s.decUpdate.decAdvance := by
  have hb : s.busy = true := s.busy_iff.mpr (.inr (.inr (.inr hs)))
  obtain ⟨hf, he, hd⟩ := h.flags_busy hb
  obtain ⟨h1, h2, h3, h4, h5, h6, h7, h8, h9, h10⟩ := h.bounds hb
  obtain ⟨w1, w2, w3, w4⟩ := h.sweep hb (by simp [hs])
  obtain ⟨d1, d2, d3, d4⟩ := h.dec hs
  obtain ⟨a1, a2, a3, a4, -⟩ := h.sweep_arith hb (by simp [hs])
  have hmem : MemorySound s.decUpdate :=
    h.memory.setData (s := s) (j := s.wordIndex) (by simp only [State.wordIndex]; omega) _
  have hk : (s.ksptr - 1#32).toNat = s.ksptr.toNat - 1 := by
    rw [BitVec.toNat_sub]; simp; omega
  rcases s.decUpdate.decAdvance_cases with ⟨hp, e⟩ | ⟨hp, hr, e⟩ | ⟨hp, hr, e⟩ <;> rw [e]
  · have hp0 : 0 < s.p.toNat := by
      rcases Nat.eq_zero_or_pos s.p.toNat with hz | hz
      · exact absurd (BitVec.eq_of_toNat_eq (by simpa using hz)) hp
      · exact hz
    have hp1 : (s.p - 1#32).toNat = s.p.toNat - 1 := by rw [BitVec.toNat_sub]; simp; omega
    refine .of_sweep h.params hmem hf he hd (h.operation hb) ⟨w1, w2, ?_, w4⟩ (.inr (.inr hs))
      (fun hx => by simp [hs] at hx) (fun hx => by simp [hs] at hx) (fun _ => ⟨d1, ?_, d3, d4⟩)
    · simp only [State.decUpdate_p, State.decUpdate_n, hp1]; omega
    · simp only [State.decUpdate_p, State.decUpdate_n, State.decUpdate_ksptr, State.decUpdate_rnd, hp1, hk]; omega
  · have hp0 : s.p = 0#32 := hp
    have hr' : s.rnd.toNat ≠ 1 := fun x => hr (a3.mpr x)
    refine .of_sweep h.params hmem hf he hd (h.operation hb) ⟨?_, ?_, ?_, w4⟩ (.inr (.inr hs))
      (fun hx => by simp [hs] at hx) (fun hx => by simp [hs] at hx) (fun _ => ⟨d1, ?_, ?_, d4⟩)
    · simp only [State.decUpdate_rnd, a2]; omega
    · simp only [State.decUpdate_rnd, State.decUpdate_rounds, a2]; omega
    · simp only [State.decUpdate_n, a4]; omega
    · simp only [State.decUpdate_n, State.decUpdate_ksptr, State.decUpdate_rnd, a2, a4, hk, d2, hp0]
      obtain ⟨r, hr⟩ : ∃ r, s.rnd.toNat = r + 2 := ⟨s.rnd.toNat - 2, by omega⟩
      rw [hr]
      simp only [show r + 2 - 1 = r + 1 by omega, Nat.add_sub_cancel, Nat.add_mul]
      simp; omega
    · simp only [State.decUpdate_sum, State.decUpdate_rnd, d3]
      grind
  · exact .of_quiet h.params (.inl rfl) ⟨by simp [hf], by simp [he], by simp [hf], by simp⟩ hmem

end Sys2Proof.Machine
end

