-- ==== Sys2Proof/Laws/PerInstr.lean ====
section
/-! SUPPORT. For every instruction: what its encoder writes is a transaction's record with the ignored bits at 0 (R72, R85). -/

namespace Sys2Proof.Laws.EncodedRecord

/-- The encoder's record has T[47:46] = 0 and no bit outside the bits the instruction depends on. -/
def Statement (i : Instr) : Prop :=
  ∀ t, encode i = some (.txn t) → recTop t = 0#2 ∧ t &&& i.careMask = t

theorem of_command {i : Instr} {c : BitVec 4} (h : encode i = some (.txn (commandRecord c)))
    (m : i.careMask = 0xFFFF0000000F#48) : Statement i := by
  intro t e
  rw [h] at e
  injection e with e
  injection e with e
  rw [← e, m]
  refine ⟨recTop_record .., ?_⟩
  rw [commandRecord, record_and_cmd]
  congr 1
  clear e h
  revert c
  decide

theorem of_record {i : Instr} {we : Bool} {off : BitVec 11} {align : BitVec 2} {v : Word}
    (h : encode i = some (.txn (record we off align v))) (m : i.careMask = 0xFFFFFFFFFFFF#48) : Statement i := by
  intro t e
  rw [h] at e
  injection e with e
  injection e with e
  rw [← e, m]
  exact ⟨recTop_record .., record_and_ones ..⟩

theorem of_address {i : Instr} {we : Bool} {off : BitVec 11} {align : BitVec 2}
    (h : encode i = some (.txn (record we off align 0#32))) (m : i.careMask = 0xFFFF00000000#48) : Statement i := by
  intro t e
  rw [h] at e
  injection e with e
  injection e with e
  rw [← e, m]
  exact ⟨recTop_record .., record_and_zero ..⟩

theorem of_none {i : Instr} (h : ∀ t, encode i ≠ some (.txn t)) : Statement i := fun t e => absurd e (h t)

theorem cmdNop : Statement .cmdNop := of_command rfl rfl
theorem cmdRun : Statement .cmdRun := of_command rfl rfl
theorem cmdRsvd2 : Statement .cmdRsvd2 := of_command rfl rfl
theorem cmdRsvd3 : Statement .cmdRsvd3 := of_command rfl rfl
theorem cmdRsvd4 : Statement .cmdRsvd4 := of_command rfl rfl
theorem cmdRsvd5 : Statement .cmdRsvd5 := of_command rfl rfl
theorem cmdRsvd6 : Statement .cmdRsvd6 := of_command rfl rfl
theorem cmdRsvd7 : Statement .cmdRsvd7 := of_command rfl rfl
theorem cmdRsvd8 : Statement .cmdRsvd8 := of_command rfl rfl
theorem cmdRsvd9 : Statement .cmdRsvd9 := of_command rfl rfl
theorem cmdRsvdA : Statement .cmdRsvdA := of_command rfl rfl
theorem cmdRsvdB : Statement .cmdRsvdB := of_command rfl rfl
theorem cmdRsvdC : Statement .cmdRsvdC := of_command rfl rfl
theorem cmdRsvdD : Statement .cmdRsvdD := of_command rfl rfl
theorem cmdRsvdE : Statement .cmdRsvdE := of_command rfl rfl
theorem cmdRsvdF : Statement .cmdRsvdF := of_command rfl rfl
theorem wrCount (v : Word) : Statement (.wrCount v) := of_record rfl rfl
theorem wrKey0 (v : Word) : Statement (.wrKey0 v) := of_record rfl rfl
theorem wrKey1 (v : Word) : Statement (.wrKey1 v) := of_record rfl rfl
theorem wrKey2 (v : Word) : Statement (.wrKey2 v) := of_record rfl rfl
theorem wrKey3 (v : Word) : Statement (.wrKey3 v) := of_record rfl rfl
theorem wrStatusRo : Statement .wrStatusRo := of_address rfl rfl
theorem wrInfoRo : Statement .wrInfoRo := of_address rfl rfl
theorem wrRoundsRo : Statement .wrRoundsRo := of_address rfl rfl
theorem wrDrawsRo : Statement .wrDrawsRo := of_address rfl rfl
theorem wrData (i : BitVec 10) (v : Word) : Statement (.wrData i v) := of_record rfl rfl
theorem rdCtrl : Statement .rdCtrl := of_address rfl rfl
theorem rdStatus : Statement .rdStatus := of_address rfl rfl
theorem rdCount : Statement .rdCount := of_address rfl rfl
theorem rdInfo : Statement .rdInfo := of_address rfl rfl
theorem rdKey0 : Statement .rdKey0 := of_address rfl rfl
theorem rdKey1 : Statement .rdKey1 := of_address rfl rfl
theorem rdKey2 : Statement .rdKey2 := of_address rfl rfl
theorem rdKey3 : Statement .rdKey3 := of_address rfl rfl
theorem rdRounds : Statement .rdRounds := of_address rfl rfl
theorem rdDraws : Statement .rdDraws := of_address rfl rfl
theorem rdData (i : BitVec 10) : Statement (.rdData i) := of_address rfl rfl
theorem buserrMisaligned1 (we : Bool) (off : BitVec 11) : Statement (.buserrMisaligned1 we off) := of_address rfl rfl
theorem buserrMisaligned2 (we : Bool) (off : BitVec 11) : Statement (.buserrMisaligned2 we off) := of_address rfl rfl
theorem buserrMisaligned3 (we : Bool) (off : BitVec 11) : Statement (.buserrMisaligned3 we off) := of_address rfl rfl
theorem buserrUnmapped (we : Bool) (off : BitVec 11) : Statement (.buserrUnmapped we off) := of_address rfl rfl
theorem seed : Statement .seed := of_none fun _ => by simp [encode]
theorem fill : Statement .fill := of_none fun _ => by simp [encode]
theorem encStep : Statement .encStep := of_none fun _ => by simp [encode]
theorem decStep : Statement .decStep := of_none fun _ => by simp [encode]
theorem prngSeed (s : DWord) : Statement (.prngSeed s) := of_none fun _ => by simp [encode]
theorem prngNext : Statement .prngNext := of_none fun _ => by simp [encode]

end Sys2Proof.Laws.EncodedRecord
end

