-- ==== Sys2Proof/Tests/Slice0.lean ====
section
/-! SUPPORT. The model's own tests: well-formedness, decoding, one step per instruction against the spec's examples and
95_test_vectors, and a witness for the hypotheses of every statement. -/

namespace Sys2Proof.Tests

open Sys2Proof Sys2Proof.Machine

/-! ## Helpers -/

/-- What an outcome's next state shows under `f`. -/
def seen {α : Type} (o : Host.Outcome State Fault Refusal) (f : State → α) : Option α :=
  match o with
  | .next t => some (f t)
  | .fault _ => none
  | .refused _ => none

/-- After reset, with the key {1, 2, 3, 4} of V-SEQ-1. -/
def keyed : State := { State.reset with key0 := 1#32, key1 := 2#32, key2 := 3#32, key3 := 4#32 }

/-- V-SEQ-1 at `CMD_RUN`: the words of the message and the count. -/
def loaded (w0 w1 c : Word) : State := { (keyed.setData 0 w0).setData 1 w1 with count := c }

/-- An operation of magnitude 2 under the key {1, 2, 3, 4} in the given PHASE. -/
def running (c : PhaseCode) (d : Bool) : State :=
  { loaded 0#32 0#32 2#32 with
    phase := c, dir := d, n := 2#32, rounds := 76#32, rnd := 76#32, prngX := 0x0000017ADAD677FD#64,
    prngS := 0x0000000700000003#64 }

/-- V-SEQ-1 after SEED of an encrypt. -/
def encrypting : State := running 0x3#4 false

/-- After SEED of a decrypt (V-KS, n = 2): KSPTR = 0, P = 1, SUM = 76 * DELTA. -/
def filling : State := { running 0x2#4 true with p := 1#32, sum := 0xF87822EC#32 }

/-- V-KS, n = 2, after the 152 FILLs: the cursor is above KS[151]. -/
def decrypting : State :=
  { ((filling.setData 0 0x41A63E9E#32).setData 1 0x5CB8DDDA#32).setKs 151 0x29919AA0#32 with
    phase := 0x4#4, ksptr := 152#32, draws := 152#32 }

/-- A faulted block (W2). -/
def faultedState : State := { State.reset with key3 := 5#32, count := 8#32, phase := 0xF#4, fault := true, err := 1#4 }

/-- The scenario of W1 before its first ENC_STEP. -/
def scenario : State :=
  { ((State.reset.setData 0 0x64636261#32).setData 1 0x68676665#32).setData 7 0x00343332#32 with
    key0 := 0xAABBCCDD#32, key1 := 0x1EEFF001#32, key2 := 0x22334455#32, key3 := 0x96677889#32, phase := 0x3#4,
    n := 8#32, rounds := 28#32, rnd := 28#32, prngX := 0x0000017ADAD677FD#64, prngS := 0xB4543CDCB4543CDD#64 }

/-- The first DEC_STEP of the scenario's decrypt (V-DEC-STEP). -/
def scenarioBack : State :=
  { (((scenario.setData 0 0xADFD2FC9#32).setData 6 0x5FBBF026#32).setData 7 0x2753D920#32).setKs 223 0x4403A5C8#32 with
    phase := 0x4#4, dir := true, p := 7#32, sum := 0x4E11503C#32, ksptr := 224#32, draws := 224#32 }

/-- A smaller block: N_MAX = 8, KS_DEPTH = 223 (R144's example). -/
def tight : Params := { nMax := 8, ksDepth := 223, x0 := Params.x0Exact }

/-! ## Well-formedness: each check refuses -/

theorem test_wf_refuses_write_beyond_window : (Instr.wrData 256#10 0#32).wf Params.default = false := by decide
theorem test_wf_accepts_last_word : (Instr.wrData 255#10 0#32).wf Params.default = true := by decide
theorem test_wf_refuses_read_beyond_window : (Instr.rdData 1023#10).wf Params.default = false := by decide
theorem test_wf_refuses_mapped_as_unmapped :
    (Instr.buserrUnmapped false 0x009#11).wf Params.default = false ∧
      (Instr.buserrUnmapped true 0x4FF#11).wf Params.default = false ∧
      (Instr.buserrUnmapped true 0x00A#11).wf Params.default = true ∧
      (Instr.buserrUnmapped false 0x3FF#11).wf Params.default = true ∧
      (Instr.buserrUnmapped false 0x500#11).wf Params.default = true := by decide

/-! ## Decoding: words written out from R70 to R73, R79, R80, R85 -/

/-- T[45] = 1, addr = 0x000, CMD in T[3:0]; T[31:4] is ignored (R72). -/
theorem test_decode_commands :
    [0x200000000000, 0x200000000001, 0x200000000002, 0x200000000003, 0x200000000004, 0x200000000005, 0x200000000006,
      0x200000000007, 0x200000000008, 0x200000000009, 0x20000000000A, 0x20000000000B, 0x20000000000C, 0x20000000000D,
      0x20000000000E, 0x20000000000F, 0x2000FFFFFFF1].map (decodeTableWord 48) =
    [some .cmdNop, some .cmdRun, some .cmdRsvd2, some .cmdRsvd3, some .cmdRsvd4, some .cmdRsvd5, some .cmdRsvd6,
      some .cmdRsvd7, some .cmdRsvd8, some .cmdRsvd9, some .cmdRsvdA, some .cmdRsvdB, some .cmdRsvdC, some .cmdRsvdD,
      some .cmdRsvdE, some .cmdRsvdF, some .cmdRun] := by decide

/-- R71's offsets with T[45] = 1. -/
theorem test_decode_writes :
    [0x200400000000, 0x200800000005, 0x200C00000001, 0x2010AABBCCDD, 0x20141EEFF001, 0x201822334455, 0x201C96677889,
      0x202000000001, 0x202400000001, 0x300000000001, 0x300CDEADBEEF, 0x33FCFFFFFFFF].map (decodeTableWord 48) =
    [some .wrStatusRo, some (.wrCount 5#32), some .wrInfoRo, some (.wrKey0 0xAABBCCDD#32),
      some (.wrKey1 0x1EEFF001#32), some (.wrKey2 0x22334455#32), some (.wrKey3 0x96677889#32), some .wrRoundsRo,
      some .wrDrawsRo, some (.wrData 0#10 1#32), some (.wrData 3#10 0xDEADBEEF#32),
      some (.wrData 255#10 0xFFFFFFFF#32)] := by decide

/-- R71's offsets with T[45] = 0. -/
theorem test_decode_reads :
    [0x000000000000, 0x000400000000, 0x000800000000, 0x000C00000000, 0x001000000000, 0x001400000000, 0x001800000000,
      0x001C00000000, 0x002000000000, 0x002400000000, 0x100000000000, 0x13FC00000000].map (decodeTableWord 48) =
    [some .rdCtrl, some .rdStatus, some .rdCount, some .rdInfo, some .rdKey0, some .rdKey1, some .rdKey2,
      some .rdKey3, some .rdRounds, some .rdDraws, some (.rdData 0#10), some (.rdData 255#10)] := by decide

/-- R142: addr[1:0] = 1, 2, 3; then 0x028, 0xFFC, 0x1400 and 0x1FFC at N_MAX = 256. -/
theorem test_decode_bus_errors :
    [0x200100000000, 0x000600000000, 0x3FFF00000000, 0x002800000000, 0x2FFC00000000, 0x140000000000,
      0x3FFC00000000].map (decodeTableWord 48) =
    [some (.buserrMisaligned1 true 0x000#11), some (.buserrMisaligned2 false 0x001#11),
      some (.buserrMisaligned3 true 0x7FF#11), some (.buserrUnmapped false 0x00A#11),
      some (.buserrUnmapped true 0x3FF#11), some (.buserrUnmapped false 0x500#11),
      some (.buserrUnmapped true 0x7FF#11)] := by decide

/-- R79: the codes of PHASE. -/
theorem test_decode_phases :
    [1, 2, 3, 4].map (decodeTableWord 4) = [some .seed, some .fill, some .encStep, some .decStep] ∧
      [0, 5, 14, 15, 16].map (decodeTableWord 4) = [none, none, none, none, none] := by decide

/-- R85: T[47:46] = 0. -/
theorem test_decode_refuses_top_bits :
    decodeTableWord 48 0x400000000000 = none ∧ decodeTableWord 48 0x800400000000 = none ∧
      decode Params.default (.phase 0x5#4) = .error .reservedPhase := by decide

/-! ## One step of each instruction -/

/-- R139's example: STATUS stays 0x00000002 after `nop`. -/
theorem test_nop_keeps_done :
    seen (exec .cmdNop { State.reset with done := true }) State.statusWord = some 0x00000002#32 := by decide

/-- V-SEQ-1: STATUS 0x00000101 and ROUNDS 76 after CMD_RUN with COUNT = 2. -/
theorem test_run_launches :
    seen (exec .cmdRun (loaded 0#32 0#32 2#32)) (fun t => (t.statusWord, t.rounds, t.n, t.draws)) =
      some (0x00000101#32, 76#32, 2#32, 0#32) := by decide

/-- W2: key {0, 0, 0, 5}, COUNT = -8: STATUS 0x00001F14. -/
theorem test_run_rejects_weak_key :
    seen (exec .cmdRun { State.reset with key3 := 5#32, count := 0xFFFFFFF8#32 }) State.statusWord =
      some 0x00001F14#32 := by decide

/-- R140's example: STATUS 0x00000F64. -/
theorem test_reserved_commands_fault :
    [Instr.cmdRsvd2, .cmdRsvd3, .cmdRsvd4, .cmdRsvd5, .cmdRsvd6, .cmdRsvd7, .cmdRsvd8, .cmdRsvd9, .cmdRsvdA, .cmdRsvdB,
      .cmdRsvdC, .cmdRsvdD, .cmdRsvdE, .cmdRsvdF].all
      (fun i => seen (exec i State.reset) State.statusWord == some 0x00000F64#32) = true := by decide

/-- R133: a write while BUSY sets WIGN alone. -/
theorem test_busy_write_is_ignored :
    seen (exec (.wrCount 9#32) encrypting) (fun t => (t.count, t.wign, t.statusWord)) =
      some (2#32, true, 0x00000309#32) := by decide

/-- R135, R136: each write reaches its own register. -/
theorem test_writes_reach_their_registers :
    seen (exec (.wrCount 1#32) State.reset) State.count = some 1#32 ∧
      seen (exec (.wrKey0 1#32) State.reset) (fun t => (t.key0, t.key1, t.key2, t.key3)) = some (1#32, 0#32, 0#32, 0#32) ∧
      seen (exec (.wrKey1 1#32) State.reset) (fun t => (t.key0, t.key1, t.key2, t.key3)) = some (0#32, 1#32, 0#32, 0#32) ∧
      seen (exec (.wrKey2 1#32) State.reset) (fun t => (t.key0, t.key1, t.key2, t.key3)) = some (0#32, 0#32, 1#32, 0#32) ∧
      seen (exec (.wrKey3 1#32) State.reset) (fun t => (t.key0, t.key1, t.key2, t.key3)) =
        some (0#32, 0#32, 0#32, 1#32) := by decide

/-- R134: a read-only write sets no WIGN, even while BUSY. -/
theorem test_read_only_writes :
    [Instr.wrStatusRo, .wrInfoRo, .wrRoundsRo, .wrDrawsRo].all
      (fun i => seen (exec i encrypting) (fun t => (t.wign, t.rsp.map Response.err)) == some (false, some false)) =
      true := by decide

/-- R137: the last word of the window, then one beyond it (R142). -/
theorem test_data_write :
    seen (exec (.wrData 255#10 0xDEADBEEF#32) State.reset) (fun t => (t.dataWord 255, t.data.map Prod.fst)) =
      some (0xDEADBEEF#32, [0x13FC, 0x13FD, 0x13FE, 0x13FF]) ∧
    seen (exec (.wrData 256#10 0xDEADBEEF#32) State.reset) (fun t => (t.data, t.rsp)) =
      some ([], some ⟨some 0#32, true⟩) := by decide

/-- R131: each register read answers its own register. -/
theorem test_register_reads :
    [Instr.rdCtrl, .rdStatus, .rdCount, .rdInfo, .rdKey0, .rdKey1, .rdKey2, .rdKey3, .rdRounds, .rdDraws].map
      (fun i => seen (exec i { keyed with count := 5#32, rounds := 6#32, draws := 7#32, done := true }) State.rsp) =
    [0#32, 2#32, 5#32, 0x0C800100#32, 1#32, 2#32, 3#32, 4#32, 6#32, 7#32].map
      (fun v => some (some ⟨some v, false⟩)) := by decide

/-- R137, R176: the word in IDLE, 0 while BUSY. -/
theorem test_data_read :
    seen (exec (.rdData 1#10) (loaded 1#32 0xCAFE0001#32 2#32)) State.rsp = some (some ⟨some 0xCAFE0001#32, false⟩) ∧
      seen (exec (.rdData 1#10) { loaded 1#32 0xCAFE0001#32 2#32 with phase := 0x1#4 }) State.rsp =
        some (some ⟨some 0#32, false⟩) := by decide

/-- R142: err = 1, rdata = 0, no WIGN while BUSY. -/
theorem test_bus_errors :
    [Instr.buserrMisaligned1 true 0#11, .buserrMisaligned2 true 0#11, .buserrMisaligned3 false 0#11,
      .buserrUnmapped true 0x00A#11].all
      (fun i => seen (exec i encrypting) (fun t => (t.rsp, t.wign)) == some (some ⟨some 0#32, true⟩, false)) =
      true := by decide

/-- V-SEQ-1 and V-KS: SEED of an encrypt and of a decrypt of magnitude 2. -/
theorem test_seed :
    seen (exec .seed (running 0x1#4 false)) (fun t => (t.prngS, t.prngX, t.rnd, t.sum, t.p, t.phase)) =
      some (0x0000000700000003#64, 0x0000017ADAD677FD#64, 76#32, 0#32, 0#32, 0x3#4) ∧
    seen (exec .seed (running 0x1#4 true)) (fun t => (t.sum, t.p, t.phase, t.ksptr)) =
      some (0xF87822EC#32, 1#32, 0x2#4, 0#32) := by decide

/-- V-KS: KS[0] = 0xFC6C4F32; the draw that reaches N * ROUNDS moves to DEC. -/
theorem test_fill :
    seen (exec .fill filling) (fun t => (t.ksWord 0, t.ksptr, t.draws, t.phase)) =
      some (0xFC6C4F32#32, 1#32, 1#32, 0x2#4) ∧
    seen (exec .fill { filling with ksptr := 151#32 }) (fun t => (t.ksptr, t.phase)) = some (152#32, 0x4#4) := by decide

/-- V-SEQ-1: the first ENC_STEP. -/
theorem test_enc_step :
    seen (exec .encStep encrypting) (fun t => (t.dataWord 0, t.sum, t.p, t.rnd, t.draws, t.prngX)) =
      some (0x625B368E#32, 0x9E3779B9#32, 1#32, 76#32, 1#32, 0xB739300CFC6C4F32#64) := by decide

/-- V-ENC-STEP: the first ENC_STEP of W1. -/
theorem test_enc_step_scenario : seen (exec .encStep scenario) (fun t => t.dataWord 0) = some 0x6BDE6F13#32 := by decide

/-- V-DEC-STEP: the first DEC_STEP of W1's decrypt. -/
theorem test_dec_step_scenario :
    seen (exec .decStep scenarioBack) (fun t => (t.dataWord 7, t.p, t.rnd, t.ksptr)) =
      some (0xE76EC81A#32, 6#32, 28#32, 223#32) := by decide

/-- R120, R121: the last DEC_STEP completes with SUM = 0. -/
theorem test_dec_step_completes :
    seen (exec .decStep { decrypting with p := 0#32, rnd := 1#32, ksptr := 1#32, sum := 0x9E3779B9#32 })
      (fun t => (t.statusWord, t.sum, t.rnd, t.p)) = some (0x00001002#32, 0#32, 0#32, 1#32) := by decide

/-- R87's example, and its precondition. -/
theorem test_prng_seed :
    seen (exec (.prngSeed 1#64) encrypting) (fun t => (t.prngS, t.prngX, t.prngW)) = some (1#64, 0#64, 0#64) ∧
      seen (exec (.prngSeed 2#64) encrypting) State.statusWord = some 0x00000F54#32 := by decide

/-- R88's example. -/
theorem test_prng_next :
    seen (exec .prngNext { State.reset with prngX := 0x0000017ADAD677FD#64, prngS := 1#64 })
      (fun t => (t.drawn, t.prngX, t.prngW)) = some (0xFC6C4F2B#32, 0xB739300AFC6C4F2B#64, 1#64) := by decide

/-- V-MX: key {01234567, 89ABCDEF, FEDCBA98, 76543210}. -/
theorem test_mx :
    mx 0x12345678#32 0x9ABCDEF0#32 0x9E3779B9#32 0x76543210#32 = 0x8D7C3847#32 ∧
      mx 0xFFFFFFFF#32 0xFFFFFFFF#32 0xFFFFFFFF#32 0x01234567#32 = 0x26DCBA8A#32 ∧
      mx 0x80000000#32 0x80000000#32 0x3C6EF372#32 0x76543210#32 = 0xA6C32582#32 ∧
      keyIndex 7#32 0#2 = 3#2 ∧ keyIndex 5#32 2#2 = 3#2 ∧ keyIndex 3#32 3#2 = 0#2 := by decide

/-- V-SEED: the two pairings and the constant. -/
theorem test_seed_of :
    seedOf 0xAABBCCDD#32 0x1EEFF001#32 0x22334455#32 0x96677889#32 = 0xB4543CDCB4543CDD#64 ∧
      seedOf 3#32 5#32 0#32 0#32 = 0x7#64 ∧ seedOf 5#32 5#32 7#32 7#32 = 0x0000000200000003#64 ∧
      seedOf 5#32 5#32 5#32 5#32 = 0x000000009E3779B9#64 := by decide

/-! ## The step -/

/-- A table word of each format runs as the first instruction after reset. -/
theorem test_first_step_after_reset :
    seen (step (State.reset.withFetchWord 48 0x201822334455)) State.key2 = some 0x22334455#32 ∧
      seen (step (State.reset.withFetchWord 4 0x1)) State.phase = some 0x3#4 ∧
      seen (step (State.reset.withFetchWord 8 0x4)) State.inbox = some [] := by decide

/-- R171: a reset while BUSY. -/
theorem test_reset_while_busy :
    seen (step { encrypting with inbox := [.reset, .engine] }) (fun t => (t.statusWord, t.key0, t.data, t.inbox)) =
      some (0#32, 0#32, [], [.engine]) := by decide

/-! ## Witnesses: states and operands that meet the hypotheses of the statements -/

theorem default_valid : Params.default.Valid := by decide
theorem tight_valid : tight.Valid := by decide

theorem reset_inv : Inv State.reset :=
  ⟨by decide, by decide, by decide, by decide, by decide, by decide, by decide, by decide, by decide, by decide⟩

theorem seeding_encrypt_inv : Inv (running 0x1#4 false) :=
  ⟨by decide, by decide, by decide, by decide, by decide, by decide, by decide, by decide, by decide, by decide⟩

theorem seeding_decrypt_inv : Inv (running 0x1#4 true) :=
  ⟨by decide, by decide, by decide, by decide, by decide, by decide, by decide, by decide, by decide, by decide⟩

theorem encrypting_inv : Inv encrypting :=
  ⟨by decide, by decide, by decide, by decide, by decide, by decide, by decide, by decide, by decide, by decide⟩

theorem filling_inv : Inv filling :=
  ⟨by decide, by decide, by decide, by decide, by decide, by decide, by decide, by decide, by decide, by decide⟩

theorem decrypting_inv : Inv decrypting :=
  ⟨by decide, by decide, by decide, by decide, by decide, by decide, by decide, by decide, by decide, by decide⟩

theorem faulted_inv : Inv faultedState :=
  ⟨by decide, by decide, by decide, by decide, by decide, by decide, by decide, by decide, by decide, by decide⟩

theorem witness_EncodedInstructionsDecodeBack :
    tight.Valid ∧ (Instr.wrData 7#10 5#32).wf tight = true ∧
      encode (.wrData 7#10 5#32) = some (.txn 0x301C00000005#48) ∧ (Instr.buserrUnmapped true 0x408#11).wf tight = true ∧
      encode (.buserrUnmapped true 0x408#11) = some (.txn 0x302000000000#48) ∧ encode .seed = some (.phase 1#4) ∧
      encode .prngNext = none := by decide

theorem witness_DecodedRecordsKeepTheirBits :
    Params.default.Valid ∧ decode Params.default (.txn 0x2000FFFFFFF1#48) = .ok .cmdRun ∧
      decode Params.default (.txn 0x13FC00000007#48) = .ok (.rdData 255#10) := by decide

theorem witness_OpcodeTableRowsDecode :
    tight.Valid ∧ (0x301C00000000#48 : Record).extractLsb' 46 2 = 0#2 ∧
      (0x301C00000000#48 : Record) &&& 0xF00300000000#48 = 0x300000000000#48 ∧
      (0x302000000000#48 : Record) &&& 0xF00300000000#48 = 0x300000000000#48 ∧
      ¬ tight.nMax ≤ ((0x301C00000000#48 : Record).extractLsb' 34 10).toNat ∧
      tight.nMax ≤ ((0x302000000000#48 : Record).extractLsb' 34 10).toNat ∧
      ∀ r ∈ opcodeRows, (0x002800000000#48 : Record) &&& r.mask ≠ r.pattern := by decide

theorem witness_StepRunsTheTransaction :
    ({ State.reset with inbox := [.txn 0x200000000001#48, .engine] } : State).inbox =
        .txn 0x200000000001#48 :: [.engine] ∧
      decode State.reset.params (.txn 0x200000000001#48) = .ok .cmdRun := by decide

theorem witness_EngineStepsExactlyWhileBusy :
    ∃ s t : State, (∃ rest, s.inbox = .engine :: rest ∧ t = { s with inbox := rest }) ∧ s.phase = 0x4#4 :=
  ⟨{ decrypting with inbox := [.engine] }, decrypting, ⟨[], rfl, rfl⟩, rfl⟩

/-- The quiet codes, the boundary codes of the reserved range, and nothing listed. -/
theorem witness_EngineSteps_quiet_and_reserved :
    (State.reset.inbox = [] ∧ State.reset.phase = 0x0#4) ∧ faultedState.phase = 0xF#4 ∧
      (5 ≤ ({ State.reset with phase := 0x5#4 } : State).phase.toNat ∧
        ({ State.reset with phase := 0xE#4 } : State).phase.toNat ≤ 14) := by decide

theorem witness_PlacedWordRunsNext :
    State.reset.params = Params.default ∧ decodeTableWord 48 0x300CDEADBEEF = some (.wrData 3#10 0xDEADBEEF#32) ∧
      decodeTableWord 4 0x2 = some .fill := by decide

theorem witness_ResetLeavesTheSpecValues :
    ∃ s t : State, s.inbox = .reset :: [] ∧ s.phase = 0xF#4 ∧ step s = .next t ∧ t.phase ≠ 0xF#4 :=
  ⟨{ faultedState with inbox := [.reset] }, _, rfl, rfl, rfl, by decide⟩

theorem witness_MemoryIsUnknownAfterReset :
    ({ decrypting with inbox := [.reset] } : State).inbox = .reset :: [] ∧ decrypting.data ≠ [] := by decide

theorem witness_EveryStepKeepsInv :
    (∃ t, Inv encrypting ∧ step encrypting = .next t) ∧ (∃ t, Inv filling ∧ step filling = .next t) ∧
      (∃ t, Inv decrypting ∧ step decrypting = .next t) ∧ (∃ t, Inv faultedState ∧ step faultedState = .next t) :=
  ⟨⟨_, encrypting_inv, rfl⟩, ⟨_, filling_inv, rfl⟩, ⟨_, decrypting_inv, rfl⟩, ⟨_, faulted_inv, rfl⟩⟩

theorem witness_InvStatesNeverStop :
    Inv { State.reset with inbox := [.txn 0x200000000001#48] } ∧
      InputSound { State.reset with inbox := [.txn 0x200000000001#48] } :=
  ⟨⟨by decide, by decide, by decide, by decide, by decide, by decide, by decide, by decide, by decide, by decide⟩,
    by decide⟩

theorem witness_ReadTransactionsAnswerByOffset :
    Params.default.Valid ∧ ({ encrypting with inbox := [.txn 0x13FC00000000#48] } : State).inbox =
        .txn 0x13FC00000000#48 :: [] ∧
      (0x13FC00000000#48 : Record).extractLsb' 46 2 = 0#2 ∧ (0x13FC00000000#48 : Record).getLsbD 45 = false := by decide

theorem witness_WriteTransactionsActByOffset :
    Params.default.Valid ∧ ({ State.reset with inbox := [.txn 0x33FC00000001#48] } : State).inbox =
        .txn 0x33FC00000001#48 :: [] ∧
      (0x33FC00000001#48 : Record).extractLsb' 46 2 = 0#2 ∧ (0x33FC00000001#48 : Record).getLsbD 45 = true := by decide

theorem witness_DataWindowReadsAndWrites :
    (255#10).toNat < State.reset.params.nMax ∧ State.reset.phase = 0x0#4 ∧
      (1 ≤ (running 0x1#4 false).phase.toNat ∧ decrypting.phase.toNat ≤ 4) ∧
      ¬ (1 ≤ faultedState.phase.toNat ∧ faultedState.phase.toNat ≤ 4) := by decide

theorem witness_RegisterWritesInIdle : (loaded 1#32 2#32 3#32).phase = 0x0#4 := by decide

theorem witness_GatedWritesSetOnlyWign :
    Claims.Gated faultedState (.wrData 255#10 1#32) ∧ faultedState.phase ≠ 0x0#4 ∧
      Claims.Gated encrypting .cmdRun ∧ encrypting.phase ≠ 0x0#4 :=
  ⟨by show (255#10).toNat < _; decide, by decide, trivial, by decide⟩

theorem witness_BusErrorsChangeNothing : State.reset.params.nMax ≤ (256#10).toNat := by decide

/-- The boundaries of R71: 0x028, 0xFFC, 0x1000 + 4*N_MAX, 0x1FFC, and a misaligned offset of a register. -/
theorem witness_UnmappedOffsetsAnswerBusError :
    Params.default.Valid ∧ ∀ r ∈ [0x002800000000#48, 0x0FFC00000000#48, 0x140000000000#48, 0x1FFC00000000#48,
      0x000500000000#48], (r : Record).extractLsb' 46 2 = 0#2 ∧ ¬ Claims.mapped State.reset (Claims.offset r) := by
  refine ⟨by decide, ?_⟩
  simp [Claims.mapped, Claims.offset, State.reset, Params.default]

theorem witness_NopDoesNothing : State.reset.phase = 0x0#4 ∧ faultedState.phase ≠ 0x0#4 := by decide

theorem witness_ReservedCommandsFault :
    Instr.cmdRsvd2 ∈ Claims.reservedCommands ∧ Instr.cmdRsvdF ∈ Claims.reservedCommands := by decide

/-- The hypotheses every clause of R143's statement shares; what CMD_RUN writes first and n are then determined. -/
theorem witness_RunFollowsItsChecks_common :
    ∃ b n, keyed.phase = 0x0#4 ∧ n = keyed.count.toInt.natAbs ∧ b =
      { keyed with
        wign := false, done := false, rounds := 0#32, draws := 0#32, dir := decide (keyed.count.toInt < 0) } :=
  ⟨_, _, by decide, rfl, rfl⟩

/-- One IDLE state for each clause, at the ends of its range: KEY_WEAK, COUNT_ONE, COUNT_RANGE, count 0, KS_ALLOC, and
the launches of 2 words and of 256 words in both directions. -/
theorem witness_RunFollowsItsChecks :
    (Claims.nonZeroKeys { State.reset with key3 := 5#32 } < 2 ∧ State.reset.phase = 0x0#4) ∧
      (2 ≤ Claims.nonZeroKeys keyed ∧ keyed.phase = 0x0#4) ∧
      ({ keyed with count := 0xFFFFFFFF#32 } : State).count.toInt.natAbs = 1 ∧
      keyed.params.nMax < ({ keyed with count := 257#32 } : State).count.toInt.natAbs ∧
      keyed.params.nMax < ({ keyed with count := 0x80000000#32 } : State).count.toInt.natAbs ∧
      keyed.count.toInt.natAbs = 0 ∧
      (({ keyed with count := 0xFFFFFFF8#32, params := tight } : State).count.toInt < 0 ∧
        (0xFFFFFFF8#32 : Word).toInt.natAbs = tight.nMax ∧ tight.ksDepth < 8 * (12 + 128 / 8)) ∧
      ((2#32 : Word).toInt.natAbs = 2 ∧ 0 ≤ (2#32 : Word).toInt) ∧
      ((0xFFFFFF00#32 : Word).toInt.natAbs = keyed.params.nMax ∧ 256 * (12 + 128 / 256) ≤ keyed.params.ksDepth) := by
  decide

theorem witness_LaunchPostconditions :
    ∃ t, (loaded 0#32 0#32 0xFFFFFFFE#32).params.Valid ∧ (loaded 0#32 0#32 0xFFFFFFFE#32).phase = 0x0#4 ∧
      exec .cmdRun (loaded 0#32 0#32 0xFFFFFFFE#32) = .next t ∧ t.phase = 0x1#4 :=
  ⟨_, by decide, by decide, rfl, by decide⟩

theorem witness_RunTouchesNoMessage :
    ∃ t, exec .cmdRun (loaded 1#32 2#32 1#32) = .next t ∧ t.fault = true ∧ (loaded 1#32 2#32 1#32).fault = false :=
  ⟨_, rfl, by decide, by decide⟩

theorem witness_InfoIsConstant : State.reset.params.Valid ∧ ∃ t, step encrypting = .next t := ⟨by decide, _, rfl⟩

theorem witness_PrngSeedClearsTheState :
    (0xFFFFFFFFFFFFFFFF#64 : DWord).getLsbD 0 = true ∧ (2#64 : DWord).getLsbD 0 = false := by decide

theorem witness_DegenerateStreamFromZero :
    1 ≤ (1#64 : DWord).toNat ∧ (1#64 : DWord).toNat < 2 ^ 32 ∧ 1 ≤ 2 ^ 32 - 1 ∧
      (2 ^ 32 - 1) * (1#64 : DWord).toNat < 2 ^ 32 := by decide

theorem witness_PrngOutputsDependOnSeedAndStart : encrypting.prngW = 0#64 := by decide

/-- Keys of the three paths (V-SEED). -/
theorem witness_SeedDerivation :
    ¬ ((1#32 : Word) = 2#32 ∧ (3#32 : Word) = 4#32) ∧
      ((5#32 : Word) = 5#32 ∧ (7#32 : Word) = 7#32 ∧ ¬ ((5#32 : Word) = 7#32 ∧ (5#32 : Word) = 7#32)) := by decide

theorem witness_StepInverseLaw :
    ∃ u, encrypting.params.Valid ∧ 2 ≤ encrypting.n.toNat ∧ encrypting.n.toNat ≤ encrypting.params.nMax ∧
      encrypting.p.toNat < encrypting.n.toNat ∧
      u = encrypting.setData encrypting.p.toNat (encrypting.dataWord encrypting.p.toNat + encrypting.whitened 1#32 2#32) :=
  ⟨_, by decide, by decide, by decide, by decide, rfl⟩

theorem witness_SeedStartsTheSweep :
    (running 0x1#4 false).dir = false ∧ (running 0x1#4 true).dir = true := by decide

theorem witness_FillStoresOneDraw :
    ({ filling with ksptr := 3199#32 } : State).ksptr.toNat < filling.params.ksDepth := by decide

/-- The first word and the last word of the last round. -/
theorem witness_EncStepUpdatesOneWord :
    encrypting.params.Valid ∧ 1 ≤ encrypting.n.toNat ∧ encrypting.n.toNat ≤ encrypting.params.nMax ∧
      encrypting.p.toNat < encrypting.params.nMax ∧ encrypting.p = 0#32 ∧
      ({ encrypting with p := 1#32, rnd := 1#32 } : State).p.toNat = encrypting.n.toNat - 1 ∧
      ({ encrypting with p := 1#32, rnd := 1#32 } : State).rnd - 1#32 = 0#32 := by decide

theorem witness_DecStepUndoesOneWord :
    decrypting.params.Valid ∧ 1 ≤ decrypting.n.toNat ∧ decrypting.n.toNat ≤ decrypting.params.nMax ∧
      decrypting.p.toNat < decrypting.params.nMax ∧ 1 ≤ decrypting.ksptr.toNat ∧
      decrypting.ksptr.toNat ≤ decrypting.params.ksDepth ∧
      ({ decrypting with ksptr := 3200#32 } : State).ksptr.toNat ≤ decrypting.params.ksDepth := by decide

/-- One state for each clause: N = 0; the next, the previous and the own word outside DATA; the keystream word outside KS. -/
theorem witness_MicroOpsStopOutsideTheirMemories :
    State.reset.n = 0#32 ∧
      256 ≤ (((255#32 : Word) + 1#32) % 1000#32).toNat ∧
      ((((0#32 : Word) + 1#32) % 1000#32).toNat < 256 ∧ 256 ≤ (((0#32 : Word) + 1000#32 - 1#32) % 1000#32).toNat) ∧
      ((((256#32 : Word) + 1#32) % 2#32).toNat < 256 ∧ (((256#32 : Word) + 2#32 - 1#32) % 2#32).toNat < 256 ∧
        256 ≤ (256#32 : Word).toNat) ∧
      filling.params.ksDepth ≤ ((0#32 : Word) - 1#32).toNat ∧ filling.params.ksDepth ≤ (3200#32 : Word).toNat ∧
      ((3200#32 : Word) - 1#32).toNat < filling.params.ksDepth := by decide

theorem witness_EngineLeavesHostRegisters :
    (∃ t, Instr.seed ∈ Claims.microOps ∧ exec .seed (running 0x1#4 true) = .next t) ∧
      (∃ t, Instr.fill ∈ Claims.microOps ∧ exec .fill filling = .next t) ∧
      (∃ t, Instr.encStep ∈ Claims.microOps ∧ exec .encStep encrypting = .next t) ∧
      (∃ t, Instr.decStep ∈ Claims.microOps ∧ exec .decStep decrypting = .next t) :=
  ⟨⟨_, by decide, rfl⟩, ⟨_, by decide, rfl⟩, ⟨_, by decide, rfl⟩, ⟨_, by decide, rfl⟩⟩

theorem witness_EncryptCompletesInItsSteps :
    Inv (running 0x1#4 false) ∧ (running 0x1#4 false).phase = 0x1#4 ∧ (running 0x1#4 false).dir = false ∧
      (running 0x1#4 false).inbox = [] := ⟨seeding_encrypt_inv, by decide, by decide, by decide⟩

theorem witness_DecryptCompletesInItsSteps :
    Inv (running 0x1#4 true) ∧ (running 0x1#4 true).phase = 0x1#4 ∧ (running 0x1#4 true).dir = true ∧
      (running 0x1#4 true).inbox = [] := ⟨seeding_decrypt_inv, by decide, by decide, by decide⟩

theorem witness_FillsHoldTheStreamInOrder :
    Inv (running 0x1#4 true) ∧ (running 0x1#4 true).phase = 0x1#4 ∧ (running 0x1#4 true).dir = true ∧
      (running 0x1#4 true).inbox = [] ∧ 152 ≤ (running 0x1#4 true).n.toNat * (running 0x1#4 true).rounds.toNat :=
  ⟨seeding_decrypt_inv, by decide, by decide, by decide, by decide⟩

/-- The smallest and the largest magnitude of the default block. -/
theorem witness_RoundTripRestoresTheMessage :
    keyed.params.Valid ∧ keyed.phase = 0x0#4 ∧ 2 ≤ Claims.nonZeroKeys keyed ∧ 2 ≤ keyed.params.nMax ∧
      2 * (12 + 128 / 2) ≤ keyed.params.ksDepth ∧ 256 ≤ keyed.params.nMax ∧
      256 * (12 + 128 / 256) ≤ keyed.params.ksDepth := by decide

theorem witness_FaultIsStickyUntilReset :
    faultedState.params.Valid ∧ faultedState.phase = 0xF#4 ∧ (∃ t, step faultedState = .next t) ∧
      faultedState.inbox = [] := ⟨by decide, by decide, ⟨_, rfl⟩, by decide⟩

theorem witness_HostCannotDisturbAnOperation :
    encrypting.busy = true ∧ ({ encrypting with inbox := [.txn 0x200000000001#48] } : State).inbox =
        .txn 0x200000000001#48 :: [] ∧
      (0x200000000001#48 : Record).extractLsb' 46 2 = 0#2 := by decide

theorem witness_FaultRisesOnlyByFaultEntry :
    ∃ s t : State, Inv s ∧ step s = .next t ∧ s.fault = false ∧ t.fault = true :=
  ⟨{ State.reset with inbox := [.txn 0x200000000001#48] }, _,
    ⟨by decide, by decide, by decide, by decide, by decide, by decide, by decide, by decide, by decide, by decide⟩,
    rfl, by decide, by decide⟩

/-- Two messages that differ. -/
theorem witness_MessageContentsSteerNothing :
    Claims.control (encrypting.setData 0 1#32) = Claims.control (encrypting.setData 0 2#32) ∧
      (encrypting.setData 0 1#32).data ≠ (encrypting.setData 0 2#32).data ∧
      ∃ t, step (encrypting.setData 0 1#32) = .next t := ⟨by decide, by decide, _, rfl⟩

end Sys2Proof.Tests
end

