-- ==== Sys2Proof/Proofs/StatusAndInfo.lean ====
section
/-! PROOFS. STATUS and INFO by their fields (30_encoding R73, R76), and the parameters as constants of every
step (10_state R24). -/

namespace Sys2Proof.Machine

/-! ## STATUS (R73) -/

/-- R73: the table of STATUS, bit by bit. -/
theorem State.getLsbD_statusWord (s : State) (i : Nat) :
    s.statusWord.getLsbD i =
      if i = 0 then s.busy else if i = 1 then s.done else if i = 2 then s.fault else if i = 3 then s.wign
      else if i < 8 then s.err.getLsbD (i - 4) else if i < 12 then s.phase.getLsbD (i - 8)
      else if i = 12 then s.dir else false := by
  simp only [State.statusWord, flagWord, BitVec.getLsbD_or, BitVec.getLsbD_shiftLeft, BitVec.getLsbD_setWidth,
    BitVec.getLsbD_ofBool]
  grind

/-- Settles O28: each field is read off the table of the bits; bit 0 is BUSY, which R16 reads off PHASE. -/
theorem statusWordLayout : Obligations.StatusWordLayout := by
  intro s
  have bit := s.getLsbD_statusWord
  refine ⟨?busy, bit 1, bit 2, bit 3, ?err, ?phase, bit 12, ?reserved⟩
  case busy => rw [bit 0]; exact s.busy_iff_toNat
  case err | phase | reserved => ext i hi; simp only [BitVec.getElem_extractLsb', bit]; grind

/-! ## INFO (R76) -/

/-- R76: INFO as a number; a capacity of 17 bits or more would run into the other half. -/
theorem State.infoWord_toNat (s : State) (hn : s.params.nMax < 2 ^ 16) (hk : s.params.ksDepth < 2 ^ 16) :
    s.infoWord.toNat = s.params.ksDepth * 2 ^ 16 + s.params.nMax := by
  have hlow : (BitVec.ofNat 32 s.params.nMax).toNat = s.params.nMax := by
    rw [BitVec.toNat_ofNat]; omega
  have hhigh : (BitVec.ofNat 32 s.params.ksDepth <<< 16).toNat = s.params.ksDepth <<< 16 := by
    simp only [BitVec.toNat_shiftLeft, BitVec.toNat_ofNat, Nat.shiftLeft_eq]
    omega
  rw [State.infoWord, BitVec.toNat_or, hlow, hhigh, Nat.or_comm, ← Nat.shiftLeft_add_eq_or_of_lt hn, Nat.shiftLeft_eq]

theorem State.infoWord_congr {s t : State} (h : t.params = s.params) : t.infoWord = s.infoWord := by
  simp only [State.infoWord, h]

/-! ## The parameters (R5, R24) -/

@[simp] theorem State.run_params (s : State) : s.run.params = s.params := by
  rcases s.run_cases with ⟨_, -, -, e⟩ | ⟨-, e⟩ | ⟨-, -, -, -, e⟩ <;> rw [e] <;> rfl

@[simp] theorem State.launchSweep_params (s : State) : s.launchSweep.params = s.params := by
  rw [State.launchSweep, State.startSweep_params]
  rfl

theorem IdleEffect.params {s u : State} (h : IdleEffect s u) : u.params = s.params := by
  rcases h with rfl | rfl | rfl | ⟨_, rfl⟩ | ⟨_, rfl⟩ | ⟨_, rfl⟩ | ⟨_, rfl⟩ | ⟨_, rfl⟩ | ⟨_, _, _, rfl⟩
  case inr.inl => exact s.run_params
  all_goals rfl

theorem EngineTurn.params {s u : State} (h : EngineTurn s u) : u.params = s.params := by
  rcases h with ⟨_, rfl⟩ | ⟨_, _, rfl⟩ <;> rfl

/-- A transaction keeps the parameters. -/
theorem exec_txn_params {p : Params} {r : Record} {i : Instr} {s t : State} (d : decodeTxn p r = .ok i)
    (h : exec i s = .next t) : t.params = s.params := by
  obtain ⟨t', h', hcases⟩ := exec_host_cases d s
  obtain rfl : t' = t := by rw [h'] at h; injection h
  rcases hcases with ⟨_, rfl⟩ | ⟨_, rfl⟩ | ⟨_, u, hu, rfl⟩
  · rfl
  · rfl
  · exact hu.params

/-- A micro-op keeps the parameters. -/
theorem exec_microOp_params {c : PhaseCode} {i : Instr} {s t : State} (d : decodePhase c = .ok i)
    (h : exec i s = .next t) : t.params = s.params := by
  rcases decodePhase_ok d with ⟨-, rfl⟩ | ⟨-, rfl⟩ | ⟨-, rfl⟩ | ⟨-, rfl⟩
  · rw [exec_seed] at h
    injection h with h
    rw [← h, State.launchSweep_params]
  · obtain ⟨-, rfl⟩ := exec_fill h
    exact s.fillWord_params
  · obtain ⟨-, rfl⟩ := exec_encStep h
    rw [State.encAdvance_params, State.encUpdate_params]
  · obtain ⟨-, -, rfl⟩ := exec_decStep h
    rw [State.decAdvance_params, State.decUpdate_params]

/-- No step changes the parameters, whatever state it starts from. -/
theorem step_params {s t : State} (h : step s = .next t) : t.params = s.params := by
  rcases step_cases h with ⟨rest, -, rfl⟩ | ⟨r, rest, i, -, hd, hx⟩ | ⟨u, i, hu, hd, hx⟩ | ⟨hu, -⟩
  · rfl
  · exact exec_txn_params (s := { s with inbox := rest }) hd hx
  · exact (exec_microOp_params hd hx).trans hu.params
  · exact hu.params

/-- Settles O29: both capacities fit in 16 bits, so the halves hold them, and INFO is a function of the parameters. -/
theorem infoIsConstant : Obligations.InfoIsConstant := by
  intro s hvalid
  obtain ⟨-, hn, -, hk, -⟩ := hvalid
  have hinfo := s.infoWord_toNat (by omega) (by omega)
  refine ⟨?nMax, ?ksDepth, fun t h => ⟨step_params h, State.infoWord_congr (step_params h)⟩⟩
  case nMax | ksDepth => rw [BitVec.extractLsb'_toNat, hinfo, Nat.shiftRight_eq_div_pow]; omega

end Sys2Proof.Machine
end

