-- ==== Sys2Proof/Proofs/Prng.lean ====
section
/-! PROOFS. PRNG_NEXT (40_prng R88). -/

namespace Sys2Proof.Machine

theorem exec_prngNext (s : State) : exec .prngNext s = .next s.draw := rfl

/-- R88: W after a draw is W + S, and X the halves of X * X + (W + S) exchanged. -/
theorem prngAdvance_eq_square (s : State) :
    prngAdvance s.prngX s.prngW s.prngS =
      (lo32 (Claims.square s) ++ hi32 (Claims.square s), s.prngW + s.prngS) := by
  rw [← swap32_eq]
  rfl

/-- R88: the output of a draw is the half that was high before the swap. -/
theorem State.drawn_draw (s : State) : s.draw.drawn = hi32 (Claims.square s) := by
  rw [State.drawn, State.draw_prngX, prngAdvance_eq_square, ← swap32_eq, lo32_swap32]

/-- Settles O31: the state after the draw is the swap written as its two halves, and the output is the low one. -/
theorem prngNextDrawsOneOutput : Obligations.PrngNextDrawsOneOutput := by
  intro s
  refine ⟨s.draw, exec_prngNext s, ?state, s.drawn_draw, rfl⟩
  case state => rw [State.draw, prngAdvance_eq_square]; rfl

end Sys2Proof.Machine
end

