-- ==== Sys2Proof/Proofs/CipherDatapath.lean ====
section
/-! PROOFS. The seed and the round count (41_cipher_datapath R102, R103). -/

namespace Sys2Proof.Machine

/-! ## The seed (R103) -/

/-- A pairing of the key words is 0 exactly when both its pairs are equal. -/
theorem pack_xor_eq_zero_iff (a b c d : Word) : pack (a ^^^ b) (c ^^^ d) = 0#64 ↔ a = b ∧ c = d := by
  rw [pack_eq_zero_iff, xor_eq_zero_iff_eq, xor_eq_zero_iff_eq]

/-- R103: the value `seedOf` makes odd, chosen by which key words are equal. -/
def seedBase (k0 k1 k2 k3 : Word) : DWord :=
  if k0 = k1 ∧ k2 = k3 then
    if k0 = k2 ∧ k1 = k3 then delta.setWidth 64 else pack (k0 ^^^ k2) (k1 ^^^ k3)
  else pack (k0 ^^^ k1) (k2 ^^^ k3)

/-- R103's tests of the pairings for 0 are `seedBase`'s tests of the key words for equality. -/
theorem seedBase_eq (k0 k1 k2 k3 : Word) :
    seedBase k0 k1 k2 k3 =
      if pack (k0 ^^^ k1) (k2 ^^^ k3) ≠ 0#64 then pack (k0 ^^^ k1) (k2 ^^^ k3)
      else if pack (k0 ^^^ k2) (k1 ^^^ k3) ≠ 0#64 then pack (k0 ^^^ k2) (k1 ^^^ k3)
      else delta.setWidth 64 := by
  simp only [seedBase, ne_eq, ite_not, pack_xor_eq_zero_iff]

theorem seedOf_eq_seedBase (k0 k1 k2 k3 : Word) :
    seedOf k0 k1 k2 k3 =
      if (seedBase k0 k1 k2 k3).getLsbD 0 then seedBase k0 k1 k2 k3 else seedBase k0 k1 k2 k3 + 1#64 := by
  rw [seedBase_eq, seedOf]

/-- Settles O35: the value chosen is `seedBase`, one branch per clause; made odd, it cannot be 0. -/
theorem seedDerivation : Obligations.SeedDerivation := by
  intro k0 k1 k2 k3
  have hodd := seedOf_odd k0 k1 k2 k3
  refine ⟨seedBase k0 k1 k2 k3, ?first, ?second, ?constant, seedOf_eq_seedBase k0 k1 k2 k3, hodd, ne_zero_of_odd hodd⟩
  case first => intro h1; rw [seedBase, if_neg h1, pack_eq]
  case second => intro h1 h2; rw [seedBase, if_pos h1, if_neg h2, pack_eq]
  case constant => intro h1 h2; rw [seedBase, if_pos h1, if_pos h2]; rfl

/-! ## The round count (R102) -/

theorem roundsOf_eq_thirteen {n : Nat} (h : 65 ≤ n) (h' : n ≤ 128) : roundsOf n = 13 := by
  have hdiv : 128 / n = 1 := Nat.div_eq_of_lt_le (by omega) (by omega)
  rw [roundsOf, hdiv]

theorem roundsOf_eq_twelve {n : Nat} (h : 129 ≤ n) : roundsOf n = 12 := by
  rw [roundsOf, Nat.div_eq_of_lt h]

/-- Settles O36: the quotient is 1 from 65 to 128 and 0 from 129; the bound is that `n` times it is at most 128. -/
theorem roundCountAndLength : Obligations.RoundCountAndLength :=
  ⟨rfl, rfl, rfl, rfl, rfl, rfl, rfl, rfl, rfl, rfl, fun _ => roundsOf_eq_thirteen, fun _ => roundsOf_eq_twelve,
    fun n _ => ⟨rfl, rfl, streamLength_le n⟩⟩

end Sys2Proof.Machine
end

