-- ==== Sys2Proof/Proofs/Sequencer.lean ====
section
/-! PROOFS. The micro-ops SEED and FILL (42_sequencer R117, R118). -/

namespace Sys2Proof.Machine

/-! ## FILL (R118) -/

/-- FILL completes wherever its index lies inside the keystream RAM. -/
theorem exec_fill_of_lt {s : State} (h : s.ksptr.toNat < s.params.ksDepth) : exec .fill s = .next s.fillWord :=
  if_neg (Nat.not_le.mpr h)

/-- R88: the state after a draw, with the square of R88 written as its two halves exchanged. -/
theorem State.draw_eq_square (s : State) :
    s.draw = { s with
      prngW := s.prngW + s.prngS, prngX := lo32 (Claims.square s) ++ hi32 (Claims.square s) } := by
  rw [State.draw, prngAdvance_eq_square]

/-- R118: FILL is one draw stored at KS[KSPTR], with KSPTR, DRAWS and PHASE moved on. -/
theorem State.fillWord_eq (s : State) :
    s.fillWord = { s.draw.setKs s.ksptr.toNat (hi32 (Claims.square s)) with
      ksptr := s.ksptr + 1#32, draws := s.draws + 1#32,
      phase := if s.ksptr + 1#32 = s.n * s.rounds then Phase.dec else s.phase } := by
  rw [State.fillWord, State.drawn_draw]

/-- The keystream word FILL stores is the output of its draw (R88, R118). -/
theorem State.fillWord_ksWord_ksptr (s : State) : s.fillWord.ksWord s.ksptr.toNat = hi32 (Claims.square s) := by
  rw [State.fillWord_eq]
  exact s.draw.ksWord_setKs_same _ _

/-- FILL stores inside the word at KSPTR alone. -/
theorem State.fillWord_ksByte_of_outside (s : State) {a : Nat}
    (h : a < ksAddr s.ksptr.toNat ∨ ksAddr s.ksptr.toNat + 4 ≤ a) : s.fillWord.ksByte a = s.ksByte a :=
  s.draw.ksByte_setKs h

/-- Settles O39: FILL is a draw and a store to the keystream RAM; the rules of both give its registers and its frame. -/
theorem fillStoresOneDraw : Obligations.FillStoresOneDraw := by
  intro s hin
  refine ⟨s.fillWord, exec_fill_of_lt hin, ?registers, s.fillWord_ksWord_ksptr,
    fun _ => s.fillWord_ksByte_of_outside, s.fillWord_dataByte⟩
  case registers => rw [State.fillWord_eq, State.draw_eq_square]; rfl

/-! ## SEED (R117) -/

/-- The sweep of an encrypt starts at word 0 with the sum 0. -/
theorem State.startSweep_of_encrypt {s : State} (h : s.dir = false) :
    s.startSweep = { s with sum := 0#32, p := 0#32, phase := Phase.enc } := by
  rw [State.startSweep, h]; rfl

/-- The sweep of a decrypt starts at word N - 1 with the sum of the last round, after the keystream is filled. -/
theorem State.startSweep_of_decrypt {s : State} (h : s.dir = true) :
    s.startSweep = { s with sum := s.rounds * delta, p := s.n - 1#32, phase := Phase.fill } := by
  rw [State.startSweep, h]; rfl

/-- Settles O38: no key fails SEED's test (`exec_seed`), so only the direction decides how the sweep starts. -/
theorem seedStartsTheSweep : Obligations.SeedStartsTheSweep := by
  rintro s _ rfl
  rw [exec_seed, State.launchSweep]
  constructor
  case left => intro hdir; rw [State.startSweep_of_encrypt (by exact hdir)]; rfl
  case right => intro hdir; rw [State.startSweep_of_decrypt (by exact hdir)]; rfl

end Sys2Proof.Machine
end

