-- ==== Sys2Proof/Proofs/HostInterface.lean ====
section
/-! PROOFS. The host interface (43_host_interface): what a transaction at each offset answers and does (R131 to R137,
R142), and the commands (R138 to R143). -/

namespace Sys2Proof.Machine

open Claims

/-! ## Writes that complete (R132) -/

/-- R70: the model's write without error is one of the outcomes that `Completes` admits. -/
theorem completes_of_answerWrite {i : Instr} {s u : State} (h : exec i s = .next u.answerWrite) :
    Completes (exec i s) u :=
  ⟨none, h⟩

/-- R132: in IDLE a gated write completes with its effect. -/
theorem completes_of_idle {i : Instr} {s : State} {f : State → State} (h : exec i s = .next (s.gatedWrite f))
    (hp : s.phase = 0#4) : Completes (exec i s) (f s) :=
  completes_of_answerWrite (by rw [h, State.gatedWrite_idle hp])

/-- R133: in any other PHASE a gated write completes with WIGN set. -/
theorem completes_of_not_idle {i : Instr} {s : State} {f : State → State} (h : exec i s = .next (s.gatedWrite f))
    (hp : s.phase ≠ 0#4) : Completes (exec i s) { s with wign := true } :=
  completes_of_answerWrite (u := s.markIgnored) (by rw [h, State.gatedWrite_ignored hp])

/-- The gate looks at its effect in the one state only. -/
theorem State.gatedWrite_congr {s : State} {f g : State → State} (h : f s = g s) : s.gatedWrite f = s.gatedWrite g := by
  rw [State.gatedWrite, h, ← State.gatedWrite]

/-- R133: the writes it names are the ones that go through the gate. -/
theorem exec_gated {s : State} {i : Instr} (h : Gated s i) : ∃ f, exec i s = .next (s.gatedWrite f) := by
  cases i with
  | wrData i v => exact ⟨_, if_pos h⟩
  | cmdNop | cmdRun | cmdRsvd2 | cmdRsvd3 | cmdRsvd4 | cmdRsvd5 | cmdRsvd6 | cmdRsvd7 | cmdRsvd8 | cmdRsvd9
  | cmdRsvdA | cmdRsvdB | cmdRsvdC | cmdRsvdD | cmdRsvdE | cmdRsvdF
  | wrCount | wrKey0 | wrKey1 | wrKey2 | wrKey3 => exact ⟨_, rfl⟩
  | wrStatusRo | wrInfoRo | wrRoundsRo | wrDrawsRo
  | rdCtrl | rdStatus | rdCount | rdInfo | rdKey0 | rdKey1 | rdKey2 | rdKey3 | rdRounds | rdDraws | rdData
  | buserrMisaligned1 | buserrMisaligned2 | buserrMisaligned3 | buserrUnmapped
  | seed | fill | encStep | decStep | prngSeed | prngNext => exact h.elim

/-- Settles O19: every write of R133 goes through the gate. -/
theorem gatedWritesSetOnlyWign : Obligations.GatedWritesSetOnlyWign := by
  intro s i hgated hphase
  obtain ⟨_, h⟩ := exec_gated hgated
  exact completes_of_not_idle h hphase

/-- Settles O17: each register write is the gate around the write of its register. -/
theorem registerWritesInIdle : Obligations.RegisterWritesInIdle := by
  intro s v hphase
  refine ⟨?count, ?key0, ?key1, ?key2, ?key3⟩
  case count => exact completes_of_idle (f := fun t => { t with count := v }) rfl hphase
  case key0 => exact completes_of_idle (f := fun t => { t with key0 := v }) rfl hphase
  case key1 => exact completes_of_idle (f := fun t => { t with key1 := v }) rfl hphase
  case key2 => exact completes_of_idle (f := fun t => { t with key2 := v }) rfl hphase
  case key3 => exact completes_of_idle (f := fun t => { t with key3 := v }) rfl hphase

/-- Settles O20: a write of a read-only register is its answer alone. -/
theorem readOnlyWritesChangeNothing : Obligations.ReadOnlyWritesChangeNothing := fun _ =>
  ⟨completes_of_answerWrite rfl, completes_of_answerWrite rfl, completes_of_answerWrite rfl,
    completes_of_answerWrite rfl⟩

/-! ## CMD_NOP and the reserved commands (R139, R140) -/

/-- Settles O23: CMD_NOP is the gate around no effect. -/
theorem nopDoesNothing : Obligations.NopDoesNothing := fun _ =>
  ⟨completes_of_idle (f := id) rfl, completes_of_not_idle (f := id) rfl⟩

/-- R140: the reserved commands are one operation. -/
theorem exec_reserved {i : Instr} (h : i ∈ reservedCommands) (s : State) :
    exec i s = .next (s.gatedWrite State.badCommand) := by
  fin_cases h <;> rfl

/-- Settles O24: a reserved command is the gate around the fault BAD_CMD. -/
theorem reservedCommandsFault : Obligations.ReservedCommandsFault := fun s _ hi =>
  ⟨completes_of_idle (exec_reserved hi s), completes_of_not_idle (exec_reserved hi s)⟩

/-! ## CMD_RUN (R143) -/

/-- R143's tests in their order: the key, the count, the capacity, the no-op, and the keystream of a decrypt. -/
theorem State.run_eq (s : State) :
    s.run =
      if nonZeroKeys s < 2 then faulted s.beginRun 1#4
      else if magnitude s.count = 1 then faulted s.beginRun 2#4
      else if s.params.nMax < magnitude s.count then faulted s.beginRun 3#4
      else if magnitude s.count = 0 then { s.beginRun with done := true }
      else if s.count.toInt < 0 ∧ s.params.ksDepth < streamLength (magnitude s.count) then faulted s.beginRun 4#4
      else s.beginRun.launch (magnitude s.count) := by
  have hkey : keyOk s.key0 s.key1 s.key2 s.key3 = false ↔ nonZeroKeys s < 2 := by
    rw [← Bool.not_eq_true, keyOk_iff, Nat.not_le]; rfl
  have hdir : negative s.count = true ↔ s.count.toInt < 0 := decide_eq_true_iff
  simp only [State.run, State.runChecked, State.beginRun_key0, State.beginRun_key1, State.beginRun_key2,
    State.beginRun_key3, State.beginRun_params, State.beginRun_dir, hkey, hdir]
  rfl

/-- Settles O25: each clause decides the tests of `State.run_eq` up to the one that stops, or all of them. -/
theorem runFollowsItsChecks : Obligations.RunFollowsItsChecks := by
  intro s b hphase hb n hn
  obtain rfl : b = s.beginRun := hb
  obtain rfl : n = magnitude s.count := hn
  have completes : ∀ {u}, s.run = u → Completes (exec .cmdRun s) u := by
    rintro _ rfl
    exact completes_of_idle rfl hphase
  refine ⟨fun hkey => completes ?keyWeak, fun hkey hone => completes ?countOne,
    fun hkey hone hmax => completes ?countRange, fun hkey hzero => completes ?nothing,
    fun hkey htwo hmax hneg hks => completes ?ksAlloc, fun hkey htwo hmax hks => completes ?launch⟩ <;> rw [State.run_eq]
  case keyWeak => rw [if_pos hkey]
  case countOne => rw [if_neg (by omega), if_pos hone]
  case countRange => rw [if_neg (by omega), if_neg hone, if_pos hmax]
  case nothing => rw [if_neg (by omega), if_neg (by omega), if_neg (by omega), if_pos hzero]
  case ksAlloc =>
    rw [if_neg (by omega), if_neg (by omega), if_neg (by omega), if_neg (by omega), if_pos ⟨hneg, hks⟩]
  case launch =>
    have hfits : ¬ (s.count.toInt < 0 ∧ s.params.ksDepth < streamLength (magnitude s.count)) := by
      rw [streamLength, roundsOf]; omega
    rw [if_neg (by omega), if_neg (by omega), if_neg (by omega), if_neg (by omega), if_neg hfits]
    rfl

/-! ## The DATA window (R137, R176) -/

theorem exec_wrData_of_lt {s : State} {i : BitVec 10} (h : i.toNat < s.params.nMax) (v : Word) :
    exec (.wrData i v) s = .next (s.gatedWrite fun t => t.setData i.toNat v) :=
  if_pos h

theorem exec_rdData_of_lt {s : State} {i : BitVec 10} (h : i.toNat < s.params.nMax) :
    exec (.rdData i) s = .next (s.answerRead (s.visibleWord i.toNat)) :=
  if_pos h

theorem State.visibleWord_of_busy {s : State} (h : s.busy = true) (i : Nat) : s.visibleWord i = 0#32 :=
  if_pos h

theorem State.visibleWord_of_not_busy {s : State} (h : ¬ s.busy = true) (i : Nat) : s.visibleWord i = s.dataWord i :=
  if_neg h

/-- Settles O18: a write is `setData`, whose rules give the word read back and the frame; a read is `visibleWord`. -/
theorem dataWindowReadsAndWrites : Obligations.DataWindowReadsAndWrites := by
  intro s i v hi
  rw [← s.busy_iff_toNat, exec_rdData_of_lt hi]
  refine ⟨fun hidle => ?write, fun hbusy => ?masked, fun hfree => ?plain⟩
  case write =>
    refine ⟨(s.setData i.toNat v).answerWrite, ?_, ⟨none, rfl⟩, ?_, fun a ha => ?_⟩
    · rw [exec_wrData_of_lt hi, State.gatedWrite_idle hidle]
    · rw [State.answerWrite_dataWord, State.dataWord_setData_same]
    · rw [State.answerWrite_dataByte, State.dataByte_setData s ha]
  case masked => rw [State.visibleWord_of_busy hbusy]; rfl
  case plain => rw [State.visibleWord_of_not_busy hfree]; rfl

/-! ## The offsets of a record (R71) -/

/-- R71: the ten word offsets of the registers. -/
theorem register_offset_cases {off : BitVec 11} (h : off.toNat < 0xA) :
    off = 0x000#11 ∨ off = 0x001#11 ∨ off = 0x002#11 ∨ off = 0x003#11 ∨ off = 0x004#11 ∨ off = 0x005#11 ∨
      off = 0x006#11 ∨ off = 0x007#11 ∨ off = 0x008#11 ∨ off = 0x009#11 := by
  bv_omega

theorem lower_of_register {off : BitVec 11} (h : off.toNat < 0xA) : off.getLsbD 10 = false :=
  Nat.testBit_lt_two_pow (by omega)

/-- R71: the index of a DATA word from its offset. -/
theorem dataAddr_index (i : Nat) : (dataAddr i - 0x1000) / 4 = i := by rw [dataAddr]; omega

/-- R50, R71: a record is misaligned, or in the DATA half of the offsets, or in the lower half. -/
theorem record_cases {t : Record} (h : recTop t = 0#2) :
    (∃ off align v, align ≠ 0#2 ∧ t = record (recWe t) off align v) ∨
    (∃ i v, t = record (recWe t) (dataOffset i) 0#2 v) ∨
    ∃ off v, off.getLsbD 10 = false ∧ t = record (recWe t) off 0#2 v := by
  have ht := (record_of_fields h).symm
  by_cases halign : recAlign t = 0#2
  · rw [halign] at ht
    cases hupper : (recOff t).getLsbD 10 with
    | true =>
      rw [eq_dataOffset_of_upper hupper] at ht
      exact .inr (.inl ⟨_, _, ht⟩)
    | false => exact .inr (.inr ⟨_, _, hupper, ht⟩)
  · exact .inl ⟨_, _, _, halign, ht⟩

/-- The offset of a record of fields. -/
theorem offset_record (we : Bool) (off : BitVec 11) (align : BitVec 2) (v : Word) :
    offset (record we off align v) = 4 * off.toNat + align.toNat :=
  toNat_offset_record we off align v

theorem offset_register (we : Bool) (off : BitVec 11) (v : Word) : offset (record we off 0#2 v) = 4 * off.toNat :=
  offset_record we off 0#2 v

theorem offset_window (we : Bool) (i : BitVec 10) (v : Word) :
    offset (record we (dataOffset i) 0#2 v) = dataAddr i.toNat := by
  rw [offset_register, dataOffset_toNat, dataAddr]; omega

theorem mapped_register {off : BitVec 11} (h : off.toNat < 0xA) (s : State) : mapped s (4 * off.toNat) :=
  ⟨by omega, .inl (by omega)⟩

theorem mapped_dataAddr {s : State} {i : Nat} : mapped s (dataAddr i) ↔ i < s.params.nMax := by
  rw [mapped, dataAddr]; omega

/-- R71: a mapped transaction is an access of a register or of a DATA word. -/
theorem record_cases_of_mapped {s : State} {t : Record} (h : recTop t = 0#2) (hm : mapped s (offset t)) :
    (∃ off v, off.toNat < 0xA ∧ t = record (recWe t) off 0#2 v) ∨
    ∃ i v, i.toNat < s.params.nMax ∧ t = record (recWe t) (dataOffset i) 0#2 v := by
  rcases record_cases h with ⟨off, align, v, halign, ht⟩ | ⟨i, v, ht⟩ | ⟨off, v, hlower, ht⟩
  · rw [ht, offset_record] at hm
    obtain ⟨hmod, -⟩ := hm
    exact absurd (BitVec.eq_of_toNat_eq (y := 0#2) (by bv_omega)) halign
  · rw [ht, offset_window, mapped_dataAddr] at hm
    exact .inr ⟨i, v, hm, ht⟩
  · rw [ht, offset_register, mapped] at hm
    have hlt := off_lt_of_lower hlower
    exact .inl ⟨off, v, by omega, ht⟩

/-! ## Offsets without a register (R142) -/

theorem ne_register_of_unmapped {off k : BitVec 11} (h : 0xA ≤ off.toNat) (hk : k.toNat < 0xA) : off ≠ k := by
  rintro rfl; omega

theorem decodeWrite_of_unmapped {off : BitVec 11} (h : 0xA ≤ off.toNat) (v : Word) :
    decodeWrite (record true off 0#2 v) = .buserrUnmapped true off := by
  simp [decodeWrite, ne_register_of_unmapped h]

theorem decodeRead_of_unmapped {off : BitVec 11} (h : 0xA ≤ off.toNat) (v : Word) :
    decodeRead (record false off 0#2 v) = .buserrUnmapped false off := by
  simp [decodeRead, ne_register_of_unmapped h]

/-- R142: a transaction at an offset that is not mapped is a bus error, read or write. -/
theorem busError_of_not_mapped {s : State} {t : Record} (h : recTop t = 0#2) (hm : ¬ mapped s (offset t)) :
    ∃ i, decodeTxn s.params t = .ok i ∧ exec i s = .next s.answerBusError := by
  rcases record_cases h with ⟨off, align, v, halign, ht⟩ | ⟨j, v, ht⟩ | ⟨off, v, hlower, ht⟩ <;> rw [ht] at hm ⊢
  · rcases align_cases align with rfl | rfl | rfl | rfl
    · exact absurd rfl halign
    · exact ⟨_, decodeTxn_misaligned1 _ _ _ _, rfl⟩
    · exact ⟨_, decodeTxn_misaligned2 _ _ _ _, rfl⟩
    · exact ⟨_, decodeTxn_misaligned3 _ _ _ _, rfl⟩
  · rw [offset_window, mapped_dataAddr] at hm
    rw [decodeTxn_window, if_neg hm]
    exact ⟨_, rfl, rfl⟩
  · rw [offset_register] at hm
    have hoff : 0xA ≤ off.toNat := Nat.le_of_not_lt fun hlt => hm (mapped_register hlt s)
    refine ⟨_, decodeTxn_lower _ _ _ _ hlower, ?_⟩
    cases recWe t with
    | true => rw [if_pos rfl, decodeWrite_of_unmapped hoff]; rfl
    | false => rw [if_neg Bool.false_ne_true, decodeRead_of_unmapped hoff]; rfl

/-- A step that finds a transaction is what its record decodes to, in the state without it. -/
theorem step_of_decodeTxn {s : State} {t : Record} {rest : List Event} {o : Host.Outcome State Fault Refusal}
    (hinbox : s.inbox = .txn t :: rest)
    (h : ∃ i, decodeTxn s.params t = .ok i ∧ exec i { s with inbox := rest } = o) : step s = o := by
  obtain ⟨i, hi, rfl⟩ := h
  exact step_txn hinbox hi

/-- Settles O22: `busError_of_not_mapped`, in the state without the record. -/
theorem unmappedOffsetsAnswerBusError : Obligations.UnmappedOffsetsAnswerBusError := by
  intro s t rest _ hinbox htop hm
  exact step_of_decodeTxn hinbox (busError_of_not_mapped (s := { s with inbox := rest }) htop hm)

/-! ## Reads (R131) -/

/-- Beyond the registers only the window is left of R131's table. -/
theorem readAnswer_of_gt {s : State} {addr : Nat} (halign : addr % 4 = 0) (h : 0x024 < addr) :
    readAnswer s addr =
      if 0x1000 ≤ addr ∧ addr < 0x1000 + 4 * s.params.nMax then ⟨some (s.visibleWord ((addr - 0x1000) / 4)), false⟩
      else ⟨some 0#32, true⟩ := by
  rw [readAnswer, if_neg (not_not.mpr halign)]
  iterate 10 rw [if_neg (by omega)]
  rfl

theorem readAnswer_of_not_mapped {s : State} {addr : Nat} (h : ¬ mapped s addr) :
    readAnswer s addr = ⟨some 0#32, true⟩ := by
  rw [mapped] at h
  by_cases halign : addr % 4 = 0
  · rw [readAnswer_of_gt halign (by omega), if_neg (by omega)]
  · rw [readAnswer, if_pos halign]

theorem readAnswer_dataAddr {s : State} {i : Nat} (h : i < s.params.nMax) :
    readAnswer s (dataAddr i) = ⟨some (s.visibleWord i), false⟩ := by
  rw [readAnswer_of_gt (by rw [dataAddr]; omega) (by rw [dataAddr]; omega), if_pos (by rw [dataAddr]; omega),
    dataAddr_index]

/-- R131: a read of a register answers by the table's row of its offset. -/
theorem exec_decodeRead {off : BitVec 11} (h : off.toNat < 0xA) (v : Word) (s : State) :
    exec (decodeRead (record false off 0#2 v)) s = .next { s with rsp := some (readAnswer s (4 * off.toNat)) } := by
  rw [decodeRead, recOff_record]
  rcases register_offset_cases h with rfl | rfl | rfl | rfl | rfl | rfl | rfl | rfl | rfl | rfl <;> rfl

/-- R131: what a read answers, whatever its record. -/
theorem read_answers {s : State} {t : Record} (h : recTop t = 0#2) (hwe : recWe t = false) :
    ∃ i, decodeTxn s.params t = .ok i ∧ exec i s = .next { s with rsp := some (readAnswer s (offset t)) } := by
  by_cases hm : mapped s (offset t)
  case neg => rw [readAnswer_of_not_mapped hm]; exact busError_of_not_mapped h hm
  rcases record_cases_of_mapped h hm with ⟨off, v, hoff, ht⟩ | ⟨j, v, hj, ht⟩ <;> rw [ht, hwe]
  · rw [offset_register]
    exact ⟨_, decodeTxn_lower _ _ _ _ (lower_of_register hoff), exec_decodeRead hoff v s⟩
  · rw [decodeTxn_window, if_pos hj, if_neg Bool.false_ne_true, offset_window, readAnswer_dataAddr hj]
    exact ⟨_, rfl, exec_rdData_of_lt hj⟩

/-- Settles O14: `read_answers`, in the state without the record; the answer does not look at the inbox. -/
theorem readTransactionsAnswerByOffset : Obligations.ReadTransactionsAnswerByOffset := by
  intro s t rest _ hinbox htop hwe
  exact step_of_decodeTxn hinbox (read_answers (s := { s with inbox := rest }) htop hwe)

/-! ## Writes (R132, R138) -/

/-- R132's last branches: what a write that the gate lets through does at a mapped offset. -/
def offsetEffect (addr : Nat) (v : Word) (s : State) : State :=
  if addr = 0x008 then { s with count := v }
  else if addr = 0x010 then { s with key0 := v }
  else if addr = 0x014 then { s with key1 := v }
  else if addr = 0x018 then { s with key2 := v }
  else if addr = 0x01C then { s with key3 := v }
  else if addr = 0x000 then commandEffect s (v.extractLsb' 0 4)
  else s.setData ((addr - 0x1000) / 4) v

theorem writeEffect_of_not_mapped {s : State} {addr : Nat} (h : ¬ mapped s addr) (v : Word) (d : Option Word) :
    writeEffect s addr v d = s.answerBusError := by
  rw [writeEffect, if_pos (by rw [mapped] at h; omega)]; rfl

theorem writeEffect_readOnly {s : State} {addr : Nat}
    (h : addr = 0x004 ∨ addr = 0x00C ∨ addr = 0x020 ∨ addr = 0x024) (v : Word) (d : Option Word) :
    writeEffect s addr v d = completed s d := by
  rw [writeEffect, if_neg (by omega), if_pos h]

/-- R132, R133: at every other mapped offset a write goes through the gate. -/
theorem writeEffect_gated {s : State} {addr : Nat} (hm : mapped s addr)
    (hro : ¬ (addr = 0x004 ∨ addr = 0x00C ∨ addr = 0x020 ∨ addr = 0x024)) (v : Word) :
    writeEffect s addr v none = s.gatedWrite (offsetEffect addr v) := by
  rw [writeEffect, if_neg (by rw [mapped] at hm; omega), if_neg hro]
  by_cases h : s.phase = 0#4
  · rw [if_neg (not_not.mpr h), State.gatedWrite_idle h, offsetEffect]
    split_ifs <;> rfl
  · rw [if_pos h, State.gatedWrite_ignored h]; rfl

theorem offsetEffect_dataAddr (i : Nat) (v : Word) (s : State) : offsetEffect (dataAddr i) v s = s.setData i v := by
  rw [offsetEffect]
  iterate 6 rw [if_neg (by rw [dataAddr]; omega)]
  rw [dataAddr_index]

/-- R80: a CMD that is neither CMD_NOP nor CMD_RUN is reserved. -/
theorem decodeCommand_mem_reservedCommands (c : BitVec 4) (h0 : c ≠ 0#4) (h1 : c ≠ 1#4) :
    decodeCommand c ∈ reservedCommands := by
  revert c; decide

/-- R138: a command is the gate around its effect. -/
theorem exec_decodeCommand (c : BitVec 4) (s : State) :
    exec (decodeCommand c) s = .next (s.gatedWrite fun t => commandEffect t c) := by
  by_cases h0 : c = 0#4
  · subst h0; rfl
  by_cases h1 : c = 1#4
  · subst h1; rfl
  rw [exec_reserved (decodeCommand_mem_reservedCommands c h0 h1)]
  refine congrArg _ (State.gatedWrite_congr ?_)
  rw [commandEffect, if_neg h0, if_neg h1]; rfl

/-- R132: a write of a register acts by the branch of its offset. -/
theorem exec_decodeWrite {off : BitVec 11} (h : off.toNat < 0xA) (v : Word) (s : State) :
    exec (decodeWrite (record true off 0#2 v)) s = .next (writeEffect s (4 * off.toNat) v none) := by
  have hm := mapped_register h s
  rw [decodeWrite, recOff_record, recWdata_record, recCmd_record]
  by_cases hro : 4 * off.toNat = 0x004 ∨ 4 * off.toNat = 0x00C ∨ 4 * off.toNat = 0x020 ∨ 4 * off.toNat = 0x024
  · rw [writeEffect_readOnly hro]
    obtain rfl | rfl | rfl | rfl : off = 1#11 ∨ off = 3#11 ∨ off = 8#11 ∨ off = 9#11 := by bv_omega
    all_goals rfl
  · rw [writeEffect_gated hm hro]
    obtain rfl | rfl | rfl | rfl | rfl | rfl :
      off = 0#11 ∨ off = 2#11 ∨ off = 4#11 ∨ off = 5#11 ∨ off = 6#11 ∨ off = 7#11 := by bv_omega
    · exact exec_decodeCommand _ s
    all_goals rfl

/-- R132: what a write does, whatever its record. -/
theorem write_acts {s : State} {t : Record} (h : recTop t = 0#2) (hwe : recWe t = true) :
    ∃ i, decodeTxn s.params t = .ok i ∧ exec i s = .next (writeEffect s (offset t) (recWdata t) none) := by
  by_cases hm : mapped s (offset t)
  case neg => rw [writeEffect_of_not_mapped hm]; exact busError_of_not_mapped h hm
  rcases record_cases_of_mapped h hm with ⟨off, v, hoff, ht⟩ | ⟨j, v, hj, ht⟩ <;> rw [ht, hwe, recWdata_record]
  · rw [offset_register]
    exact ⟨_, decodeTxn_lower _ _ _ _ (lower_of_register hoff), exec_decodeWrite hoff v s⟩
  · rw [decodeTxn_window, if_pos hj, if_pos rfl, offset_window,
      writeEffect_gated (mapped_dataAddr.mpr hj) (by rw [dataAddr]; omega),
      State.gatedWrite_congr (g := fun u => u.setData j.toNat v) (offsetEffect_dataAddr j.toNat v s)]
    exact ⟨_, rfl, exec_wrData_of_lt hj v⟩

/-- Settles O15: `write_acts`, in the state without the record. The model puts nothing on the read data lines of a
write (log 3), so `none` is the value of `d`. -/
theorem writeTransactionsActByOffset : Obligations.WriteTransactionsActByOffset := by
  intro s t rest _ hinbox htop hwe
  exact ⟨none, step_of_decodeTxn hinbox (write_acts (s := { s with inbox := rest }) htop hwe)⟩

end Sys2Proof.Machine
end

