-- ==== Sys2Proof/Proofs/Exceptions.lean ====
section
/-! PROOFS. Exceptions (60_exceptions): PHASE FAULT is left by reset alone (R155), and no fault, status bit or step
depends on the contents of DATA or of the keystream RAM (R156). -/

namespace Sys2Proof.Machine

open Claims

/-! ## PHASE FAULT (R155) -/

/-- R131 to R133, R142: outside IDLE a transaction changes WIGN and the answer alone, and never clears WIGN. -/
theorem exec_txn_of_not_idle {p : Params} {r : Record} {i : Instr} {s : State} (d : decodeTxn p r = .ok i)
    (hp : s.phase ≠ 0#4) :
    ∃ w a, (s.wign = true → w = true) ∧ exec i s = .next { s with wign := w, rsp := some a } := by
  obtain ⟨t, hx, ⟨a, rfl⟩ | ⟨-, rfl⟩ | ⟨hidle, -⟩⟩ := exec_host_cases d s
  · exact ⟨s.wign, a, id, hx⟩
  · exact ⟨true, _, fun _ => rfl, hx⟩
  · exact absurd hidle hp

/-- An engine that has no step only takes its event off the inbox. -/
theorem EngineTurn.eq_tail {s u : State} (h : EngineTurn s u) : u = { s with inbox := s.inbox.tail } := by
  rcases h with ⟨hi, rfl⟩ | ⟨rest, hi, rfl⟩
  · rw [hi, List.tail_nil, ← hi]
  · rw [hi, List.tail_cons]

/-- R116: PHASE FAULT selects no micro-op. -/
theorem decodePhase_fault_ne_ok (i : Instr) : decodePhase 0xF#4 ≠ .ok i := nofun

/-- R155: in PHASE FAULT a step that is no reset changes WIGN and the answer alone, and takes its event. -/
theorem step_of_fault {s t : State} (hp : s.phase = 0xF#4) (h : step s = .next t)
    (hreset : ∀ rest, s.inbox ≠ .reset :: rest) :
    t = { s with inbox := s.inbox.tail, wign := t.wign, rsp := t.rsp } := by
  rcases step_cases h with ⟨rest, hi, -⟩ | ⟨r, rest, i, hi, hd, hx⟩ | ⟨u, i, -, hd, -⟩ | ⟨hu, -⟩
  · exact absurd hi (hreset rest)
  · obtain ⟨w, a, -, hx'⟩ := exec_txn_of_not_idle (s := { s with inbox := rest }) hd (by rw [hp]; decide)
    obtain rfl := Host.Outcome.next.inj (hx'.symm.trans hx)
    rw [hi]; rfl
  · exact absurd (hp ▸ hd) (decodePhase_fault_ne_ok i)
  · rw [hu.eq_tail]

/-- Settles O49: `step_of_fault` for the steps of both agents, the rules of the gate and of reads, and `step_reset`. -/
theorem faultIsStickyUntilReset : Obligations.FaultIsStickyUntilReset := by
  intro s hvalid hp
  refine ⟨fun t h hreset => ?sticky, fun i hi => ?gated, fun t rest => ?reads, fun rest hi => ?reset⟩
  case sticky =>
    have ht := step_of_fault hp h hreset
    exact ⟨ht, (congrArg State.phase ht).trans hp⟩
  case gated => exact gatedWritesSetOnlyWign s i hi (by rw [hp]; decide)
  case reads => exact readTransactionsAnswerByOffset s t rest hvalid
  case reset => exact ⟨_, step_reset hi, rfl, rfl⟩

/-! ## Blindness to the message (R156) -/

/-- What of `f`'s result can be seen through `view` depends on the control part of the state alone. -/
def Blind {α β : Type} (view : α → β) (f : State → α) : Prop := ∀ s, view (f s) = view (f (control s))

/-- What DATA and the keystream cannot reach of a step's outcome: its kind, its reason, the control part of its state. -/
def controlOutcome : Host.Outcome State Fault Refusal → Host.Outcome State Fault Refusal
  | .next s => .next (control s)
  | .fault r => .fault r
  | .refused r => .refused r

theorem controlOutcome_eq_next {o : Host.Outcome State Fault Refusal} {u : State}
    (h : controlOutcome o = .next u) : ∃ t, o = .next t ∧ control t = u := by
  cases o with
  | next t => exact ⟨t, rfl, Host.Outcome.next.inj h⟩
  | fault | refused => cases h

@[simp] theorem control_control (s : State) : control (control s) = control s := by
  simp only [Claims.control, Option.map_map]; rfl

namespace Blind

variable {α β : Type} {view : α → β} {f g : State → α} {update : State → State}

/-- Two states with one control part give one view. -/
protected theorem congr (hf : Blind view f) {s s' : State} (hs : control s = control s') : view (f s) = view (f s') := by
  rw [hf s, hs, ← hf s']

/-- A branch between two blind functions is blind where its test is. -/
protected theorem ite {p : State → Prop} {_ : DecidablePred p} (hp : ∀ s, p (control s) ↔ p s) (hf : Blind view f)
    (hg : Blind view g) : Blind view fun s => if p s then f s else g s := by
  intro s
  dsimp only
  by_cases hs : p s
  · rw [if_pos hs, if_pos ((hp s).mpr hs)]; exact hf s
  · rw [if_neg hs, if_neg (mt (hp s).mp hs)]; exact hg s

/-- An update without a branch is blind where it commutes with `control`, up to what `control` drops. -/
theorem of_commutes (h : ∀ s, control (update (control s)) = control (control (update s))) : Blind control update := by
  intro s; rw [h, control_control]

theorem comp (hf : Blind view f) (h : Blind control update) : Blind view fun s => f (update s) :=
  fun s => hf.congr (h s)

/-- An instruction that completes is blind where its update is. -/
theorem next (h : Blind control update) : Blind controlOutcome fun s => .next (update s) :=
  fun s => congrArg Host.Outcome.next (h s)

end Blind

/-! ### Updates -/

theorem blind_answerWrite : Blind control State.answerWrite := .of_commutes fun _ => rfl

theorem blind_answerBusError : Blind control State.answerBusError := .of_commutes fun _ => rfl

/-- The value that a read returns is what `control` drops: it may be any function of the state. -/
theorem blind_answerRead (v : State → Word) : Blind control fun s => s.answerRead (v s) := .of_commutes fun _ => rfl

theorem blind_setData (i : Nat) (v : Word) : Blind control fun s => s.setData i v := .of_commutes fun _ => rfl

theorem blind_raiseFault (c : FaultCode) : Blind control fun s => s.raiseFault c := .of_commutes fun _ => rfl

/-- R133: the gate tests PHASE. -/
theorem Blind.gatedWrite {f : State → State} (hf : Blind control f) : Blind control fun s => s.gatedWrite f :=
  blind_answerWrite.comp (.ite (fun _ => .rfl) hf (.of_commutes fun _ => rfl))

/-- R143: the checks of CMD_RUN read the key, the count, DIR and the parameters. -/
theorem blind_run : Blind control State.run :=
  have begins : Blind control State.beginRun := .of_commutes fun _ => rfl
  have faults (c : FaultCode) := (blind_raiseFault c).comp begins
  .ite (fun _ => .rfl) (faults .keyWeak) <|
  .ite (fun _ => .rfl) (faults .countOne) <|
  .ite (fun _ => .rfl) (faults .countRange) <|
  .ite (fun _ => .rfl) (.of_commutes fun _ => rfl) <|
  .ite (fun _ => .rfl) (faults .ksAlloc) <|
  .of_commutes fun _ => rfl

/-- R117: the start of a sweep reads DIR. -/
theorem blind_launchSweep : Blind control State.launchSweep :=
  .ite (fun _ => .rfl) (.of_commutes fun _ => rfl) (.of_commutes fun _ => rfl)

/-- R119: how a sweep advances is decided by P, N and RND. -/
theorem blind_encAdvance : Blind control State.encAdvance :=
  .ite (fun _ => .rfl)
    (.ite (fun _ => .rfl) (.of_commutes fun _ => rfl) (.of_commutes fun _ => rfl))
    (.of_commutes fun _ => rfl)

/-- R120: so is how a decrypt sweep goes back. -/
theorem blind_decAdvance : Blind control State.decAdvance :=
  .ite (fun _ => .rfl)
    (.ite (fun _ => .rfl) (.of_commutes fun _ => rfl) (.of_commutes fun _ => rfl))
    (.of_commutes fun _ => rfl)

/-! ### Instructions -/

/-- R140: the reserved commands. -/
theorem blind_reservedCommand : Blind controlOutcome fun s => .next (reservedCommand s) :=
  (Blind.gatedWrite (blind_raiseFault .badCmd)).next

/-- R119: a sweep step tests its indexes, which the control part holds, before its update. -/
theorem blind_exec_encStep : Blind controlOutcome (exec .encStep) := by
  intro s
  have hstop : (control s).sweepStop = s.sweepStop := rfl
  have hupdate : Blind control State.encUpdate := .of_commutes fun _ => rfl
  simp only [exec, execEncStep, hstop]
  cases s.sweepStop with
  | some f => rfl
  | none => exact (blind_encAdvance.comp hupdate).next s

/-- R120: a decrypt's step also tests its index into the keystream. -/
theorem blind_exec_decStep : Blind controlOutcome (exec .decStep) := by
  intro s
  have hstop : (control s).sweepStop = s.sweepStop := rfl
  have hupdate : Blind control State.decUpdate := .of_commutes fun _ => rfl
  simp only [exec, execDecStep, hstop]
  cases s.sweepStop with
  | some f => rfl
  | none => 
    have hreplay : Blind controlOutcome fun s =>
        if s.params.ksDepth ≤ s.replayIndex then .fault (.ksIndex s.replayIndex) else .next s.decUpdate.decAdvance :=
      .ite (fun _ => .rfl) (fun _ => rfl) (blind_decAdvance.comp hupdate).next
    exact hreplay s

/-- R156: no instruction's outcome depends on the contents of DATA or KS, but for the word a read returns. -/
theorem blind_exec (i : Instr) : Blind controlOutcome (exec i) := by
  cases i with
  | cmdNop => exact (Blind.gatedWrite (f := id) (.of_commutes fun _ => rfl)).next
  | cmdRun => exact blind_run.gatedWrite.next
  | cmdRsvd2 | cmdRsvd3 | cmdRsvd4 | cmdRsvd5 | cmdRsvd6 | cmdRsvd7 | cmdRsvd8 | cmdRsvd9
  | cmdRsvdA | cmdRsvdB | cmdRsvdC | cmdRsvdD | cmdRsvdE | cmdRsvdF => exact blind_reservedCommand
  | wrCount | wrKey0 | wrKey1 | wrKey2 | wrKey3 => exact .next (.gatedWrite (.of_commutes fun _ => rfl))
  | wrStatusRo | wrInfoRo | wrRoundsRo | wrDrawsRo => exact blind_answerWrite.next
  | wrData i v => exact .ite (fun _ => .rfl) (blind_setData i.toNat v).gatedWrite.next blind_answerBusError.next
  | rdCtrl | rdStatus | rdCount | rdInfo | rdKey0 | rdKey1 | rdKey2 | rdKey3 | rdRounds | rdDraws =>
    exact (blind_answerRead _).next
  | rdData i => exact .ite (fun _ => .rfl) (blind_answerRead _).next blind_answerBusError.next
  | buserrMisaligned1 | buserrMisaligned2 | buserrMisaligned3 | buserrUnmapped => exact blind_answerBusError.next
  | seed => exact .ite (fun _ => .rfl) blind_launchSweep.next (blind_raiseFault .seedBad).next
  | fill => exact .ite (fun _ => .rfl) (fun _ => rfl) (.next (.of_commutes fun _ => rfl))
  | encStep => exact blind_exec_encStep
  | decStep => exact blind_exec_decStep
  | prngSeed => exact .ite (fun _ => .rfl) (.next (.of_commutes fun _ => rfl)) (blind_raiseFault .seedBad).next
  | prngNext => exact .next (.of_commutes fun _ => rfl)

/-! ### Steps -/

/-- Two states with one control part execute an instruction alike. -/
theorem exec_of_control_eq {i : Instr} {s s' t : State} (hs : control s = control s') (h : exec i s = .next t) :
    ∃ t', exec i s' = .next t' ∧ control t = control t' := by
  have hview := (blind_exec i).congr hs
  rw [h] at hview
  obtain ⟨t', hx, ht⟩ := controlOutcome_eq_next hview.symm
  exact ⟨t', hx, ht.symm⟩

/-- Taking an event off the inbox is blind. -/
theorem control_inbox_congr {s s' : State} (hs : control s = control s') (rest : List Event) :
    control { s with inbox := rest } = control { s' with inbox := rest } :=
  congrArg (fun c : State => { c with inbox := rest }) hs

/-- Where the engine has the turn, it has it in every state with the same control part. -/
theorem EngineTurn.of_control_eq {s s' u : State} (hs : control s = control s') (hu : EngineTurn s u) :
    ∃ u', EngineTurn s' u' ∧ control u = control u' := by
  have hinbox : s.inbox = s'.inbox := (congrArg State.inbox hs :)
  rcases hu with ⟨hi, rfl⟩ | ⟨rest, hi, rfl⟩
  · exact ⟨s', .inl ⟨hinbox ▸ hi, rfl⟩, hs⟩
  · exact ⟨_, .inr ⟨rest, hinbox ▸ hi, rfl⟩, control_inbox_congr hs rest⟩

/-- Settles O52: the inbox, the parameters and PHASE select the step and lie in the control part, so both states take
the same one; what it does is blind. -/
theorem messageContentsSteerNothing : Obligations.MessageContentsSteerNothing := by
  intro s s' t hs h
  have hinbox : s.inbox = s'.inbox := (congrArg State.inbox hs :)
  have hparams : s.params = s'.params := (congrArg State.params hs :)
  have hphase : s.phase = s'.phase := (congrArg State.phase hs :)
  rcases step_cases h with ⟨rest, hi, rfl⟩ | ⟨r, rest, i, hi, hd, hx⟩ | ⟨u, i, hu, hd, hx⟩ | ⟨ht, hquiet⟩
  · have hreset : Blind control State.resetStep := .of_commutes fun _ => rfl
    exact ⟨_, step_reset (hinbox ▸ hi), hreset.congr (control_inbox_congr hs rest)⟩
  · obtain ⟨t', hx', ht⟩ := exec_of_control_eq (control_inbox_congr hs rest) hx
    exact ⟨t', (step_txn (hinbox ▸ hi) (hparams ▸ hd)).trans hx', ht⟩
  · obtain ⟨u', hu', hcontrol⟩ := hu.of_control_eq hs
    obtain ⟨t', hx', ht⟩ := exec_of_control_eq hcontrol hx
    exact ⟨t', (step_microOp hu' (hphase ▸ hd)).trans hx', ht⟩
  · obtain ⟨t', ht', hcontrol⟩ := ht.of_control_eq hs
    exact ⟨t', step_quiet ht' (hphase ▸ hquiet), hcontrol⟩

end Sys2Proof.Machine
end

