-- ==== Sys2Proof/Proofs/Reset.lean ====
section
/-! PROOFS. Reset (70_reset_and_hazards): every register at its reset value and both memories unwritten (R171). -/

namespace Sys2Proof.Machine

/-- R16: the reset value of PHASE is IDLE, so the block is not BUSY. -/
@[simp] theorem State.busy_resetStep (s : State) : s.resetStep.busy = false := State.not_busy_of_idle rfl

/-- R73: STATUS at the reset values of its fields. -/
@[simp] theorem State.statusWord_resetStep (s : State) : s.resetStep.statusWord = 0#32 := by
  have hfields : s.resetStep.statusWord = State.reset.statusWord := rfl
  rw [hfields]; decide

/-- R15: no DATA byte counts as written since the reset. -/
@[simp] theorem State.byteAt_data_resetStep (s : State) (a : Nat) : Memory.byteAt s.resetStep.data a = none := rfl

/-- R34: no keystream byte counts as written since the reset. -/
@[simp] theorem State.byteAt_ks_resetStep (s : State) (a : Nat) : Memory.byteAt s.resetStep.ks a = none := rfl

/-- R155: the step that leaves PHASE FAULT is a reset, since `step_of_fault` keeps PHASE in every other. -/
theorem inbox_eq_reset_of_leaves_fault {s t : State} (hp : s.phase = 0xF#4) (h : step s = .next t)
    (hleft : t.phase ≠ 0xF#4) : ∃ rest, s.inbox = .reset :: rest := by
  by_contra hreset
  have hkept := step_of_fault hp h (not_exists.mp hreset)
  exact hleft ((congrArg State.phase hkept).trans hp)

/-- Settles O9: a reset step ends in `State.resetStep`, whose registers hold the values of `State.reset`; the derived
BUSY, STATUS and the bytes by their rules above; FAULT is left by `inbox_eq_reset_of_leaves_fault`. -/
theorem resetLeavesTheSpecValues : Obligations.ResetLeavesTheSpecValues := by
  refine ⟨fun s rest hi => ⟨_, step_reset hi, ?registers⟩, fun s t => inbox_eq_reset_of_leaves_fault⟩
  case registers =>
    exact ⟨rfl, rfl, rfl, rfl, rfl, rfl, State.busy_resetStep _, rfl, rfl, rfl, rfl, rfl, rfl, rfl, rfl, rfl, rfl, rfl,
      rfl, rfl, rfl, rfl, State.statusWord_resetStep _, State.byteAt_data_resetStep _, State.byteAt_ks_resetStep _⟩

end Sys2Proof.Machine
end

