-- ==== Sys2Proof/Proofs/Encoding.lean ====
section
/-! PROOFS. Decoder and encoder (30_encoding R71, R72, R79 to R85): they are inverse to each other on the bits an
instruction depends on, and the decoder follows the opcode table row by row. -/

namespace Sys2Proof.Machine

/-! ## From the encoding to the instruction -/

/-- R71, R132: an aligned write in the lower half. -/
theorem decodeTxn_write (p : Params) {off : BitVec 11} (v : Word) (h : off.getLsbD 10 = false) :
    decodeTxn p (record true off 0#2 v) = .ok (decodeWrite (record true off 0#2 v)) := by
  rw [decodeTxn_lower _ _ _ _ h, if_pos rfl]

/-- R71, R131: an aligned read in the lower half. -/
theorem decodeTxn_read (p : Params) {off : BitVec 11} (v : Word) (h : off.getLsbD 10 = false) :
    decodeTxn p (record false off 0#2 v) = .ok (decodeRead (record false off 0#2 v)) := by
  rw [decodeTxn_lower _ _ _ _ h, if_neg Bool.false_ne_true]

/-- R72: CMD is the low bits of the data of a command's record. -/
theorem extractLsb'_setWidth_cmd (c : BitVec 4) : (c.setWidth 32).extractLsb' 0 4 = c := by revert c; decide

/-- R80: a command's record decodes by its CMD. -/
theorem decodeTxn_commandRecord (p : Params) (c : BitVec 4) :
    decodeTxn p (commandRecord c) = .ok (decodeCommand c) := by
  rw [commandRecord, decodeTxn_write _ _ rfl, decodeWrite, recOff_record, if_pos rfl, recCmd_record,
    extractLsb'_setWidth_cmd]

/-- R71, R142: an aligned access at an unmapped word offset decodes to the bus error. -/
theorem decodeTxn_unmapped {p : Params} {off : BitVec 11} (h : unmappedOffset p off = true) (we : Bool) (v : Word) :
    decodeTxn p (record we off 0#2 v) = .ok (.buserrUnmapped we off) := by
  simp only [unmappedOffset, Bool.or_eq_true, Bool.and_eq_true, decide_eq_true_eq] at h
  cases hupper : off.getLsbD 10 with
  | true =>
    have hoff := eq_dataOffset_of_upper hupper
    have hidx := dataOffset_toNat (off.extractLsb' 0 10)
    rw [← hoff] at hidx
    rw [hoff, decodeTxn_window, if_neg (by omega)]
  | false =>
    have hlt := off_lt_of_lower hupper
    cases we with
    | true => rw [decodeTxn_write _ _ hupper, decodeWrite_of_unmapped (by omega)]
    | false => rw [decodeTxn_read _ _ hupper, decodeRead_of_unmapped (by omega)]

/-- A record that the encoder writes and the decoder reads back is all the encoder can answer. -/
theorem decode_of_encode {p : Params} {i : Instr} {t : Record} (henc : encode i = some (.txn t))
    (hdec : decodeTxn p t = .ok i) (e : Encoded) (he : encode i = some e) : decode p e = .ok i := by
  obtain rfl : Encoded.txn t = e := Option.some.inj (henc.symm.trans he)
  exact hdec

/-- R85: decoding the encoding of a well-formed instruction. -/
theorem decode_encode {p : Params} {i : Instr} (hwf : i.wf p = true) (e : Encoded) (he : encode i = some e) :
    decode p e = .ok i := by
  cases i with
  | cmdNop | cmdRun | cmdRsvd2 | cmdRsvd3 | cmdRsvd4 | cmdRsvd5 | cmdRsvd6 | cmdRsvd7 | cmdRsvd8 | cmdRsvd9
  | cmdRsvdA | cmdRsvdB | cmdRsvdC | cmdRsvdD | cmdRsvdE | cmdRsvdF =>
    refine decode_of_encode rfl ?_ e he
    exact decodeTxn_commandRecord p _
  | wrCount | wrKey0 | wrKey1 | wrKey2 | wrKey3 | wrStatusRo | wrInfoRo | wrRoundsRo | wrDrawsRo =>
    exact decode_of_encode rfl (by simp [decodeTxn_lower, decodeWrite]) e he
  | rdCtrl | rdStatus | rdCount | rdInfo | rdKey0 | rdKey1 | rdKey2 | rdKey3 | rdRounds | rdDraws =>
    exact decode_of_encode rfl (by simp [decodeTxn_lower, decodeRead]) e he
  | wrData j v =>
    have hj : j.toNat < p.nMax := of_decide_eq_true hwf
    exact decode_of_encode rfl (by rw [decodeTxn_window, if_pos hj, if_pos rfl]) e he
  | rdData j =>
    have hj : j.toNat < p.nMax := of_decide_eq_true hwf
    exact decode_of_encode rfl (by rw [decodeTxn_window, if_pos hj, if_neg Bool.false_ne_true]) e he
  | buserrMisaligned1 we off => exact decode_of_encode rfl (decodeTxn_misaligned1 p we off _) e he
  | buserrMisaligned2 we off => exact decode_of_encode rfl (decodeTxn_misaligned2 p we off _) e he
  | buserrMisaligned3 we off => exact decode_of_encode rfl (decodeTxn_misaligned3 p we off _) e he
  | buserrUnmapped we off => exact decode_of_encode rfl (decodeTxn_unmapped hwf we _) e he
  | seed | fill | encStep | decStep => obtain rfl := Option.some.inj he; rfl
  | prngSeed | prngNext => cases he

/-- R87, R88: the PRNG's two operations have no encoding, and every other instruction has one. -/
theorem encode_eq_none_iff (i : Instr) : encode i = none ↔ (∃ v, i = .prngSeed v) ∨ i = .prngNext := by
  cases i with
  | prngSeed v => exact iff_of_true rfl (.inl ⟨v, rfl⟩)
  | prngNext => exact iff_of_true rfl (.inr rfl)
  | _ => simp [encode]

/-- Settles O1: `decode_encode` for every family of instructions, and `encode_eq_none_iff`. -/
theorem encodedInstructionsDecodeBack : Obligations.EncodedInstructionsDecodeBack :=
  fun _ i _ => ⟨fun e hwf he => decode_encode hwf e he, encode_eq_none_iff i⟩

/-! ## From the record to the instruction -/

/-- The instruction is well formed and its encoding is the record without the bits the table ignores. -/
def KeepsBits (p : Params) (t : Record) (i : Instr) : Prop :=
  i.wf p = true ∧ encode i = some (.txn (t &&& i.careMask))

section kinds
variable {p : Params} {i : Instr} {we : Bool} {off : BitVec 11} {align : BitVec 2} {v : Word}

/-- R80: the sixteen commands. -/
theorem decodeCommand_mem (c : BitVec 4) : decodeCommand c ∈ .cmdNop :: .cmdRun :: Claims.reservedCommands := by
  by_cases h0 : c = 0#4
  · subst h0; exact List.mem_cons_self
  by_cases h1 : c = 1#4
  · subst h1; exact List.mem_cons_of_mem _ List.mem_cons_self
  · exact List.mem_cons_of_mem _ (List.mem_cons_of_mem _ (decodeCommand_mem_reservedCommands c h0 h1))

theorem wf_decodeCommand (p : Params) (c : BitVec 4) : (decodeCommand c).wf p = true := by
  have hmem := decodeCommand_mem c
  generalize decodeCommand c = i at hmem
  fin_cases hmem <;> rfl

/-- R72: a command keeps CMD. -/
theorem keepsBits_decodeCommand : KeepsBits p (record true 0#11 0#2 v) (decodeCommand (v.extractLsb' 0 4)) := by
  have fields : ∀ c : BitVec 4, (decodeCommand c).careMask = 0xFFFF0000000F#48 ∧
      encode (decodeCommand c) = some (.txn (commandRecord c)) := by decide
  obtain ⟨hmask, henc⟩ := fields (v.extractLsb' 0 4)
  exact ⟨wf_decodeCommand p _, by rw [hmask, henc, record_and_cmd]; rfl⟩

/-- A write of a register or of a DATA word keeps every bit. -/
theorem keepsBits_of_record (hwf : i.wf p = true) (hmask : i.careMask = 0xFFFFFFFFFFFF#48)
    (henc : encode i = some (.txn (record we off align v))) : KeepsBits p (record we off align v) i :=
  ⟨hwf, by rw [hmask, record_and_ones, henc]⟩

/-- A read, a write of a read-only register and a bus error drop the data. -/
theorem keepsBits_of_address (hwf : i.wf p = true) (hmask : i.careMask = 0xFFFF00000000#48)
    (henc : encode i = some (.txn (record we off align 0#32))) : KeepsBits p (record we off align v) i :=
  ⟨hwf, by rw [hmask, record_and_zero, henc]⟩

theorem unmappedOffset_of_lower (h : 0xA ≤ off.toNat) (hlower : off.getLsbD 10 = false) :
    unmappedOffset p off = true := by
  have hlt := off_lt_of_lower hlower
  simp [unmappedOffset, h, hlt]

theorem unmappedOffset_dataOffset {j : BitVec 10} (h : p.nMax ≤ j.toNat) :
    unmappedOffset p (dataOffset j) = true := by
  simp [unmappedOffset, dataOffset_toNat, h]

/-- R71, R132: an aligned write in the lower half. -/
theorem keepsBits_decodeWrite (hlower : off.getLsbD 10 = false) :
    KeepsBits p (record true off 0#2 v) (decodeWrite (record true off 0#2 v)) := by
  rcases Nat.lt_or_ge off.toNat 0xA with h | h
  · rw [decodeWrite, recOff_record, recWdata_record, recCmd_record]
    rcases register_offset_cases h with rfl | rfl | rfl | rfl | rfl | rfl | rfl | rfl | rfl | rfl
    · exact keepsBits_decodeCommand
    · exact keepsBits_of_address rfl rfl rfl
    · exact keepsBits_of_record rfl rfl rfl
    · exact keepsBits_of_address rfl rfl rfl
    · exact keepsBits_of_record rfl rfl rfl
    · exact keepsBits_of_record rfl rfl rfl
    · exact keepsBits_of_record rfl rfl rfl
    · exact keepsBits_of_record rfl rfl rfl
    · exact keepsBits_of_address rfl rfl rfl
    · exact keepsBits_of_address rfl rfl rfl
  · rw [decodeWrite_of_unmapped h]
    exact keepsBits_of_address (unmappedOffset_of_lower h hlower) rfl rfl

/-- R71, R131: an aligned read in the lower half. -/
theorem keepsBits_decodeRead (hlower : off.getLsbD 10 = false) :
    KeepsBits p (record false off 0#2 v) (decodeRead (record false off 0#2 v)) := by
  rcases Nat.lt_or_ge off.toNat 0xA with h | h
  · rw [decodeRead, recOff_record]
    rcases register_offset_cases h with rfl | rfl | rfl | rfl | rfl | rfl | rfl | rfl | rfl | rfl
    all_goals exact keepsBits_of_address rfl rfl rfl
  · rw [decodeRead_of_unmapped h]
    exact keepsBits_of_address (unmappedOffset_of_lower h hlower) rfl rfl

end kinds

/-- R85: a record that decodes is a transaction's. -/
theorem recTop_of_decodeTxn {p : Params} {t : Record} {i : Instr} (h : decodeTxn p t = .ok i) : recTop t = 0#2 := by
  by_contra htop
  rw [decodeTxn, if_pos htop] at h
  cases h

/-- R71, R85: every record that decodes keeps its bits. -/
theorem keepsBits_of_decodeTxn {p : Params} {t : Record} {i : Instr} (h : decodeTxn p t = .ok i) :
    KeepsBits p t i := by
  rcases record_cases (recTop_of_decodeTxn h) with ⟨off, align, v, halign, ht⟩ | ⟨j, v, ht⟩ | ⟨off, v, hlower, ht⟩ <;>
    rw [ht] at h ⊢
  · rcases align_cases align with rfl | rfl | rfl | rfl
    · exact absurd rfl halign
    · rw [decodeTxn_misaligned1] at h; obtain rfl := Except.ok.inj h; exact keepsBits_of_address rfl rfl rfl
    · rw [decodeTxn_misaligned2] at h; obtain rfl := Except.ok.inj h; exact keepsBits_of_address rfl rfl rfl
    · rw [decodeTxn_misaligned3] at h; obtain rfl := Except.ok.inj h; exact keepsBits_of_address rfl rfl rfl
  · rw [decodeTxn_window] at h
    obtain rfl := Except.ok.inj h
    split_ifs with hj hwe
    · rw [hwe]; exact keepsBits_of_record (decide_eq_true hj) rfl rfl
    · rw [Bool.not_eq_true] at hwe
      rw [hwe]; exact keepsBits_of_address (decide_eq_true hj) rfl rfl
    · exact keepsBits_of_address (unmappedOffset_dataOffset (Nat.le_of_not_lt hj)) rfl rfl
  · rw [decodeTxn_lower _ _ _ _ hlower] at h
    obtain rfl := Except.ok.inj h
    cases recWe t with
    | true => rw [if_pos rfl]; exact keepsBits_decodeWrite hlower
    | false => rw [if_neg Bool.false_ne_true]; exact keepsBits_decodeRead hlower

/-- Settles O2: `keepsBits_of_decodeTxn`. -/
theorem decodedRecordsKeepTheirBits : Obligations.DecodedRecordsKeepTheirBits := fun _ _ _ _ => keepsBits_of_decodeTxn

/-! ## What does not decode -/

/-- R79: the codes 1 to 4 of PHASE have a micro-op. -/
theorem decodePhase_isOk {c : PhaseCode} (h1 : 1 ≤ c.toNat) (h4 : c.toNat ≤ 4) : ∃ i, decodePhase c = .ok i := by
  obtain rfl | rfl | rfl | rfl : c = 1#4 ∨ c = 2#4 ∨ c = 3#4 ∨ c = 4#4 := by bv_omega
  all_goals exact ⟨_, rfl⟩

/-- Settles O4: `decodeTxn_total` and `decodePhase_ok` each with its converse. -/
theorem decoderRefusesOnlyNonTransactions : Obligations.DecoderRefusesOnlyNonTransactions := by
  refine ⟨fun p t => ⟨fun ⟨i, h⟩ => recTop_of_decodeTxn h, fun h => decodeTxn_total h⟩,
    fun p c => ⟨fun ⟨i, h⟩ => ?_, fun ⟨h1, h4⟩ => decodePhase_isOk h1 h4⟩⟩
  rcases decodePhase_ok h with ⟨rfl, -⟩ | ⟨rfl, -⟩ | ⟨rfl, -⟩ | ⟨rfl, -⟩ <;> decide

/-- Settles O5: the decoder run on the spec's words. -/
theorem specWordsDecode : Obligations.SpecWordsDecode :=
  ⟨rfl, rfl, rfl, rfl, rfl, rfl, rfl, rfl, rfl, rfl, rfl⟩

/-! ## The opcode table -/

/-- R80: the table's row of a command. -/
def commandRow (c : BitVec 4) : OpcodeRow := ⟨(decodeCommand c).mnemonic, commandRecord c, 0xFFFF0000000F#48⟩

/-- R71: the table's row of a register that is written or read, CTRL as a write left out. -/
def registerRow (we : Bool) (off : BitVec 11) : OpcodeRow :=
  ⟨(if we then decodeWrite (record true off 0#2 0#32) else decodeRead (record false off 0#2 0#32)).mnemonic,
    record we off 0#2 0#32, 0xFFFF00000000#48⟩

/-- R71: the table's row of the DATA window. -/
def windowRow (we : Bool) : OpcodeRow :=
  ⟨if we then "WR_DATA" else "RD_DATA", record we 0x400#11 0#2 0#32, 0xF00300000000#48⟩

/-- R142: the table's row of a misaligned access. -/
def misalignedRow (align : BitVec 2) : OpcodeRow :=
  ⟨if align = 1#2 then "BUSERR_MISALIGNED_1" else if align = 2#2 then "BUSERR_MISALIGNED_2" else "BUSERR_MISALIGNED_3",
    record false 0#11 align 0#32, 0xC00300000000#48⟩

/-- The word offsets that the rows of register writes name, in the table's order; a write of CTRL is a command. -/
def writtenOffsets : List (BitVec 11) := [2#11, 4#11, 5#11, 6#11, 7#11, 1#11, 3#11, 8#11, 9#11]

/-- The word offsets that the rows of register reads name. -/
def readOffsets : List (BitVec 11) := [0#11, 1#11, 2#11, 3#11, 4#11, 5#11, 6#11, 7#11, 8#11, 9#11]

/-- The codes of CMD (R80). -/
def commandCodes : List (BitVec 4) := (List.range 16).map (BitVec.ofNat 4)

theorem mem_commandCodes (c : BitVec 4) : c ∈ commandCodes :=
  List.mem_map.mpr ⟨c.toNat, List.mem_range.mpr c.isLt, by rw [BitVec.ofNat_toNat, BitVec.setWidth_eq]⟩

theorem opcodeRows_eq : opcodeRows =
    commandCodes.map commandRow ++ writtenOffsets.map (registerRow true) ++ [windowRow true] ++
    readOffsets.map (registerRow false) ++ [windowRow false] ++ [1#2, 2#2, 3#2].map misalignedRow := rfl

theorem mem_writtenOffsets {off : BitVec 11} : off ∈ writtenOffsets ↔ off.toNat < 0xA ∧ off ≠ 0#11 := by
  constructor
  case mp => intro h; rw [writtenOffsets] at h; fin_cases h <;> decide
  case mpr =>
    rintro ⟨h, h0⟩
    rcases register_offset_cases h with rfl | rfl | rfl | rfl | rfl | rfl | rfl | rfl | rfl | rfl
    · exact absurd rfl h0
    all_goals decide

theorem mem_readOffsets {off : BitVec 11} : off ∈ readOffsets ↔ off.toNat < 0xA := by
  constructor
  case mp => intro h; rw [readOffsets] at h; fin_cases h <;> decide
  case mpr =>
    intro h
    rcases register_offset_cases h with rfl | rfl | rfl | rfl | rfl | rfl | rfl | rfl | rfl | rfl
    all_goals decide

/-! ### The records a row matches -/

theorem record_inj {we we' : Bool} {off off' : BitVec 11} {align align' : BitVec 2} {v v' : Word} :
    record we off align v = record we' off' align' v' ↔ we = we' ∧ off = off' ∧ align = align' ∧ v = v' := by
  refine ⟨fun h => ⟨?_, ?_, ?_, ?_⟩, fun ⟨h1, h2, h3, h4⟩ => by rw [h1, h2, h3, h4]⟩
  · simpa using congrArg recWe h
  · simpa using congrArg recOff h
  · simpa using congrArg recAlign h
  · simpa using congrArg recWdata h

/-- A record under the mask of the misaligned rows. -/
theorem record_and_misaligned (we : Bool) (off : BitVec 11) (align : BitVec 2) (v : Word) :
    record we off align v &&& 0xC00300000000#48 = record false 0#11 align 0#32 := by
  have hmask : (0xC00300000000#48 : Record) =
    BitVec.allOnes 2 ++ 0#1 ++ 0#11 ++ BitVec.allOnes 2 ++ 0#32 := rfl
  rw [hmask]
  unfold record
  rw [BitVec.and_append, BitVec.and_append, BitVec.and_append, BitVec.and_append, BitVec.and_allOnes,
    BitVec.and_allOnes, BitVec.and_zero, BitVec.and_zero, BitVec.and_zero]
  rfl

theorem and_upper_eq_iff (off : BitVec 11) : off &&& 0x400#11 = 0x400#11 ↔ off.getLsbD 10 = true := by
  have hbit : (0x400#11 : BitVec 11) = BitVec.twoPow 11 10 := rfl
  rw [hbit, BitVec.and_twoPow]
  cases off.getLsbD 10 <;> decide

section rows
variable {we we' : Bool} {off off' : BitVec 11} {align align' : BitVec 2} {v : Word} {c : BitVec 4}

theorem matches_commandRow :
    record we off align v &&& (commandRow c).mask = (commandRow c).pattern ↔
      we = true ∧ off = 0#11 ∧ align = 0#2 ∧ v.extractLsb' 0 4 = c := by
  rw [commandRow, record_and_cmd, commandRecord, record_inj,
    (Function.LeftInverse.injective extractLsb'_setWidth_cmd).eq_iff]

theorem matches_registerRow :
    record we off align v &&& (registerRow we' off').mask = (registerRow we' off').pattern ↔
      we = we' ∧ off = off' ∧ align = 0#2 := by
  rw [registerRow, record_and_zero, record_inj]
  simp only [and_true]

theorem matches_windowRow :
    record we off align v &&& (windowRow we').mask = (windowRow we').pattern ↔
      we = we' ∧ off.getLsbD 10 = true ∧ align = 0#2 := by
  rw [windowRow, record_and_window, record_inj, and_upper_eq_iff]
  simp only [and_true]

theorem matches_misalignedRow :
    record we off align v &&& (misalignedRow align').mask = (misalignedRow align').pattern ↔ align = align' := by
  rw [misalignedRow, record_and_misaligned, record_inj]
  simp only [and_true, true_and]

end rows

/-! ### Rows that match -/

/-- What R80 asks of a row: a record that matches it decodes to the row's mnemonic, or beyond the window to the bus
error. -/
def RowHolds (p : Params) (t : Record) (r : OpcodeRow) : Prop :=
  t &&& r.mask = r.pattern →
    ∃ i, decode p (.txn t) = .ok i ∧
      i.mnemonic =
        if (r.mnemonic = "WR_DATA" ∨ r.mnemonic = "RD_DATA") ∧ p.nMax ≤ (t.extractLsb' 34 10).toNat
        then "BUSERR_UNMAPPED" else r.mnemonic

/-- A row that is none of the window's has one mnemonic. -/
theorem rowHolds_of_not_window {p : Params} {t : Record} {r : OpcodeRow}
    (hr : ¬ (r.mnemonic = "WR_DATA" ∨ r.mnemonic = "RD_DATA"))
    (h : t &&& r.mask = r.pattern → ∃ i, decodeTxn p t = .ok i ∧ i.mnemonic = r.mnemonic) : RowHolds p t r := by
  intro hmatch
  rw [if_neg fun hw => hr hw.1]
  exact h hmatch

section holds
variable (p : Params) (we : Bool) (off : BitVec 11) (align : BitVec 2) (v : Word)

theorem commandRow_not_window (c : BitVec 4) :
    ¬ ((commandRow c).mnemonic = "WR_DATA" ∨ (commandRow c).mnemonic = "RD_DATA") := by
  have hmem := decodeCommand_mem c
  simp only [commandRow]
  generalize decodeCommand c = i at hmem
  fin_cases hmem <;> simp [Instr.mnemonic]

theorem rowHolds_commandRow (c : BitVec 4) : RowHolds p (record we off align v) (commandRow c) := by
  refine rowHolds_of_not_window (commandRow_not_window c) fun h => ?_
  obtain ⟨rfl, rfl, rfl, hc⟩ := matches_commandRow.mp h
  refine ⟨decodeCommand c, ?_, rfl⟩
  rw [decodeTxn_write _ _ rfl, decodeWrite, recOff_record, if_pos rfl, recCmd_record, hc]

theorem registerRow_not_window {off : BitVec 11} (h : off.toNat < 0xA) :
    ¬ ((registerRow we off).mnemonic = "WR_DATA" ∨ (registerRow we off).mnemonic = "RD_DATA") := by
  rcases register_offset_cases h with rfl | rfl | rfl | rfl | rfl | rfl | rfl | rfl | rfl | rfl <;>
    cases we <;> simp [registerRow, decodeWrite, decodeRead, decodeCommand, Instr.mnemonic]

/-- The mnemonic of a register write does not depend on the data. -/
theorem mnemonic_decodeWrite {off : BitVec 11} (h : off ∈ writtenOffsets) :
    (decodeWrite (record true off 0#2 v)).mnemonic = (registerRow true off).mnemonic := by
  obtain ⟨h, h0⟩ := mem_writtenOffsets.mp h
  rcases register_offset_cases h with rfl | rfl | rfl | rfl | rfl | rfl | rfl | rfl | rfl | rfl
  · exact absurd rfl h0
  all_goals simp [registerRow, decodeWrite, Instr.mnemonic]

theorem mnemonic_decodeRead : (decodeRead (record false off 0#2 v)).mnemonic = (registerRow false off).mnemonic := by
  simp only [registerRow, if_neg Bool.false_ne_true, decodeRead, recOff_record]

theorem rowHolds_registerRow_write {o : BitVec 11} (h : o ∈ writtenOffsets) :
    RowHolds p (record we off align v) (registerRow true o) := by
  have hlt := (mem_writtenOffsets.mp h).1
  refine rowHolds_of_not_window (registerRow_not_window true hlt) fun hmatch => ?_
  obtain ⟨rfl, rfl, rfl⟩ := matches_registerRow.mp hmatch
  exact ⟨_, decodeTxn_write p v (lower_of_register hlt), mnemonic_decodeWrite v h⟩

theorem rowHolds_registerRow_read {o : BitVec 11} (h : o ∈ readOffsets) :
    RowHolds p (record we off align v) (registerRow false o) := by
  have hlt := mem_readOffsets.mp h
  refine rowHolds_of_not_window (registerRow_not_window false hlt) fun hmatch => ?_
  obtain ⟨rfl, rfl, rfl⟩ := matches_registerRow.mp hmatch
  exact ⟨_, decodeTxn_read p v (lower_of_register hlt), mnemonic_decodeRead _ v⟩

theorem rowHolds_windowRow (we' : Bool) : RowHolds p (record we off align v) (windowRow we') := by
  have hwindow : (windowRow we').mnemonic = "WR_DATA" ∨ (windowRow we').mnemonic = "RD_DATA" := by
    cases we' with
    | true => exact .inl rfl
    | false => exact .inr rfl
  intro h
  obtain ⟨rfl, hupper, rfl⟩ := matches_windowRow.mp h
  have hindex : (record we off 0#2 v).extractLsb' 34 10 = off.extractLsb' 0 10 := recIndex_record we off 0#2 v
  rw [hindex, eq_dataOffset_of_upper hupper, dataOffset_index]
  refine ⟨_, decodeTxn_window p we _ v, ?_⟩
  by_cases hlt : (off.extractLsb' 0 10).toNat < p.nMax
  · have hin : ¬ p.nMax ≤ (off.extractLsb' 0 10).toNat := Nat.not_le.mpr hlt
    rw [if_pos hlt]
    cases we <;> exact (if_neg fun hout => hin hout.2).symm
  · rw [if_neg hlt, if_pos ⟨hwindow, Nat.le_of_not_lt hlt⟩]
    rfl

theorem rowHolds_misalignedRow {a : BitVec 2} (h : a ≠ 0#2) :
    RowHolds p (record we off align v) (misalignedRow a) := by
  refine rowHolds_of_not_window (by rw [misalignedRow]; split_ifs <;> simp) fun hmatch => ?_
  obtain rfl := matches_misalignedRow.mp hmatch
  rcases align_cases align with rfl | rfl | rfl | rfl
  · exact absurd rfl h
  · exact ⟨_, decodeTxn_misaligned1 p we off v, rfl⟩
  · exact ⟨_, decodeTxn_misaligned2 p we off v, rfl⟩
  · exact ⟨_, decodeTxn_misaligned3 p we off v, rfl⟩

end holds



/-- R80, R142: each row of the table, by its kind. -/
theorem rowHolds_of_mem {p : Params} {t : Record} (htop : recTop t = 0#2) {r : OpcodeRow} (hr : r ∈ opcodeRows) :
    RowHolds p t r := by
  obtain ⟨we, off, align, v, rfl⟩ := exists_record htop
  rw [opcodeRows_eq] at hr
  simp only [List.mem_append, List.mem_map, List.mem_singleton] at hr
  rcases hr with ((((⟨c, -, rfl⟩ | ⟨o, ho, rfl⟩) | rfl) | ⟨o, ho, rfl⟩) | rfl) | ⟨a, ha, rfl⟩
  · exact rowHolds_commandRow p we off align v c
  · exact rowHolds_registerRow_write p we off align v ho
  · exact rowHolds_windowRow p we off align v true
  · exact rowHolds_registerRow_read p we off align v ho
  · exact rowHolds_windowRow p we off align v false
  · exact rowHolds_misalignedRow p we off align v (by rintro rfl; revert ha; decide)

/-! ### Records that no row matches -/

/-- R71, R142: a record that no row matches is an aligned access below the window at no register. -/
theorem unmapped_of_no_row {we : Bool} {off : BitVec 11} {align : BitVec 2} {v : Word}
    (h : ∀ r ∈ opcodeRows, record we off align v &&& r.mask ≠ r.pattern) :
    align = 0#2 ∧ off.getLsbD 10 = false ∧ 0xA ≤ off.toNat := by
  rw [opcodeRows_eq] at h
  simp only [List.forall_mem_append, List.forall_mem_map, List.forall_mem_singleton] at h
  obtain ⟨⟨⟨⟨⟨hcommand, hwrite⟩, hwindow⟩, hread⟩, hwindow'⟩, hmisaligned⟩ := h
  have halign : align = 0#2 := by
    rcases align_cases align with h0 | h1 | h2 | h3
    · exact h0
    · exact absurd (matches_misalignedRow.mpr h1) (hmisaligned 1#2 (by decide))
    · exact absurd (matches_misalignedRow.mpr h2) (hmisaligned 2#2 (by decide))
    · exact absurd (matches_misalignedRow.mpr h3) (hmisaligned 3#2 (by decide))
  refine ⟨halign, ?lower, Nat.le_of_not_lt fun hlt => ?register⟩
  case lower =>
    rw [Bool.eq_false_iff]
    intro hupper
    cases we with
    | true => exact hwindow (matches_windowRow.mpr ⟨rfl, hupper, halign⟩)
    | false => exact hwindow' (matches_windowRow.mpr ⟨rfl, hupper, halign⟩)
  case register =>
    cases we with
    | true =>
      by_cases h0 : off = 0#11
      · exact hcommand _ (mem_commandCodes _) (matches_commandRow.mpr ⟨rfl, h0, halign, rfl⟩)
      · exact hwrite off (mem_writtenOffsets.mpr ⟨hlt, h0⟩) (matches_registerRow.mpr ⟨rfl, rfl, halign⟩)
    | false => exact hread off (mem_readOffsets.mpr hlt) (matches_registerRow.mpr ⟨rfl, rfl, halign⟩)

/-- Settles O3: `rowHolds_of_mem` for a row that matches, `unmapped_of_no_row` where none does. -/
theorem opcodeTableRowsDecode : Obligations.OpcodeTableRowsDecode := by
  intro p t _ htop
  refine ⟨fun r hr => rowHolds_of_mem htop hr, fun h => ?_⟩
  obtain ⟨we, off, align, v, rfl⟩ := exists_record htop
  obtain ⟨rfl, hlower, hoff⟩ := unmapped_of_no_row h
  exact ⟨_, decodeTxn_unmapped (unmappedOffset_of_lower hoff hlower) we v, rfl⟩

end Sys2Proof.Machine
end

