-- ==== Sys2Proof/Proofs/Invariant.lean ====
section
/-! PROOFS. The invariant of the reachable states (42_sequencer R130): it holds at reset, every step keeps it, and no
step from a state that meets it stops. FAULT rises through fault entry alone (60_exceptions R151, R152). -/

namespace Sys2Proof.Machine

variable {s t u : State}

/-! ## Reset -/

/-- Settles O11: in PHASE IDLE the invariant is about the flags, the parameters and the memories alone. -/
theorem resetStateMeetsInv : Obligations.ResetStateMeetsInv :=
  .of_quiet (by decide) (.inl rfl) (by decide) (by decide)

/-! ## Every step keeps the invariant -/

theorem EngineTurn.inv (hu : EngineTurn s u) (h : Inv s) : Inv u := by
  rcases hu with ⟨-, rfl⟩ | ⟨rest, -, rfl⟩
  · exact h
  · exact h.withInbox rest

/-- A transaction keeps the invariant. -/
theorem Inv.exec_txn {p : Params} {r : Record} {i : Instr} (h : Inv s) (d : decodeTxn p r = .ok i)
    (hx : exec i s = .next t) : Inv t := by
  obtain ⟨t', hx', hcases⟩ := exec_host_cases d s
  obtain rfl : t' = t := Host.Outcome.next.inj (hx'.symm.trans hx)
  rcases hcases with ⟨a, rfl⟩ | ⟨-, rfl⟩ | ⟨hidle, v, hv, rfl⟩
  · exact h.withRsp (some a)
  · exact h.ignored
  · exact (h.idleEffect hidle hv).withRsp _

/-- The micro-op that PHASE names keeps the invariant. -/
theorem Inv.exec_microOp {i : Instr} (h : Inv s) (d : decodePhase s.phase = .ok i) (hx : exec i s = .next t) :
    Inv t := by
  rcases decodePhase_ok d with ⟨hp, rfl⟩ | ⟨hp, rfl⟩ | ⟨hp, rfl⟩ | ⟨hp, rfl⟩
  · obtain rfl := Host.Outcome.next.inj ((exec_seed s).symm.trans hx)
    exact h.launchSweep hp
  · obtain ⟨-, rfl⟩ := exec_fill hx
    exact h.fillWord hp
  · obtain ⟨-, rfl⟩ := Machine.exec_encStep hx
    exact h.encStep hp
  · obtain ⟨-, -, rfl⟩ := Machine.exec_decStep hx
    exact h.decStep hp

/-- Settles O12: a step is a reset, a transaction, a micro-op or nothing, and each keeps the invariant. -/
theorem everyStepKeepsInv : Obligations.EveryStepKeepsInv := by
  intro s t h hstep
  rcases step_cases hstep with ⟨rest, -, rfl⟩ | ⟨r, rest, i, -, hd, hx⟩ | ⟨u, i, hu, hd, hx⟩ | ⟨ht, -⟩
  · exact (h.withInbox rest).resetStep
  · exact (h.withInbox rest).exec_txn hd hx
  · exact (hu.inv h).exec_microOp (hu.phase ▸ hd) hx
  · exact ht.inv h

/-! ## No step stops -/

/-- ENC_STEP completes where its indexes lie inside the window. -/
theorem exec_encStep_of_inside (h : s.sweepStop = none) : exec .encStep s = .next s.encUpdate.encAdvance := by
  simp only [exec, execEncStep, h]

/-- DEC_STEP completes where its indexes lie inside the window and the keystream RAM. -/
theorem exec_decStep_of_inside (h : s.sweepStop = none) (hk : s.replayIndex < s.params.ksDepth) :
    exec .decStep s = .next s.decUpdate.decAdvance := by
  simp only [exec, execDecStep, h, if_neg (Nat.not_le.mpr hk)]

/-- KSPTR - 1 does not wrap where KSPTR is not 0. -/
theorem State.replayIndex_eq (h : 1 ≤ s.ksptr.toNat) : s.replayIndex = s.ksptr.toNat - 1 :=
  BitVec.toNat_sub_of_le (y := 1#32) h

/-- In the middle of a decrypt the cursor lies inside the keystream of its operation (R130). -/
theorem Inv.ksptr_le (h : Inv s) (hp : s.phase = 4#4) :
    1 ≤ s.ksptr.toNat ∧ s.ksptr.toNat ≤ s.n.toNat * s.rounds.toNat := by
  have hb : s.busy = true := s.busy_iff.mpr (.inr (.inr (.inr hp)))
  obtain ⟨hr1, hrR, hpn, -⟩ := h.sweep hb (by simp [hp])
  obtain ⟨-, hk, -⟩ := h.dec hp
  have hle : (s.rnd.toNat - 1 + 1) * s.n.toNat ≤ s.rounds.toNat * s.n.toNat := Nat.mul_le_mul_right _ (by omega)
  rw [Nat.add_mul, Nat.mul_comm s.rounds.toNat] at hle
  omega

/-- In the invariant the engine's micro-op completes. -/
theorem Inv.exec_microOp_next {i : Instr} (h : Inv s) (d : decodePhase s.phase = .ok i) : ∃ t, exec i s = .next t := by
  rcases decodePhase_ok d with ⟨hp, rfl⟩ | ⟨hp, rfl⟩ | ⟨hp, rfl⟩ | ⟨hp, rfl⟩
  · exact ⟨_, exec_seed s⟩
  · obtain ⟨-, -, -, -, -, -, -, -, -, hfits⟩ := h.bounds (s.busy_iff.mpr (.inr (.inl hp)))
    obtain ⟨hdir, hk, -⟩ := h.fill hp
    exact ⟨_, exec_fill_of_lt (Nat.lt_of_lt_of_le hk (hfits hdir))⟩
  · obtain ⟨-, -, -, -, hstop⟩ := h.sweep_arith (s.busy_iff.mpr (.inr (.inr (.inl hp)))) (by simp [hp])
    exact ⟨_, exec_encStep_of_inside hstop⟩
  · have hb : s.busy = true := s.busy_iff.mpr (.inr (.inr (.inr hp)))
    obtain ⟨-, -, -, -, -, -, -, -, -, hfits⟩ := h.bounds hb
    obtain ⟨hdir, -⟩ := h.dec hp
    obtain ⟨hk1, hkL⟩ := h.ksptr_le hp
    obtain ⟨-, -, -, -, hstop⟩ := h.sweep_arith hb (by simp [hp])
    have hks := hfits hdir
    exact ⟨_, exec_decStep_of_inside hstop (by rw [State.replayIndex_eq hk1]; omega)⟩

/-- In the invariant the engine's turn answers a next state, whether PHASE names a micro-op or none. -/
theorem Inv.safe_of_engineTurn (h : Inv s) (hu : EngineTurn s u) : Safe s := by
  have quiet : s.phase = 0#4 ∨ s.phase = 0xF#4 → Safe s := fun hq => ⟨u, step_quiet hu hq⟩
  have busy : ∀ i, decodePhase s.phase = .ok i → Safe s := by
    intro i hd
    obtain ⟨t, hx⟩ := (hu.inv h).exec_microOp_next (hu.phase ▸ hd)
    exact ⟨t, (step_microOp hu hd).trans hx⟩
  rcases h.phase with hp | hp | hp | hp | hp | hp
  · exact quiet (.inl hp)
  · exact busy .seed (by rw [hp]; rfl)
  · exact busy .fill (by rw [hp]; rfl)
  · exact busy .encStep (by rw [hp]; rfl)
  · exact busy .decStep (by rw [hp]; rfl)
  · exact quiet (.inr hp)

/-- Settles O13: the cases of the event that comes next. -/
theorem invStatesNeverStop : Obligations.InvStatesNeverStop := by
  intro s h hinput
  match hi : s.inbox with
  | [] => exact h.safe_of_engineTurn (.inl ⟨hi, rfl⟩)
  | .engine :: rest => exact h.safe_of_engineTurn (.inr ⟨rest, hi, rfl⟩)
  | .reset :: rest => exact ⟨_, step_reset hi⟩
  | .txn r :: rest =>
    obtain ⟨i, hd⟩ := decodeTxn_total (p := s.params) (r := r) (by simpa [InputSound, hi] using hinput)
    obtain ⟨t, hx, -⟩ := exec_host_cases hd { s with inbox := rest }
    exact ⟨t, (step_txn hi hd).trans hx⟩

/-! ## The rise of FAULT (R151, R152) -/

/-- What has happened where FAULT has risen: a fault entry from IDLE, with a code of R151 but SEED_BAD, that changed no
key, no count and no DATA byte. -/
def FaultEntered (s t : State) : Prop :=
  ∃ (u : State) (c : FaultCode), s.phase = 0#4 ∧ c ≠ .seedBad ∧ t = (u.raiseFault c).answerWrite ∧
    u.count = s.count ∧ u.key0 = s.key0 ∧ u.key1 = s.key1 ∧ u.key2 = s.key2 ∧ u.key3 = s.key3 ∧ ∀ a, u.dataByte a = s.dataByte a

/-- Of the effects of a write in IDLE only CMD_RUN and a reserved command raise FAULT. -/
theorem IdleEffect.faultEntered (hv : IdleEffect s u) (hidle : s.phase = 0#4) (h0 : s.fault = false)
    (h1 : u.fault = true) : FaultEntered s u.answerWrite := by
  rcases hv with rfl | rfl | rfl | ⟨v, rfl⟩ | ⟨v, rfl⟩ | ⟨v, rfl⟩ | ⟨v, rfl⟩ | ⟨v, rfl⟩ | ⟨j, v, -, rfl⟩
  case inr.inl =>
    rcases s.run_cases with ⟨c, hc, -, e⟩ | ⟨-, e⟩ | ⟨-, -, -, -, e⟩ <;> rw [e] at h1 ⊢
    · exact ⟨s.beginRun, c, hidle, hc, rfl, rfl, rfl, rfl, rfl, rfl, fun _ => rfl⟩
    all_goals exact absurd (h0.symm.trans h1) Bool.false_ne_true
  case inr.inr.inl =>
    exact ⟨s, .badCmd, hidle, by decide, rfl, rfl, rfl, rfl, rfl, rfl, fun _ => rfl⟩
  all_goals exact absurd (h0.symm.trans h1) Bool.false_ne_true

/-- The micro-ops raise no fault (R103, R152). -/
theorem exec_microOp_fault {c : PhaseCode} {i : Instr} (d : decodePhase c = .ok i) (hx : exec i s = .next t) :
    t.fault = s.fault := by
  rcases decodePhase_ok d with ⟨-, rfl⟩ | ⟨-, rfl⟩ | ⟨-, rfl⟩ | ⟨-, rfl⟩
  · obtain rfl := Host.Outcome.next.inj ((exec_seed s).symm.trans hx)
    exact State.startSweep_fault _
  · obtain ⟨-, rfl⟩ := exec_fill hx; rfl
  · obtain ⟨-, rfl⟩ := Machine.exec_encStep hx
    exact State.encAdvance_fault _
  · obtain ⟨-, -, rfl⟩ := Machine.exec_decStep hx
    exact State.decAdvance_fault _

/-- R152: a step that raises FAULT is a fault entry from IDLE. -/
theorem faultEntered_of_step (hstep : step s = .next t) (h0 : s.fault = false) (h1 : t.fault = true) :
    FaultEntered s t := by
  rcases step_cases hstep with ⟨rest, -, rfl⟩ | ⟨r, rest, i, -, hd, hx⟩ | ⟨u, i, hu, hd, hx⟩ | ⟨hu, -⟩
  · exact absurd h1 Bool.false_ne_true
  · obtain ⟨t', hx', hcases⟩ := exec_host_cases hd { s with inbox := rest }
    obtain rfl : t' = t := Host.Outcome.next.inj (hx'.symm.trans hx)
    rcases hcases with ⟨a, rfl⟩ | ⟨-, rfl⟩ | ⟨hidle, v, hv, rfl⟩
    · exact absurd (h0.symm.trans h1) Bool.false_ne_true
    · exact absurd (h0.symm.trans h1) Bool.false_ne_true
    · exact hv.faultEntered hidle h0 h1
  · rw [exec_microOp_fault hd hx, hu.eq_tail] at h1
    exact absurd (h0.symm.trans h1) Bool.false_ne_true
  · rw [hu.eq_tail] at h1
    exact absurd (h0.symm.trans h1) Bool.false_ne_true

/-- R151: of the codes only SEED_BAD is 5. -/
theorem FaultCode.code_ne_five {c : FaultCode} (h : c ≠ .seedBad) : c.code ≠ 5#4 := by
  cases c with
  | seedBad => exact absurd rfl h
  | keyWeak | countOne | countRange | ksAlloc | badCmd => decide

/-- Settles O51: what a fault entry writes and leaves. -/
theorem faultRisesOnlyByFaultEntry : Obligations.FaultRisesOnlyByFaultEntry := by
  intro s t _ hstep h0 h1
  obtain ⟨u, c, hidle, hc, rfl, hcount, hkey0, hkey1, hkey2, hkey3, hdata⟩ := faultEntered_of_step hstep h0 h1
  exact ⟨rfl, State.not_busy_of_fault rfl, rfl, c.code_range.1, c.code_range.2, c.code_ne_five hc, hidle, hcount, hkey0,
    hkey1, hkey2, hkey3, hdata⟩

end Sys2Proof.Machine
end

