-- ==== Sys2Proof/Proofs/Steps.lean ====
section
/-! PROOFS. What one step runs (00_scope R10, 42_sequencer R116, 30_encoding R81, R85), and the transactions whose
statements go beyond one offset: the launch of an operation (43_host_interface R145), what CMD_RUN leaves (60_exceptions
R154), and the host's access to a running operation (42_sequencer R129). -/

namespace Sys2Proof.Machine

/-! ## The step of each agent -/

/-- Settles O6: `step_txn`. -/
theorem stepRunsTheTransaction : Obligations.StepRunsTheTransaction := fun _ _ _ _ hinbox hdecode =>
  step_txn hinbox hdecode

/-- R79, R82: the reserved codes of PHASE. -/
theorem decodePhase_reserved {c : PhaseCode} (h5 : 5 ≤ c.toNat) (h14 : c.toNat ≤ 14) :
    decodePhase c = .error .reservedPhase := by
  revert c; decide

/-- R82, log 7: in a reserved PHASE the engine's turn is refused. -/
theorem step_reserved {s u : State} (hu : EngineTurn s u) (hd : decodePhase s.phase = .error .reservedPhase) :
    step s = .refused (.reservedPhase s.phase) := by
  simp only [step, hu.fetch, State.fetchEngine, hu.phase, hd]

/-- Settles O7: `step_microOp` for the codes 1 to 4, `step_quiet` for IDLE and FAULT, `step_reserved` for the others. -/
theorem engineStepsExactlyWhileBusy : Obligations.EngineStepsExactlyWhileBusy := by
  intro s t hturn
  have hu : EngineTurn s t := hturn
  refine ⟨fun hp => ?_, fun hp => ?_, fun hp => ?_, fun hp => ?_, step_quiet hu,
    fun ⟨h5, h14⟩ => step_reserved hu (decodePhase_reserved h5 h14), s.busy_iff_toNat⟩
  all_goals exact step_microOp hu (by rw [hp]; rfl)

/-! ## A word of the opcode table placed for the next step (log 14) -/

/-- What `readyMicroOp` writes: N, P and KSPTR at most. -/
theorem State.readyMicroOp_eq (s : State) : ∃ n p k, s.readyMicroOp = { s with n := n, p := p, ksptr := k } := by
  simp only [State.readyMicroOp]
  split_ifs <;> exact ⟨_, _, _, rfl⟩

/-- A value of PHASE placed for the next step is the engine's step. -/
theorem step_placed_phase {s : State} {c : PhaseCode} {i : Instr} (hd : decodePhase c = .ok i) :
    ∃ t, step ({ s with phase := c, inbox := .engine :: s.inbox } : State).readyMicroOp = exec i t ∧
      t.inbox = s.inbox ∧ t.data = s.data ∧ t.ks = s.ks := by
  obtain ⟨n, p, k, e⟩ := State.readyMicroOp_eq { s with phase := c, inbox := .engine :: s.inbox }
  rw [e]
  exact ⟨_, step_microOp (.inr ⟨s.inbox, rfl, rfl⟩) hd, rfl, rfl, rfl⟩

/-- A record placed for the next step is the transaction it decodes to. -/
theorem step_placed_txn {s : State} {r : Record} {i : Instr} (hd : decodeTxn s.params r = .ok i) :
    step { s with inbox := .txn r :: s.inbox } = exec i s :=
  step_txn rfl hd

theorem toOption_eq_some {ε α : Type} {e : Except ε α} {a : α} (h : e.toOption = some a) : e = .ok a := by
  cases e with
  | ok b => exact congrArg _ (Option.some.inj h)
  | error => cases h

/-- Settles O8: the two kinds of rows, a value of PHASE and a record. -/
theorem placedWordRunsNext : Obligations.PlacedWordRunsNext := by
  intro s nbits w i hparams hd
  rw [State.withFetchWord, State.placeTableWord]
  by_cases hbits : nbits ≤ 8
  · rw [decodeTableWord, if_pos hbits] at hd
    split_ifs at hd with hw
    rw [if_pos ⟨hbits, hw⟩]
    obtain ⟨t, hstep, hinbox, hdata, hks⟩ := step_placed_phase (s := s) (toOption_eq_some hd)
    exact ⟨t, hstep, hinbox, hdata, hks, fun h8 => absurd hbits (Nat.not_le.mpr h8)⟩
  · rw [decodeTableWord, if_neg hbits] at hd
    split_ifs at hd with hw
    rw [if_neg (fun h => hbits h.1), if_pos ⟨Nat.lt_of_not_le hbits, hw⟩]
    exact ⟨s, step_placed_txn (hparams ▸ toOption_eq_some hd), rfl, rfl, rfl, fun _ => rfl⟩

/-! ## Reset (log 4, 5, 15) -/

/-- Settles O10: `step_reset`; a byte that nothing has written reads as the free value of its reset. -/
theorem memoryIsUnknownAfterReset : Obligations.MemoryIsUnknownAfterReset := fun _ _ hinbox =>
  ⟨_, step_reset hinbox, rfl, rfl, rfl, fun _ => ⟨rfl, rfl⟩⟩

/-! ## Reads and bus errors -/

/-- Settles O16: each arm of a register read is its answer. -/
theorem registerReadsComplete : Obligations.RegisterReadsComplete := fun _ =>
  ⟨rfl, rfl, rfl, rfl, rfl, rfl, rfl, rfl, rfl, rfl⟩

/-- Settles O21: the bus errors are one answer, and so is a DATA access whose index fails its test. -/
theorem busErrorsChangeNothing : Obligations.BusErrorsChangeNothing := fun _ _ _ _ _ =>
  ⟨rfl, rfl, rfl, rfl, fun hout => ⟨if_neg (Nat.not_lt.mpr hout), if_neg (Nat.not_lt.mpr hout)⟩⟩

/-! ## PRNG_SEED (R87) -/

/-- Settles O30: the test of R87 is that the increment is odd, which excludes 0. -/
theorem prngSeedClearsTheState : Obligations.PrngSeedClearsTheState := by
  intro s inc
  refine ⟨fun hodd => if_pos ((seedGood_iff inc).mpr hodd), fun hbad => if_neg fun hgood => ?_⟩
  have hodd := (seedGood_iff inc).mp hgood
  rcases hbad with h0 | heven
  · exact ne_zero_of_odd hodd h0
  · exact Bool.false_ne_true (heven.symm.trans hodd)

/-! ## CMD_RUN -/

theorem exec_cmdRun (s : State) : exec .cmdRun s = .next (s.gatedWrite State.run) := rfl

/-- A register that holds a small number holds it exactly. -/
theorem toNat_ofNat_word {n : Nat} (h : n < 2 ^ 32) : (BitVec.ofNat 32 n).toNat = n := by
  rw [BitVec.toNat_ofNat, Nat.mod_eq_of_lt h]

/-- Settles O26: of CMD_RUN's outcomes only the launch ends in PHASE SEED. -/
theorem launchPostconditions : Obligations.LaunchPostconditions := by
  intro s t hvalid hidle hx hseed
  obtain ⟨-, hmax, -⟩ := hvalid
  rw [exec_cmdRun, State.gatedWrite_idle hidle] at hx
  obtain rfl := Host.Outcome.next.inj hx
  rcases s.run_cases with ⟨c, -, -, e⟩ | ⟨-, e⟩ | ⟨h2, hn, hks, -, e⟩ <;> rw [e] at hseed ⊢
  · exact absurd hseed (by simp)
  · exact absurd (hidle.symm.trans hseed) (by decide)
  · have hround := roundsOf_le h2
    have hN : (BitVec.ofNat 32 (magnitude s.count)).toNat = magnitude s.count := toNat_ofNat_word (by omega)
    have hR : (BitVec.ofNat 32 (roundsOf (magnitude s.count))).toNat = roundsOf (magnitude s.count) :=
      toNat_ofNat_word (by omega)
    simp only [State.answerWrite_n, State.answerWrite_rounds, State.answerWrite_params, State.answerWrite_dir,
      State.launch_n, State.launch_rounds, State.launch_params, State.launch_dir, hN, hR]
    exact ⟨rfl, h2, hn, rfl, rfl, rfl, rfl, rfl, rfl, hks⟩

/-- R154: the registers that CMD_RUN writes in IDLE, and what it leaves of them when it takes a fault. -/
theorem State.run_frame (s : State) :
    s.run = { s with phase := s.run.phase, done := s.run.done, fault := s.run.fault, err := s.run.err,
                     wign := s.run.wign, dir := s.run.dir, rounds := s.run.rounds, draws := s.run.draws,
                     n := s.run.n } ∧
      (s.run.fault = true → s.fault = false → s.run.n = s.n ∧ s.run.rounds = 0#32 ∧ s.run.draws = 0#32) := by
  rcases s.run_cases with ⟨c, -, -, e⟩ | ⟨-, e⟩ | ⟨-, -, -, -, e⟩ <;> rw [e]
  · exact ⟨rfl, fun _ _ => ⟨rfl, rfl, rfl⟩⟩
  all_goals exact ⟨rfl, fun h1 h0 => absurd (h0.symm.trans h1) Bool.false_ne_true⟩

/-- Settles O27: `State.run_frame` in IDLE; elsewhere the gate only sets WIGN. -/
theorem runTouchesNoMessage : Obligations.RunTouchesNoMessage := by
  intro s t hx
  obtain rfl := Host.Outcome.next.inj ((exec_cmdRun s).symm.trans hx)
  by_cases hidle : s.phase = 0#4
  · obtain ⟨hframe, hfault⟩ := s.run_frame
    rw [State.gatedWrite_idle hidle]
    refine ⟨?_, fun a => ?_, hfault⟩
    · exact congrArg State.answerWrite hframe
    · exact (congrArg (fun u : State => u.dataByte a) hframe :)
  · rw [State.gatedWrite_ignored hidle]
    exact ⟨rfl, fun _ => rfl, fun h1 h0 => absurd (h0.symm.trans h1) Bool.false_ne_true⟩

/-! ## The host while BUSY (R129) -/

/-- Settles O50: BUSY excludes IDLE, and outside IDLE a transaction changes WIGN and the answer alone. -/
theorem hostCannotDisturbAnOperation : Obligations.HostCannotDisturbAnOperation := by
  intro s t rest hbusy hinbox htop
  have hidle : s.phase ≠ 0#4 := by
    intro hp
    exact Bool.false_ne_true ((State.not_busy_of_idle hp).symm.trans hbusy)
  obtain ⟨i, hd⟩ := decodeTxn_total (p := s.params) htop
  obtain ⟨w, a, hw, hx⟩ := exec_txn_of_not_idle (s := { s with inbox := rest }) hd hidle
  exact ⟨w, a, hw, (step_txn hinbox hd).trans hx⟩

end Sys2Proof.Machine
end

