-- ==== Sys2Proof/Proofs/MicroOps.lean ====
section
/-! PROOFS. The stream of the PRNG (40_prng R90, R91, R93) and the micro-ops of the engine (42_sequencer R117 to R121):
what each writes, what it leaves, and where it stops. -/

namespace Sys2Proof.Machine

open Claims

/-! ## The stream (R90, R91, R93) -/

/-- Settles O32: by induction on the draws; each adds the increment once. -/
theorem weylAccumulatorClosedForm : Obligations.WeylAccumulatorClosedForm := by
  intro inc x0 j
  induction j with
  | zero => simp [prngState]
  | succ j ih =>
    have hstep : (prngState inc x0 (j + 1)).2 = (prngState inc x0 j).2 + inc := rfl
    rw [hstep, ih, BitVec.ofNat_add, BitVec.add_mul, BitVec.one_mul]

/-- Two halves shifted up multiply to 0. -/
theorem shiftLeft_mul_self (v : DWord) : (v <<< 32) * (v <<< 32) = 0#64 := by
  rw [BitVec.shiftLeft_eq_mul_twoPow]
  have hpow : BitVec.twoPow 64 32 * BitVec.twoPow 64 32 = 0#64 := by decide
  calc v * BitVec.twoPow 64 32 * (v * BitVec.twoPow 64 32)
      = v * v * (BitVec.twoPow 64 32 * BitVec.twoPow 64 32) := by ac_rfl
    _ = 0#64 := by rw [hpow, BitVec.mul_zero]

/-- R8: exchanging the halves of a value below 2^32 shifts it up. -/
theorem swap32_of_lt {v : DWord} (h : v.toNat < 2 ^ 32) : swap32 v = v <<< 32 := by
  have hhigh : v >>> 32 = 0#64 := BitVec.eq_of_toNat_eq (by
    rw [BitVec.toNat_ushiftRight, Nat.shiftRight_eq_div_pow, Nat.div_eq_of_lt h]; rfl)
  rw [swap32, hhigh, BitVec.zero_or]

theorem lo32_shiftLeft (v : DWord) : lo32 (v <<< 32) = 0#32 := by
  ext i hi
  simp [lo32, hi]

/-- R93: while the accumulator stays below 2^32, X is the accumulator shifted up. -/
theorem prngState_of_small {inc : DWord} {j : Nat} (h : j * inc.toNat < 2 ^ 32) :
    (prngState inc 0#64 j).1 = BitVec.ofNat 64 (j * inc.toNat) <<< 32 := by
  induction j with
  | zero => simp [prngState]
  | succ j ih =>
    have hj : j * inc.toNat < 2 ^ 32 := Nat.lt_of_le_of_lt (Nat.mul_le_mul_right _ (Nat.le_succ j)) h
    have hW : (prngState inc 0#64 j).2 + inc = BitVec.ofNat 64 ((j + 1) * inc.toNat) := by
      rw [weylAccumulatorClosedForm, Nat.add_mul, Nat.one_mul, BitVec.ofNat_add, BitVec.ofNat_mul, BitVec.ofNat_toNat,
        BitVec.setWidth_eq]
    have hX : (prngState inc 0#64 (j + 1)).1 =
        swap32 (weylSquare (prngState inc 0#64 j).1 ((prngState inc 0#64 j).2 + inc)) := rfl
    rw [hX, ih hj, hW, weylSquare, shiftLeft_mul_self, BitVec.zero_add, swap32_of_lt]
    rw [BitVec.toNat_ofNat]
    omega

/-- Settles O33: the output of a draw is the low half of X. -/
theorem degenerateStreamFromZero : Obligations.DegenerateStreamFromZero := by
  intro inc j _ _ hj h
  have hX := prngState_of_small h
  refine ⟨?_, hX⟩
  rw [prngOut, Nat.sub_add_cancel hj, hX, lo32_shiftLeft]

/-- A draw reads and writes X and W alone, and reads S. -/
theorem State.iterate_draw_prng (s : State) (j : Nat) (hW : s.prngW = 0#64) :
    (State.draw^[j] s).prngX = (prngState s.prngS s.prngX j).1 ∧
      (State.draw^[j] s).prngW = (prngState s.prngS s.prngX j).2 ∧ (State.draw^[j] s).prngS = s.prngS := by
  induction j with
  | zero => exact ⟨rfl, hW, rfl⟩
  | succ j ih =>
    obtain ⟨hx, hw, hs⟩ := ih
    rw [Function.iterate_succ_apply', State.draw_prngX, State.draw_prngW, State.draw_prngS, hx, hw, hs]
    exact ⟨rfl, rfl, rfl⟩

/-- Settles O34: the output of draw j + 1 is the low half of X after it. -/
theorem prngOutputsDependOnSeedAndStart : Obligations.PrngOutputsDependOnSeedAndStart := by
  intro s j hW
  obtain ⟨hx, hw, -⟩ := s.iterate_draw_prng j hW
  obtain ⟨hx', -, -⟩ := s.iterate_draw_prng (j + 1) hW
  exact ⟨hx, hw, by rw [State.drawn, hx', prngOut]⟩

/-! ## The mixing value (R105, R106, R109) -/

/-- R105: the mixing value reads the neighbours of the word at P, never that word. -/
theorem State.whitened_setData (s : State) (h2 : 2 ≤ s.n.toNat) (hN : s.n.toNat ≤ 1024) (hP : s.p.toNat < s.n.toNat)
    (sum r v : Word) : (s.setData s.p.toNat v).whitened sum r = s.whitened sum r := by
  have hnext : s.nextIndex ≠ s.p.toNat := by
    rw [nextIndex_eq (by omega)]; exact next_ne _ _ h2 hP
  have hprev : s.prevIndex ≠ s.p.toNat := by
    rw [prevIndex_eq (by omega) hN (by omega)]; exact prev_ne _ _ h2 hP
  simp only [State.whitened, State.setData_nextIndex, State.setData_prevIndex, State.setData_keyWord, State.setData_p,
    s.dataWord_setData_other v hnext, s.dataWord_setData_other v hprev]

/-- Settles O37: the mixing value is the same again, so the subtraction takes back the addition. -/
theorem stepInverseLaw : Obligations.StepInverseLaw := by
  rintro s sum r _ hvalid h2 hN hP rfl
  obtain ⟨-, hmax, -⟩ := hvalid
  have hsame := s.whitened_setData h2 (by omega) hP sum r (s.dataWord s.p.toNat + s.whitened sum r)
  refine ⟨hsame, ?_, fun a ha => s.dataByte_setData ha⟩
  rw [hsame, State.dataWord_setData_same, BitVec.add_sub_cancel]

/-- R105: `v and 3` is the two low bits of v. -/
theorem and_three (v : Word) : v &&& 3#32 = (v.extractLsb' 0 2).setWidth 32 := by
  apply BitVec.eq_of_toNat_eq
  simp
  rw [show (3 : Nat) = 2 ^ 2 - 1 from rfl, Nat.and_two_pow_sub_one_eq_mod]; omega

/-- R105, R106: the key index of the statements, computed in 32 bits, is the two-bit one of the model. -/
theorem keyIndex_setWidth (p sum : Word) :
    (p &&& 3#32) ^^^ ((sum >>> 2) &&& 3#32) = (keyIndex p (sumIndex sum)).setWidth 32 := by
  have hsum : (sum >>> 2).extractLsb' 0 2 = sumIndex sum := by
    ext i hi; simp [sumIndex]
  rw [and_three, and_three, hsum, keyIndex, BitVec.setWidth_xor]

/-- R105: the statements' MX is the model's with the key word that P and the sum select. -/
theorem mix_eq (s : State) (y z sum : Word) :
    mix s y z sum = mx y z sum (s.keyWord (keyIndex s.p (sumIndex sum))) := by
  have hselect : ∀ k : BitVec 2, (k.setWidth 32 = 0#32 ↔ k = 0#2) ∧ (k.setWidth 32 = 1#32 ↔ k = 1#2) ∧
      (k.setWidth 32 = 2#32 ↔ k = 2#2) := by decide
  obtain ⟨h0, h1, h2⟩ := hselect (keyIndex s.p (sumIndex sum))
  simp only [mix, mx, keyIndex_setWidth, h0, h1, h2, State.keyWord]

/-- R106, R107: the whitened mixing value over the neighbours of the word at P. -/
theorem State.whitened_eq {s : State} (h1 : 1 ≤ s.n.toNat) (hN : s.n.toNat ≤ 1024) (hP : s.p.toNat < 1024)
    (sum r : Word) : s.whitened sum r = mix s (nextWord s) (prevWord s) sum ^^^ r := by
  rw [State.whitened, nextIndex_eq hP, prevIndex_eq h1 hN hP, mix_eq]; rfl

/-! ## ENC_STEP and DEC_STEP (R119 to R121) -/

/-- P is at the end of the round exactly at N - 1. -/
theorem State.p_eq_last_iff {s : State} (h1 : 1 ≤ s.n.toNat) : s.p = s.n - 1#32 ↔ s.p.toNat = s.n.toNat - 1 := by
  rw [← BitVec.toNat_inj, BitVec.toNat_sub_of_le (y := 1#32) h1]; rfl

theorem State.p_eq_zero_iff (s : State) : s.p = 0#32 ↔ s.p.toNat = 0 := BitVec.toNat_inj.symm

/-- R119, R121: the registers after an ENC_STEP, its branches at each register. -/
theorem State.encAdvance_eq {s : State} (h1 : 1 ≤ s.n.toNat) :
    s.encAdvance = { s with
      p := if s.p.toNat = s.n.toNat - 1 then 0#32 else s.p + 1#32
      rnd := if s.p.toNat = s.n.toNat - 1 then s.rnd - 1#32 else s.rnd
      phase := if s.p.toNat = s.n.toNat - 1 ∧ s.rnd - 1#32 = 0#32 then Phase.idle else s.phase
      done := if s.p.toNat = s.n.toNat - 1 ∧ s.rnd - 1#32 = 0#32 then true else s.done } := by
  simp only [← State.p_eq_last_iff h1]
  rcases s.encAdvance_cases with ⟨hp, e⟩ | ⟨hp, hr, e⟩ | ⟨hp, hr, e⟩ <;> rw [e]
  · simp only [if_neg hp, if_neg fun h : _ ∧ _ => hp h.1]
  · simp only [if_pos hp, if_neg fun h : _ ∧ _ => hr h.2]
  · simp only [if_pos hp, if_pos (And.intro hp hr)]

/-- R120, R121: the registers after a DEC_STEP, its branches at each register. -/
theorem State.decAdvance_eq (s : State) :
    s.decAdvance = { s with
      sum := if s.p.toNat = 0 then s.sum - delta else s.sum
      p := if s.p.toNat = 0 then s.n - 1#32 else s.p - 1#32
      rnd := if s.p.toNat = 0 then s.rnd - 1#32 else s.rnd
      phase := if s.p.toNat = 0 ∧ s.rnd - 1#32 = 0#32 then Phase.idle else s.phase
      done := if s.p.toNat = 0 ∧ s.rnd - 1#32 = 0#32 then true else s.done } := by
  simp only [← State.p_eq_zero_iff]
  rcases s.decAdvance_cases with ⟨hp, e⟩ | ⟨hp, hr, e⟩ | ⟨hp, hr, e⟩ <;> rw [e]
  · simp only [if_neg hp, if_neg fun h : _ ∧ _ => hp h.1]
  · simp only [if_pos hp, if_neg fun h : _ ∧ _ => hr h.2]
  · simp only [if_pos hp, if_pos (And.intro hp hr)]

/-- R107: ENC_STEP adds the whitened mixing value to the word at P. -/
theorem State.encUpdate_dataWord (s : State) (i : Nat) :
    s.encUpdate.dataWord i =
      if i = s.p.toNat then s.dataWord s.p.toNat + s.whitened s.encSum s.draw.drawn else s.dataWord i :=
  s.draw.dataWord_setData s.wordIndex i _

/-- R108: DEC_STEP subtracts it. -/
theorem State.decUpdate_dataWord (s : State) (i : Nat) :
    s.decUpdate.dataWord i =
      if i = s.p.toNat then s.dataWord s.p.toNat - s.whitened s.sum (s.ksWord s.replayIndex) else s.dataWord i :=
  s.dataWord_setData s.wordIndex i _

/-- Settles O40: `encUpdate` writes the word and draws, `encAdvance` moves the position. -/
theorem encStepUpdatesOneWord : Obligations.EncStepUpdatesOneWord := by
  rintro s _ hvalid h1 hN hP rfl
  obtain ⟨-, hmax, -⟩ := hvalid
  refine ⟨_, exec_encStep_of_inside (sweepStop_none h1 hN hmax hP), ?registers, ?word, fun a ha => ?outside,
    fun a => ?keystream⟩
  case registers => 
    rw [State.encAdvance_eq (by exact h1), State.encUpdate, State.draw_eq_square]
    rfl
  case word =>
    rw [State.encAdvance_dataWord, State.encUpdate_dataWord, if_pos rfl, State.drawn_draw,
      ← State.whitened_eq h1 (by omega) (by omega)]
    rfl
  case outside => rw [State.encAdvance_dataByte]; exact s.draw.dataByte_setData ha
  case keystream => rw [State.encAdvance_ksByte, State.encUpdate_ksByte]

/-- Settles O41: `decUpdate` takes the word back, `decAdvance` moves the position. -/
theorem decStepUndoesOneWord : Obligations.DecStepUndoesOneWord := by
  intro s hvalid h1 hN hP hk1 hk
  obtain ⟨-, hmax, -⟩ := hvalid
  have hreplay := State.replayIndex_eq hk1
  refine ⟨_, exec_decStep_of_inside (sweepStop_none h1 hN hmax hP) (by omega), ?registers, ?word, fun a ha => ?outside,
    fun a => ?keystream⟩
  case registers => rw [State.decAdvance_eq, State.decUpdate]; rfl
  case word =>
    rw [State.decAdvance_dataWord, State.decUpdate_dataWord, if_pos rfl, hreplay,
      ← State.whitened_eq h1 (by omega) (by omega)]
  case outside => rw [State.decAdvance_dataByte]; exact s.dataByte_setData ha
  case keystream => rw [State.decAdvance_ksByte, State.decUpdate_ksByte]

/-! ## Where the micro-ops stop (log 9) -/

theorem exec_encStep_of_stop {s : State} {f : Fault} (h : s.sweepStop = some f) : exec .encStep s = .fault f := by
  simp only [exec, execEncStep, h]

theorem exec_decStep_of_stop {s : State} {f : Fault} (h : s.sweepStop = some f) : exec .decStep s = .fault f := by
  simp only [exec, execDecStep, h]

/-- ENC_STEP and DEC_STEP make the same test of their indexes before anything else. -/
theorem exec_sweep_of_stop {s : State} {i : Instr} {f : Fault} (hi : i = .encStep ∨ i = .decStep)
    (h : s.sweepStop = some f) : exec i s = .fault f := by
  rcases hi with rfl | rfl
  · exact exec_encStep_of_stop h
  · exact exec_decStep_of_stop h

/-- Settles O42: the tests of `sweepStop` in their order, then those of the keystream index. -/
theorem microOpsStopOutsideTheirMemories : Obligations.MicroOpsStopOutsideTheirMemories := by
  rintro s _ _ _ _ rfl rfl rfl rfl
  refine ⟨fun i hi => ⟨fun h0 => ?zero, fun h0 hnext => ?next, fun h0 hnext hprev => ?prev,
    fun h0 hnext hprev hhere => ?here⟩, fun h0 hnext hprev hhere => ?inside, fun hk => if_pos hk,
    fun hk => ⟨_, exec_fill_of_lt hk⟩⟩
  case zero => exact exec_sweep_of_stop hi (if_pos h0)
  case next => exact exec_sweep_of_stop hi (by rw [State.sweepStop, if_neg h0]; exact if_pos hnext)
  case prev =>
    refine exec_sweep_of_stop hi ?_
    rw [State.sweepStop, if_neg h0, if_neg (by exact Nat.not_le.mpr hnext)]
    exact if_pos hprev
  case here =>
    refine exec_sweep_of_stop hi ?_
    rw [State.sweepStop, if_neg h0, if_neg (by exact Nat.not_le.mpr hnext), if_neg (by exact Nat.not_le.mpr hprev)]
    exact if_pos hhere
  case inside =>
    have hstop : s.sweepStop = none := by
      rw [State.sweepStop, if_neg h0, if_neg (by exact Nat.not_le.mpr hnext), if_neg (by exact Nat.not_le.mpr hprev)]
      exact if_neg (Nat.not_le.mpr hhere)
    refine ⟨⟨_, exec_encStep_of_inside hstop⟩, fun hk => ?_, fun hk => ⟨_, exec_decStep_of_inside hstop hk⟩⟩
    simp only [exec, execDecStep, hstop]
    exact if_pos hk

/-! ## What the micro-ops leave -/

/-- The state `s` with the registers and memories of the engine as `t` has them. -/
def engineWrites (s t : State) : State :=
  { s with
    phase := t.phase, done := t.done, draws := t.draws, rnd := t.rnd, p := t.p, sum := t.sum, ksptr := t.ksptr
    prngX := t.prngX, prngW := t.prngW, prngS := t.prngS, data := t.data, ks := t.ks }

/-- From `s` to `t` only the engine's registers and memories have changed. -/
def EngineFrame (s t : State) : Prop := t = engineWrites s t

namespace EngineFrame
variable {s t u : State}

protected theorem trans (hst : EngineFrame s t) (htu : EngineFrame t u) : EngineFrame s u :=
  have hwrites : engineWrites t u = engineWrites (engineWrites s t) u := congrArg (engineWrites · u) hst
  Eq.trans (b := engineWrites t u) htu hwrites

protected theorem n (h : EngineFrame s t) : t.n = s.n := (congrArg State.n h :)
protected theorem rounds (h : EngineFrame s t) : t.rounds = s.rounds := (congrArg State.rounds h :)
protected theorem dir (h : EngineFrame s t) : t.dir = s.dir := (congrArg State.dir h :)
protected theorem params (h : EngineFrame s t) : t.params = s.params := (congrArg State.params h :)
protected theorem inbox (h : EngineFrame s t) : t.inbox = s.inbox := (congrArg State.inbox h :)
protected theorem keyWord (h : EngineFrame s t) : t.keyWord = s.keyWord := (congrArg State.keyWord h :)
protected theorem increment (h : EngineFrame s t) : t.increment = s.increment := (congrArg State.increment h :)

theorem launchSweep (s : State) : EngineFrame s s.launchSweep := by
  cases hdir : s.dir with
  | false => rw [State.launchSweep, State.startSweep_of_encrypt (by exact hdir)]; rfl
  | true => rw [State.launchSweep, State.startSweep_of_decrypt (by exact hdir)]; rfl

theorem fillWord (s : State) : EngineFrame s s.fillWord := (rfl : s.fillWord = engineWrites s s.fillWord)

theorem encAdvance (s : State) : EngineFrame s s.encUpdate.encAdvance := by
  rcases s.encUpdate.encAdvance_cases with ⟨-, e⟩ | ⟨-, -, e⟩ | ⟨-, -, e⟩ <;> rw [e] <;> rfl

theorem decAdvance (s : State) : EngineFrame s s.decUpdate.decAdvance := by
  rcases s.decUpdate.decAdvance_cases with ⟨-, e⟩ | ⟨-, -, e⟩ | ⟨-, -, e⟩ <;> rw [e] <;> rfl

end EngineFrame

/-- R47: the bytes of DATA outside the word at P. -/
def SameDataOutside (s t : State) : Prop :=
  ∀ a, (a < dataAddr s.p.toNat ∨ dataAddr s.p.toNat + 4 ≤ a) → t.dataByte a = s.dataByte a

theorem sameDataOutside_encStep (s : State) : SameDataOutside s s.encUpdate.encAdvance := fun a ha => by
  rw [State.encAdvance_dataByte]; exact s.draw.dataByte_setData ha

theorem sameDataOutside_decStep (s : State) : SameDataOutside s s.decUpdate.decAdvance := fun a ha => by
  rw [State.decAdvance_dataByte]; exact s.dataByte_setData ha

theorem State.launchSweep_dataByte (s : State) (a : Nat) : s.launchSweep.dataByte a = s.dataByte a :=
  State.startSweep_dataByte _ a

theorem State.launchSweep_ksByte (s : State) (a : Nat) : s.launchSweep.ksByte a = s.ksByte a :=
  State.startSweep_ksByte _ a

/-- What each micro-op leaves of the host's registers, of the keystream and of the message. -/
theorem exec_microOp_frame {s t : State} {i : Instr} (hi : i ∈ microOps) (hx : exec i s = .next t) :
    EngineFrame s t ∧ (i ≠ .fill → ∀ a, t.ksByte a = s.ksByte a) ∧
      (i = .seed ∨ i = .fill → ∀ a, t.dataByte a = s.dataByte a) ∧ SameDataOutside s t := by
  simp only [microOps, List.mem_cons, List.not_mem_nil, or_false] at hi
  rcases hi with rfl | rfl | rfl | rfl
  · obtain rfl := Host.Outcome.next.inj ((exec_seed s).symm.trans hx)
    exact ⟨.launchSweep s, fun _ => s.launchSweep_ksByte, fun _ => s.launchSweep_dataByte,
      fun a _ => s.launchSweep_dataByte a⟩
  · obtain ⟨-, rfl⟩ := exec_fill hx
    exact ⟨.fillWord s, fun h => absurd rfl h, fun _ => s.fillWord_dataByte, fun a _ => s.fillWord_dataByte a⟩
  · obtain ⟨-, rfl⟩ := exec_encStep hx
    exact ⟨.encAdvance s, fun _ a => by rw [State.encAdvance_ksByte, State.encUpdate_ksByte], nofun,
      sameDataOutside_encStep s⟩
  · obtain ⟨-, -, rfl⟩ := exec_decStep hx
    exact ⟨.decAdvance s, fun _ a => by rw [State.decAdvance_ksByte, State.decUpdate_ksByte], nofun,
      sameDataOutside_decStep s⟩

/-- Settles O43: `exec_microOp_frame`, register by register. -/
theorem engineLeavesHostRegisters : Obligations.EngineLeavesHostRegisters := by
  intro s t i hi hx
  obtain ⟨hframe, hks, hdata, houtside⟩ := exec_microOp_frame hi hx
  have reg {α : Type} (f : State → α) : f t = f (engineWrites s t) := congrArg f hframe
  exact ⟨reg State.count, reg State.key0, reg State.key1, reg State.key2, reg State.key3, reg State.wign,
    reg State.dir, reg State.rounds, reg State.n, reg State.fault, reg State.err, reg State.params, reg State.inbox,
    reg State.rsp, reg State.resets, hks, hdata, houtside⟩

/-! ## SEED forgets the operation before it (R125) -/

/-- Settles O44: in both directions SEED's outcome is the one of `seedStartsTheSweep`, whose values read none of these
registers and write all of them. -/
theorem seedForgetsThePreviousOperation : Obligations.SeedForgetsThePreviousOperation := by
  intro s x w inc rnd p sum ksptr
  obtain ⟨encrypt, decrypt⟩ := seedStartsTheSweep s _ rfl
  obtain ⟨encrypt', decrypt'⟩ := seedStartsTheSweep
    { s with prngX := x, prngW := w, prngS := inc, rnd := rnd, p := p, sum := sum, ksptr := ksptr } _ rfl
  rcases Bool.eq_false_or_eq_true s.dir with hdir | hdir
  · exact (decrypt' hdir).trans (decrypt hdir).symm
  · exact (encrypt' hdir).trans (encrypt hdir).symm

end Sys2Proof.Machine
end

