-- ==== Sys2Proof/Proofs/Operations.lean ====
section
/-! PROOFS. Whole operations (42_sequencer R122 to R128). An operation is followed step by step: what the state holds
after k micro-ops is stated once for ENC_STEP, FILL and DEC_STEP, and the words of the message by the two sweeps on
messages alone. -/

namespace Sys2Proof.Machine

open Claims

/-! ## Runs -/

theorem steps_succ {s t : State} (h : step s = .next t) (k : Nat) : steps (k + 1) s = steps k t := by
  have hcore : core.step s = .next t := h
  simp only [steps, Host.Core.run, hcore]
  rfl

theorem steps_succ_eq_next {s t : State} {k : Nat} (h : steps (k + 1) s = .next t) :
    ∃ u, step s = .next u ∧ steps k u = .next t := by
  simp only [steps, Host.Core.run] at h
  split at h
  · exact ⟨_, ‹_›, h⟩
  all_goals cases h

theorem steps_add {s t : State} {j : Nat} (h : steps j s = .next t) (k : Nat) : steps (j + k) s = steps k t := by
  induction j generalizing s with
  | zero =>
    obtain rfl : s = t := Host.Outcome.next.inj h
    rw [Nat.zero_add]
  | succ j ih =>
    obtain ⟨u, hu, h⟩ := steps_succ_eq_next h
    rw [Nat.succ_add, steps_succ hu, ih h]

theorem steps_succ_right {s t u : State} {k : Nat} (h : steps k s = .next t) (hu : step t = .next u) :
    steps (k + 1) s = .next u :=
  (steps_add h 1).trans (steps_succ hu 0)

/-- A relation that each of `L` steps carries on holds along the whole run. -/
theorem steps_of_relation {P : Nat → State → Prop} {L : Nat} {s : State} (start : P 0 s)
    (next : ∀ k t, k < L → P k t → ∃ u, step t = .next u ∧ P (k + 1) u) :
    ∀ k ≤ L, ∃ t, steps k s = .next t ∧ P k t := by
  intro k
  induction k with
  | zero => exact fun _ => ⟨s, rfl, start⟩
  | succ k ih =>
    intro hk
    obtain ⟨t, ht, hP⟩ := ih (Nat.le_of_succ_le hk)
    obtain ⟨u, hu, hP'⟩ := next k t hk hP
    exact ⟨u, steps_succ_right ht hu, hP'⟩

/-! ## The sweeps on messages (R105 to R108, R123) -/

/-- What a sweep reads beside the message: the key words, the magnitude and the stream. -/
structure Cipher where
  key : BitVec 2 → Word
  n : Nat
  stream : Nat → Word

namespace Cipher
variable (c : Cipher)

/-- The sum of the round that step k lies in. -/
def roundSum (k : Nat) : Word := BitVec.ofNat 32 (k / c.n + 1) * delta

/-- The whitened mixing value of step k. -/
def whitening (k : Nat) (m : Nat → Word) : Word :=
  mx (m ((k % c.n + 1) % c.n)) (m ((k % c.n + c.n - 1) % c.n)) (c.roundSum k)
    (c.key (keyIndex (BitVec.ofNat 32 (k % c.n)) (sumIndex (c.roundSum k)))) ^^^ c.stream k

/-- Step k of an encrypt. -/
def encWord (k : Nat) (m : Nat → Word) : Nat → Word :=
  fun i => if i = k % c.n then m (k % c.n) + c.whitening k m else m i

/-- Step k of an encrypt undone. -/
def decWord (k : Nat) (m : Nat → Word) : Nat → Word :=
  fun i => if i = k % c.n then m (k % c.n) - c.whitening k m else m i

/-- The steps 0 to k - 1 of an encrypt, in order. -/
def encrypt : Nat → (Nat → Word) → Nat → Word
  | 0, m => m
  | k + 1, m => c.encWord k (encrypt k m)

/-- The steps k - 1 to 0 undone, the last one first. -/
def decrypt : Nat → (Nat → Word) → Nat → Word
  | 0, m => m
  | k + 1, m => decrypt k (c.decWord k m)

variable {c}

/-- R105, R109: step k does not read the word it writes. -/
theorem whitening_congr (h2 : 2 ≤ c.n) {k : Nat} {m m' : Nat → Word} (h : ∀ i, i ≠ k % c.n → m' i = m i) :
    c.whitening k m' = c.whitening k m := by
  have hp : k % c.n < c.n := Nat.mod_lt _ (by omega)
  rw [whitening, h _ (next_ne _ _ h2 hp), h _ (prev_ne _ _ h2 hp), ← whitening]

theorem decWord_encWord (h2 : 2 ≤ c.n) (k : Nat) (m : Nat → Word) : c.decWord k (c.encWord k m) = m := by
  have hsame : c.whitening k (c.encWord k m) = c.whitening k m := whitening_congr h2 fun i hi => if_neg hi
  funext i
  by_cases hi : i = k % c.n
  · subst hi
    rw [decWord, if_pos rfl, hsame, encWord, if_pos rfl, BitVec.add_sub_cancel]
  · rw [decWord, if_neg hi, encWord, if_neg hi]

theorem encWord_decWord (h2 : 2 ≤ c.n) (k : Nat) (m : Nat → Word) : c.encWord k (c.decWord k m) = m := by
  have hsame : c.whitening k (c.decWord k m) = c.whitening k m := whitening_congr h2 fun i hi => if_neg hi
  funext i
  by_cases hi : i = k % c.n
  · subst hi
    rw [encWord, if_pos rfl, hsame, decWord, if_pos rfl, BitVec.sub_add_cancel]
  · rw [encWord, if_neg hi, decWord, if_neg hi]

/-- R126 on messages: undoing the steps of an encrypt gives the message back. -/
theorem decrypt_encrypt (h2 : 2 ≤ c.n) (k : Nat) (m : Nat → Word) : c.decrypt k (c.encrypt k m) = m := by
  induction k with
  | zero => rfl
  | succ k ih => rw [encrypt, decrypt, decWord_encWord h2, ih]

/-- R126 on messages, in the other order. -/
theorem encrypt_decrypt (h2 : 2 ≤ c.n) (k : Nat) (m : Nat → Word) : c.encrypt k (c.decrypt k m) = m := by
  induction k generalizing m with
  | zero => rfl
  | succ k ih => rw [encrypt, decrypt, ih, encWord_decWord h2]

end Cipher

/-- The cipher of an operation of magnitude n under the key in State. -/
def State.cipher (s : State) (n : Nat) : Cipher := ⟨s.keyWord, n, prngOut s.increment s.params.x0⟩

/-- The whitened mixing value of a state whose position is that of step k. -/
theorem State.whitened_eq_whitening {c : Cipher} {t : State} {k : Nat} {sum r : Word} (hkey : t.keyWord = c.key)
    (hn : t.n.toNat = c.n) (h1 : 1 ≤ c.n) (hN : c.n ≤ 1024) (hp : t.p.toNat = k % c.n) (hsum : sum = c.roundSum k)
    (hr : r = c.stream k) : t.whitened sum r = c.whitening k t.dataWord := by
  have hlt : k % c.n < c.n := Nat.mod_lt _ h1
  have hword : t.p = BitVec.ofNat 32 (k % c.n) := by rw [← hp, BitVec.ofNat_toNat, BitVec.setWidth_eq]
  rw [State.whitened, nextIndex_eq (by omega), prevIndex_eq (by omega) (by omega) (by omega), hn, hp, hsum, hr, hkey,
    hword]
  rfl

/-! ## Positions of a sweep (R122) -/

theorem round_end {n k : Nat} (hn : 0 < n) (h : k % n = n - 1) : (k + 1) % n = 0 ∧ (k + 1) / n = k / n + 1 := by
  have hk : k + 1 = n * (k / n + 1) := by
    have := Nat.div_add_mod k n
    rw [Nat.mul_add]; omega
  generalize k / n = q at hk ⊢
  rw [hk]
  exact ⟨Nat.mul_mod_right n _, Nat.mul_div_cancel_left _ hn⟩

theorem round_inside {n k : Nat} (hn : 0 < n) (h : k % n ≠ n - 1) : (k + 1) % n = k % n + 1 ∧ (k + 1) / n = k / n := by
  have hlt := Nat.mod_lt k hn
  have hk : k + 1 = n * (k / n) + (k % n + 1) := by
    rw [← Nat.add_assoc, Nat.div_add_mod]
  generalize k / n = q at hk ⊢
  generalize k % n = r at h hlt hk ⊢
  have hr : r + 1 < n := by omega
  rw [hk, Nat.mul_add_mod, Nat.mod_eq_of_lt hr, Nat.mul_add_div hn, Nat.div_eq_of_lt hr]
  exact ⟨rfl, rfl⟩

/-- The end of a round is the end of the sweep exactly in the last round. -/
theorem round_last {n k R : Nat} (hn : 0 < n) (h : k % n = n - 1) : k / n + 1 = R ↔ k + 1 = n * R := by
  obtain ⟨hmod, hdiv⟩ := round_end hn h
  have hk := Nat.div_add_mod (k + 1) n
  rw [hmod, hdiv, Nat.add_zero] at hk
  rw [← hk, Nat.mul_right_inj (Nat.ne_of_gt hn)]

/-- Inside a round the sweep does not end. -/
theorem ne_length_of_inside {n k R : Nat} (hn : 0 < n) (h : k % n ≠ n - 1) : k + 1 ≠ n * R := by
  intro hk
  have hmod := (round_inside hn h).1
  rw [hk, Nat.mul_mod_right] at hmod
  omega

/-! ## The start of an operation (R117, R143) -/

/-- What an accepted CMD_RUN leaves for SEED, with nothing listed from outside. It asks less than `Inv`, so that it also
holds of an operation that starts from flags or memories no run leaves. -/
structure Launched (s : State) : Prop where
  valid : s.params.Valid
  two_le : 2 ≤ s.n.toNat
  le_max : s.n.toNat ≤ s.params.nMax
  rounds : s.rounds.toNat = roundsOf s.n.toNat
  fits : s.dir = true → s.n.toNat * s.rounds.toNat ≤ s.params.ksDepth
  draws : s.draws = 0#32
  phase : s.phase = 1#4
  inbox : s.inbox = []

theorem Inv.launched {s : State} (h : Inv s) (hp : s.phase = 1#4) (hi : s.inbox = []) : Launched s := by
  obtain ⟨h2, hmax, -, -, hrounds, -, -, -, -, hfits⟩ := h.bounds (s.busy_iff.mpr (.inl hp))
  exact ⟨h.params, h2, hmax, hrounds, hfits, h.seed hp, hp, hi⟩

namespace Launched
variable {s : State} (h : Launched s)
include h

theorem n_le : s.n.toNat ≤ 1024 := Nat.le_trans h.le_max h.valid.2.1

theorem rounds_bounds : 1 ≤ s.rounds.toNat ∧ s.rounds.toNat ≤ 76 := by
  rw [h.rounds]; exact ⟨roundsOf_pos _, roundsOf_le h.two_le⟩

/-- R102: a keystream is not empty, and its length fits a register. -/
theorem length_bounds : 0 < s.n.toNat * s.rounds.toNat ∧ s.n.toNat * s.rounds.toNat < 2 ^ 32 := by
  refine ⟨Nat.mul_pos (Nat.lt_of_lt_of_le (by decide) h.two_le) h.rounds_bounds.1, ?_⟩
  rw [h.rounds]; exact streamLength_lt h.n_le

/-- SEED is the first step. -/
theorem step_seed : step s = .next s.launchSweep :=
  (step_microOp (.inl ⟨h.inbox, rfl⟩) (by rw [h.phase]; rfl)).trans (exec_seed s)

end Launched

/-- R117: the state that SEED of an encrypt leaves. -/
theorem State.launchSweep_of_encrypt {s : State} (h : s.dir = false) :
    s.launchSweep = { s with
      prngS := s.increment, prngX := s.params.x0, prngW := 0#64, rnd := s.rounds, ksptr := 0#32,
      sum := 0#32, p := 0#32, phase := Phase.enc } :=
  Host.Outcome.next.inj ((exec_seed s).symm.trans ((seedStartsTheSweep s _ rfl).1 h))

/-- R117: the state that SEED of a decrypt leaves. -/
theorem State.launchSweep_of_decrypt {s : State} (h : s.dir = true) :
    s.launchSweep = { s with
      prngS := s.increment, prngX := s.params.x0, prngW := 0#64, rnd := s.rounds, ksptr := 0#32,
      sum := s.rounds * delta, p := s.n - 1#32, phase := Phase.fill } :=
  Host.Outcome.next.inj ((exec_seed s).symm.trans ((seedStartsTheSweep s _ rfl).2 h))

/-! ## The steps of an encrypt (R119, R122) -/

/-- R106: a position of the sweep lies inside DATA. -/
theorem Launched.sweepStop_of_position {s t : State} {k : Nat} (h : Launched s) (hframe : EngineFrame s t)
    (hp : t.p.toNat = k % s.n.toNat) : t.sweepStop = none := by
  have hn := h.two_le
  have hmax := h.le_max
  have hvalid := h.valid
  have hlt : k % s.n.toNat < s.n.toNat := Nat.mod_lt _ (by omega)
  rw [← hframe.params] at hvalid hmax
  rw [← hframe.n] at hn hmax hlt hp
  exact sweepStop_none (by omega) hmax hvalid.2.1 (by omega)

/-- The position of the sweep before ENC_STEP number k. -/
structure EncPosition (s : State) (k : Nat) (t : State) : Prop where
  phase : t.phase = 3#4
  p : t.p.toNat = k % s.n.toNat
  rnd : t.rnd.toNat + k / s.n.toNat = s.rounds.toNat
  sum : t.encSum = (s.cipher s.n.toNat).roundSum k

/-- What an operation that has completed shows (R121). -/
structure Finished (t : State) : Prop where
  phase : t.phase = 0#4
  done : t.done = true
  rnd : t.rnd = 0#32

/-- What the state `t` holds after SEED and k ENC_STEPs of the operation that starts in `s`. -/
structure EncAt (s : State) (k : Nat) (t : State) : Prop where
  frame : EngineFrame s t
  draws : t.draws.toNat = k
  prng : (t.prngX, t.prngW) = prngState s.increment s.params.x0 k
  prngS : t.prngS = s.increment
  ks : t.ks = s.ks
  words : t.dataWord = (s.cipher s.n.toNat).encrypt k s.dataWord
  beyond : ∀ a, dataAddr s.n.toNat ≤ a → t.dataByte a = s.dataByte a
  running : k < s.n.toNat * s.rounds.toNat → EncPosition s k t
  finished : k = s.n.toNat * s.rounds.toNat → Finished t

/-- R88: one draw is one step of the stream. -/
theorem prngState_succ_of_eq {inc x0 : DWord} {k : Nat} {t : State}
    (h : (t.prngX, t.prngW) = prngState inc x0 k) (hS : t.prngS = inc) :
    (t.draw.prngX, t.draw.prngW) = prngState inc x0 (k + 1) := by
  rw [prngState, ← h, ← hS]
  rfl

/-- The output of a draw is the next word of the stream. -/
theorem drawn_of_eq {inc x0 : DWord} {k : Nat} {t : State}
    (h : (t.prngX, t.prngW) = prngState inc x0 k) (hS : t.prngS = inc) : t.draw.drawn = prngOut inc x0 k := by
  rw [prngOut, ← prngState_succ_of_eq h hS]
  rfl

/-- A counter that has not reached a bound below 2^32 does not wrap. -/
theorem toNat_add_one {v : Word} {k L : Nat} (hv : v.toNat = k) (hk : k < L) (hL : L < 2 ^ 32) :
    (v + 1#32).toNat = k + 1 := by
  rw [BitVec.toNat_add, hv]
  exact Nat.mod_eq_of_lt (by simp; omega)

/-- R117: SEED of an encrypt stands at the first position. -/
theorem encAt_launchSweep {s : State} (h : Launched s) (hdir : s.dir = false) : EncAt s 0 s.launchSweep := by
  have hsum : (s.cipher s.n.toNat).roundSum 0 = 0#32 + delta := by
    rw [Cipher.roundSum, Nat.zero_div]; decide
  rw [State.launchSweep_of_encrypt hdir]
  exact {
    frame := rfl, draws := congrArg BitVec.toNat h.draws, prng := rfl, prngS := rfl, ks := rfl, words := rfl
    beyond := fun _ _ => rfl
    running := fun _ => {
      phase := rfl, p := (Nat.zero_mod _).symm, rnd := by rw [Nat.zero_div, Nat.add_zero], sum := hsum.symm }
    finished := fun h0 => absurd h0 (Nat.ne_of_lt h.length_bounds.1) }

/-- The sum of a round is DELTA more than that of the round before (R106). -/
theorem Cipher.roundSum_succ {c : Cipher} {k k' : Nat} (h : k' / c.n = k / c.n + 1) :
    c.roundSum k' = c.roundSum k + delta := by
  rw [roundSum, roundSum, h, BitVec.ofNat_add, BitVec.add_mul, BitVec.one_mul]

theorem Cipher.roundSum_congr {c : Cipher} {k k' : Nat} (h : k' / c.n = k / c.n) : c.roundSum k' = c.roundSum k := by
  rw [roundSum, roundSum, h]

/-- RND reaches 0 in the step that finds it at 1. -/
theorem rnd_sub_one_eq_zero_iff (r : Word) : r - 1#32 = 0#32 ↔ r.toNat = 1 := by
  constructor <;> intro h <;> bv_omega

/-- R119: ENC_STEP moves the position on, or completes the operation at the last one. -/
theorem EncPosition.next {s t : State} {k : Nat} (h : Launched s) (hframe : EngineFrame s t) (hpos : EncPosition s k t)
    (hk : k < s.n.toNat * s.rounds.toNat) :
    (k + 1 < s.n.toNat * s.rounds.toNat → EncPosition s (k + 1) t.encUpdate.encAdvance) ∧
      (k + 1 = s.n.toNat * s.rounds.toNat → Finished t.encUpdate.encAdvance) := by
  obtain ⟨hphase, hp, hrnd, hsum⟩ := hpos
  have hn : 0 < s.n.toNat := Nat.lt_of_lt_of_le (by decide) h.two_le
  have hlt := Nat.mod_lt k hn
  have hN := h.n_le
  have hlast : t.encUpdate.p = t.encUpdate.n - 1#32 ↔ k % s.n.toNat = s.n.toNat - 1 := by
    rw [State.p_eq_last_iff (by rw [State.encUpdate_n, hframe.n]; exact hn), State.encUpdate_p, State.encUpdate_n, hp,
      hframe.n]
  have hround := round_last (R := s.rounds.toNat) (k := k) hn
  have hrnd1 : 1 ≤ t.rnd.toNat := by
    have := Nat.div_lt_of_lt_mul hk
    omega
  rcases t.encUpdate.encAdvance_cases with ⟨hend, e⟩ | ⟨hend, hr, e⟩ | ⟨hend, hr, e⟩ <;> rw [e]
  · have hinside := mt hlast.mpr hend
    obtain ⟨hmod, hdiv⟩ := round_inside hn hinside
    have hp1 : (t.p + 1#32).toNat = k % s.n.toNat + 1 := toNat_add_one hp hlt (by omega)
    have hne : t.p + 1#32 ≠ 0#32 := by
      intro h0; rw [h0] at hp1; exact absurd hp1 (by simp)
    refine ⟨fun _ => ⟨hphase, hp1.trans hmod.symm, by rw [hdiv]; exact hrnd, ?_⟩,
      fun hL => absurd hL (ne_length_of_inside hn hinside)⟩
    rw [Cipher.roundSum_congr (k := k) hdiv, ← hsum]
    exact if_neg hne
  · have hlastp := hlast.mp hend
    obtain ⟨hmod, hdiv⟩ := round_end hn hlastp
    rw [ne_eq, rnd_sub_one_eq_zero_iff, State.encUpdate_rnd] at hr
    refine ⟨fun _ => ⟨hphase, hmod.symm, ?_, ?_⟩, fun hL => ?_⟩
    · have hdec : (t.rnd - 1#32).toNat = t.rnd.toNat - 1 := BitVec.toNat_sub_of_le (y := 1#32) hrnd1
      rw [hdiv, State.encUpdate_rnd, hdec]
      omega
    · rw [Cipher.roundSum_succ (k := k) hdiv, ← hsum]
      exact if_pos rfl
    · have := (hround hlastp).mpr hL
      omega
  · have hr1 := hr
    rw [rnd_sub_one_eq_zero_iff, State.encUpdate_rnd] at hr1
    have hL := (hround (hlast.mp hend)).mp (by omega)
    exact ⟨fun hlt => absurd hL (Nat.ne_of_lt hlt), fun _ => ⟨rfl, rfl, hr⟩⟩

/-- R119, R122: ENC_STEP number k. -/
theorem EncAt.next {s t : State} {k : Nat} (h : Launched s) (ht : EncAt s k t) (hk : k < s.n.toNat * s.rounds.toNat) :
    ∃ u, step t = .next u ∧ EncAt s (k + 1) u := by
  have hn := h.two_le
  have hN := h.n_le
  have hL := h.length_bounds.2
  have hpos := ht.running hk
  have hp := hpos.p
  have hlt : k % s.n.toNat < s.n.toNat := Nat.mod_lt _ (by omega)
  have hstop := h.sweepStop_of_position ht.frame hp
  have hdrawn := drawn_of_eq ht.prng ht.prngS
  have hmix : t.whitened t.encSum t.draw.drawn = (s.cipher s.n.toNat).whitening k t.dataWord :=
    State.whitened_eq_whitening ht.frame.keyWord (congrArg BitVec.toNat ht.frame.n) (by exact Nat.le_of_succ_le hn) hN
      hp hpos.sum hdrawn
  obtain ⟨hrunning, hfinished⟩ := hpos.next h ht.frame hk
  refine ⟨t.encUpdate.encAdvance, ?step, ht.frame.trans (.encAdvance t), ?draws, ?prng, ?prngS, ?ks, ?words, ?beyond,
    hrunning, hfinished⟩
  case step =>
    exact (step_microOp (.inl ⟨ht.frame.inbox.trans h.inbox, rfl⟩) (by rw [hpos.phase]; rfl)).trans
      (exec_encStep_of_inside hstop)
  case draws => rw [State.encAdvance_draws]; exact toNat_add_one ht.draws hk hL
  case prng =>
    rw [State.encAdvance_prngX, State.encAdvance_prngW]
    exact prngState_succ_of_eq ht.prng ht.prngS
  case prngS => rw [State.encAdvance_prngS, State.encUpdate_prngS, ht.prngS]
  case ks => rw [State.encAdvance_ks, State.encUpdate_ks, ht.ks]
  case words =>
    funext i
    rw [State.encAdvance_dataWord, State.encUpdate_dataWord, hmix, hp, Cipher.encrypt, Cipher.encWord, ← ht.words]
    rfl
  case beyond =>
    intro a ha
    rw [sameDataOutside_encStep t a (.inr (by rw [dataAddr] at ha ⊢; omega)), ht.beyond a ha]

/-- R122: SEED and k ENC_STEPs. -/
theorem encAt_steps {s : State} (h : Launched s) (hdir : s.dir = false) :
    ∀ k ≤ s.n.toNat * s.rounds.toNat, ∃ t, steps (1 + k) s = .next t ∧ EncAt s k t := by
  intro k hk
  have hseed : steps 1 s = .next s.launchSweep := steps_succ h.step_seed 0
  obtain ⟨t, ht, hat⟩ := steps_of_relation (encAt_launchSweep h hdir) (fun k t hk ht => ht.next h hk) k hk
  exact ⟨t, (steps_add hseed k).trans ht, hat⟩

/-- Settles O45: before step 1 + k the state is in PHASE ENC at the position of k, and after the last one it has
completed. -/
theorem encryptCompletesInItsSteps : Obligations.EncryptCompletesInItsSteps := by
  intro s hinv hphase hdir hinbox
  have h := hinv.launched hphase hinbox
  refine ⟨fun k hk => ?during, ?completed⟩
  case during =>
    cases k with
    | zero => exact ⟨s, rfl, s.busy_iff.mpr (.inl hphase), fun h1 => absurd h1 (by decide)⟩
    | succ k =>
      obtain ⟨t, hsteps, ht⟩ := encAt_steps h hdir k (by omega)
      rw [Nat.add_comm k 1]
      refine ⟨t, hsteps, t.busy_iff.mpr (.inr (.inr (.inl (ht.running (by omega)).phase))), fun _ => ?_⟩
      rw [Nat.add_sub_cancel_left]
      exact ⟨ht.prng, ht.draws⟩
  case completed =>
    obtain ⟨t, hsteps, ht⟩ := encAt_steps h hdir _ (Nat.le_refl _)
    obtain ⟨hidle, hdone, hrnd⟩ := ht.finished rfl
    exact ⟨t, hsteps, hidle, hdone, ht.draws, hrnd, ht.ks, ht.beyond⟩

/-! ## The steps of a decrypt: the fills (R118, R123) -/

/-- What the state `t` holds after SEED and k FILLs of the decrypt that starts in `s`. -/
structure FillAt (s : State) (k : Nat) (t : State) : Prop where
  frame : EngineFrame s t
  draws : t.draws.toNat = k
  ksptr : t.ksptr.toNat = k
  prng : (t.prngX, t.prngW) = prngState s.increment s.params.x0 k
  prngS : t.prngS = s.increment
  data : t.data = s.data
  stream : ∀ j < k, t.ksWord j = prngOut s.increment s.params.x0 j
  p : t.p.toNat = s.n.toNat - 1
  rnd : t.rnd = s.rounds
  sum : t.sum = s.rounds * delta
  phase : t.phase = if k < s.n.toNat * s.rounds.toNat then 2#4 else 4#4

/-- R117: SEED of a decrypt stands before the first FILL. -/
theorem fillAt_launchSweep {s : State} (h : Launched s) (hdir : s.dir = true) : FillAt s 0 s.launchSweep := by
  have hn : (s.n - 1#32).toNat = s.n.toNat - 1 :=
    BitVec.toNat_sub_of_le (y := 1#32) (Nat.le_trans (by decide) h.two_le)
  rw [State.launchSweep_of_decrypt hdir]
  exact {
    frame := rfl, draws := congrArg BitVec.toNat h.draws, ksptr := rfl, prng := rfl, prngS := rfl, data := rfl
    stream := nofun, p := hn, rnd := rfl, sum := rfl, phase := (if_pos h.length_bounds.1).symm }

/-- FILL writes the keystream word at KSPTR and no other. -/
theorem State.fillWord_ksWord (s : State) (j : Nat) :
    s.fillWord.ksWord j = if j = s.ksptr.toNat then s.draw.drawn else s.ksWord j :=
  s.draw.ksWord_setKs s.ksptr.toNat j _

/-- R118: FILL number k. -/
theorem FillAt.next {s t : State} {k : Nat} (h : Launched s) (hdir : s.dir = true) (ht : FillAt s k t)
    (hk : k < s.n.toNat * s.rounds.toNat) : ∃ u, step t = .next u ∧ FillAt s (k + 1) u := by
  have hL := h.length_bounds.2
  have hphase : t.phase = 2#4 := by rw [ht.phase, if_pos hk]
  have hin : t.ksptr.toNat < t.params.ksDepth := by
    rw [ht.ksptr, ht.frame.params]
    exact Nat.lt_of_lt_of_le hk (h.fits hdir)
  have hksptr : (t.ksptr + 1#32).toNat = k + 1 := toNat_add_one ht.ksptr hk hL
  have hlast : t.ksptr + 1#32 = t.n * t.rounds ↔ k + 1 = s.n.toNat * s.rounds.toNat := by
    rw [← BitVec.toNat_inj, hksptr, ht.frame.n, ht.frame.rounds, BitVec.toNat_mul, Nat.mod_eq_of_lt hL]
  refine ⟨t.fillWord, ?step, ht.frame.trans (.fillWord t), toNat_add_one ht.draws hk hL, hksptr,
    prngState_succ_of_eq ht.prng ht.prngS, ht.prngS, ht.data, fun j hj => ?stream, ht.p, ht.rnd, ht.sum, ?phase⟩
  case step =>
    exact (step_microOp (.inl ⟨ht.frame.inbox.trans h.inbox, rfl⟩) (by rw [hphase]; rfl)).trans (exec_fill_of_lt hin)
  case stream =>
    rw [State.fillWord_ksWord, ht.ksptr]
    split_ifs with hjk
    · rw [hjk, drawn_of_eq ht.prng ht.prngS]
    · exact ht.stream j (by omega)
  case phase =>
    rw [State.fillWord_phase, hphase]
    by_cases hL' : k + 1 = s.n.toNat * s.rounds.toNat
    · rw [if_pos (hlast.mpr hL'), if_neg (Nat.not_lt.mpr (Nat.le_of_eq hL'.symm))]
    · rw [if_neg (mt hlast.mp hL'), if_pos (by omega)]

/-- R118, R122: SEED and k FILLs. -/
theorem fillAt_steps {s : State} (h : Launched s) (hdir : s.dir = true) :
    ∀ k ≤ s.n.toNat * s.rounds.toNat, ∃ t, steps (1 + k) s = .next t ∧ FillAt s k t := by
  intro k hk
  have hseed : steps 1 s = .next s.launchSweep := steps_succ h.step_seed 0
  obtain ⟨t, ht, hat⟩ := steps_of_relation (fillAt_launchSweep h hdir) (fun k t hk ht => ht.next h hdir hk) k hk
  exact ⟨t, (steps_add hseed k).trans ht, hat⟩

/-- Settles O47: `fillAt_steps`. -/
theorem fillsHoldTheStreamInOrder : Obligations.FillsHoldTheStreamInOrder := by
  intro s k hinv hphase hdir hinbox hk
  obtain ⟨t, hsteps, ht⟩ := fillAt_steps (hinv.launched hphase hinbox) hdir k hk
  exact ⟨t, hsteps, ht.ksptr, ht.draws, ht.data, ht.stream⟩

/-! ## The steps of a decrypt: the sweep back (R120, R123) -/

/-- The position of the sweep before the DEC_STEP that undoes step k. -/
structure DecPosition (s : State) (k : Nat) (t : State) : Prop where
  phase : t.phase = 4#4
  p : t.p.toNat = k % s.n.toNat
  rnd : t.rnd.toNat = k / s.n.toNat + 1
  sum : t.sum = (s.cipher s.n.toNat).roundSum k

/-- What the state `t` of the decrypt that starts in `s` holds when k keystream words are left. What is still to be
undone of the message that `t` holds is what there was to undo at the start. -/
structure DecAt (s : State) (k : Nat) (t : State) : Prop where
  frame : EngineFrame s t
  draws : t.draws.toNat = s.n.toNat * s.rounds.toNat
  ksptr : t.ksptr.toNat = k
  stream : ∀ j < k, t.ksWord j = prngOut s.increment s.params.x0 j
  words : (s.cipher s.n.toNat).decrypt k t.dataWord =
    (s.cipher s.n.toNat).decrypt (s.n.toNat * s.rounds.toNat) s.dataWord
  beyond : ∀ a, dataAddr s.n.toNat ≤ a → t.dataByte a = s.dataByte a
  running : ∀ j, k = j + 1 → DecPosition s j t
  finished : k = 0 → Finished t ∧ t.sum = 0#32

/-- The step before the end of a round is its last one. -/
theorem mod_eq_last {n k : Nat} (hn : 0 < n) (h : (k + 1) % n = 0) : k % n = n - 1 := by
  by_contra hne
  have := (round_inside hn hne).1
  omega

/-- R123: when the keystream is filled the sweep back stands at the last position of the encrypt. -/
theorem decPosition_of_fillAt {s t : State} {j : Nat} (h : Launched s)
    (ht : FillAt s (s.n.toNat * s.rounds.toNat) t) (hj : s.n.toNat * s.rounds.toNat = j + 1) : DecPosition s j t := by
  have hn : 0 < s.n.toNat := Nat.lt_of_lt_of_le (by decide) h.two_le
  have hlast : j % s.n.toNat = s.n.toNat - 1 := mod_eq_last hn (by rw [← hj, Nat.mul_mod_right])
  have hround : j / s.n.toNat + 1 = s.rounds.toNat := (round_last hn hlast).mpr hj.symm
  refine ⟨by rw [ht.phase, if_neg (Nat.lt_irrefl _)], ht.p.trans hlast.symm, by rw [ht.rnd, hround], ?_⟩
  have hdiv : j / (s.cipher s.n.toNat).n + 1 = s.rounds.toNat := hround
  rw [ht.sum, Cipher.roundSum, hdiv, BitVec.ofNat_toNat, BitVec.setWidth_eq]

theorem dataByte_congr {s t : State} (hframe : EngineFrame s t) (hdata : t.data = s.data) :
    t.dataByte = s.dataByte := by
  have hresets : t.resets = s.resets := (congrArg State.resets hframe :)
  funext a
  rw [State.dataByte, hdata, hresets, ← State.dataByte]

theorem decAt_of_fillAt {s t : State} (h : Launched s) (ht : FillAt s (s.n.toNat * s.rounds.toNat) t) :
    DecAt s (s.n.toNat * s.rounds.toNat) t := by
  have hbyte := dataByte_congr ht.frame ht.data
  have hword : t.dataWord = s.dataWord := funext fun i => State.dataWord_congr fun a _ _ => congrFun hbyte a
  exact ⟨ht.frame, ht.draws, ht.ksptr, ht.stream, by rw [hword], fun a _ => congrFun hbyte a,
    fun j hj => decPosition_of_fillAt h ht hj, fun h0 => absurd h0 (Nat.ne_of_gt h.length_bounds.1)⟩

/-- R120: DEC_STEP moves the position back by one. -/
theorem DecPosition.back {s t : State} {k : Nat} (h : Launched s) (hframe : EngineFrame s t)
    (hpos : DecPosition s (k + 1) t) : DecPosition s k t.decUpdate.decAdvance := by
  obtain ⟨hphase, hp, hrnd, hsum⟩ := hpos
  have hn : 0 < s.n.toNat := Nat.lt_of_lt_of_le (by decide) h.two_le
  have hzero : t.decUpdate.p = 0#32 ↔ k % s.n.toNat = s.n.toNat - 1 := by
    rw [State.p_eq_zero_iff, State.decUpdate_p, hp]
    refine ⟨mod_eq_last hn, fun hlast => (round_end hn hlast).1⟩
  rcases t.decUpdate.decAdvance_cases with ⟨hend, e⟩ | ⟨hend, hr, e⟩ | ⟨hend, hr, e⟩ <;> rw [e]
  · obtain ⟨hmod, hdiv⟩ := round_inside hn (mt hzero.mpr hend)
    have hp1 : (t.p - 1#32).toNat = t.p.toNat - 1 := BitVec.toNat_sub_of_le (y := 1#32) (by
      rw [BitVec.le_def, hp, hmod]; exact Nat.le_add_left 1 _)
    refine ⟨hphase, ?_, by rw [← hdiv]; exact hrnd, ?_⟩
    · rw [State.decUpdate_p, hp1, hp, hmod, Nat.add_sub_cancel]
    · exact hsum.trans (Cipher.roundSum_congr hdiv)
  · have hlast := hzero.mp hend
    obtain ⟨-, hdiv⟩ := round_end hn hlast
    rw [hdiv] at hrnd
    have hr1 : (t.rnd - 1#32).toNat = t.rnd.toNat - 1 := BitVec.toNat_sub_of_le (y := 1#32) (by
      rw [BitVec.le_def, hrnd]; exact Nat.le_add_left 1 _)
    have hn1 : (t.n - 1#32).toNat = s.n.toNat - 1 := by
      rw [hframe.n]; exact BitVec.toNat_sub_of_le (y := 1#32) hn
    refine ⟨hphase, hn1.trans hlast.symm, by rw [State.decUpdate_rnd, hr1, hrnd, Nat.add_sub_cancel], ?_⟩
    rw [State.decUpdate_sum, hsum, Cipher.roundSum_succ (k := k) hdiv, BitVec.add_sub_cancel]
  · have hone : t.rnd.toNat = 1 := (rnd_sub_one_eq_zero_iff t.rnd).mp hr
    rw [hrnd, (round_end hn (hzero.mp hend)).2] at hone
    exact absurd (Nat.succ.inj hone) (Nat.succ_ne_zero _)

/-- R120, R121: the DEC_STEP at the first position completes the operation. -/
theorem DecPosition.finish {s t : State} (hpos : DecPosition s 0 t) :
    Finished t.decUpdate.decAdvance ∧ t.decUpdate.decAdvance.sum = 0#32 := by
  obtain ⟨-, hp, hrnd, hsum⟩ := hpos
  rw [Nat.zero_mod] at hp
  rw [Nat.zero_div] at hrnd
  have hlast : t.rnd - 1#32 = 0#32 := (rnd_sub_one_eq_zero_iff t.rnd).mpr hrnd
  rcases t.decUpdate.decAdvance_cases with ⟨hend, -⟩ | ⟨-, hr, -⟩ | ⟨-, hr, e⟩
  · exact absurd (BitVec.eq_of_toNat_eq hp) hend
  · exact absurd hlast hr
  · rw [e]
    refine ⟨⟨rfl, rfl, hr⟩, ?_⟩
    rw [State.decUpdate_sum, hsum, Cipher.roundSum, Nat.zero_div, Nat.zero_add, BitVec.one_mul, BitVec.sub_self]

/-- R120, R122: one DEC_STEP. -/
theorem DecAt.next {s t : State} {k : Nat} (h : Launched s) (hdir : s.dir = true) (ht : DecAt s (k + 1) t)
    (hk : k < s.n.toNat * s.rounds.toNat) : ∃ u, step t = .next u ∧ DecAt s k u := by
  have hn := h.two_le
  have hN := h.n_le
  have hpos := ht.running k rfl
  have hp := hpos.p
  have hlt : k % s.n.toNat < s.n.toNat := Nat.mod_lt _ (by omega)
  have hstop := h.sweepStop_of_position ht.frame hp
  have hreplay : t.replayIndex = k := by rw [State.replayIndex_eq (by rw [ht.ksptr]; omega), ht.ksptr]; rfl
  have hin : t.replayIndex < t.params.ksDepth := by
    rw [hreplay, ht.frame.params]
    exact Nat.lt_of_lt_of_le hk (h.fits hdir)
  have hmix : t.whitened t.sum (t.ksWord t.replayIndex) = (s.cipher s.n.toNat).whitening k t.dataWord :=
    State.whitened_eq_whitening ht.frame.keyWord (congrArg BitVec.toNat ht.frame.n) (by exact Nat.le_of_succ_le hn) hN
      hp hpos.sum (by rw [hreplay]; exact ht.stream k (Nat.lt_succ_self k))
  have hword : t.decUpdate.decAdvance.dataWord = (s.cipher s.n.toNat).decWord k t.dataWord := by
    funext i
    rw [State.decAdvance_dataWord, State.decUpdate_dataWord, hmix, hp]
    rfl
  refine ⟨t.decUpdate.decAdvance, ?step, ht.frame.trans (.decAdvance t), ?draws, ?ksptr, fun j hj => ?stream, ?words,
    fun a ha => ?beyond, fun j hj => ?running, fun h0 => ?finished⟩
  case step =>
    exact (step_microOp (.inl ⟨ht.frame.inbox.trans h.inbox, rfl⟩) (by rw [hpos.phase]; rfl)).trans
      (exec_decStep_of_inside hstop hin)
  case draws => rw [State.decAdvance_draws]; exact ht.draws
  case ksptr => rw [State.decAdvance_ksptr]; exact hreplay
  case stream =>
    rw [State.decAdvance_ksWord, State.decUpdate_ksWord]
    exact ht.stream j (Nat.lt_succ_of_lt hj)
  case words => rw [hword, ← ht.words]; rfl
  case beyond => rw [sameDataOutside_decStep t a (.inr (by rw [dataAddr] at ha ⊢; omega)), ht.beyond a ha]
  case running => subst hj; exact hpos.back h ht.frame
  case finished => subst h0; exact hpos.finish

/-- R120, R122: SEED, all FILLs and the DEC_STEPs until k keystream words are left. -/
theorem decAt_steps {s : State} (h : Launched s) (hdir : s.dir = true) :
    ∀ k ≤ s.n.toNat * s.rounds.toNat, ∃ t,
      steps (1 + s.n.toNat * s.rounds.toNat + k) s = .next t ∧ DecAt s (s.n.toNat * s.rounds.toNat - k) t := by
  intro k hk
  obtain ⟨t, hfill, ht⟩ := fillAt_steps h hdir _ (Nat.le_refl _)
  have next : ∀ k t, k < s.n.toNat * s.rounds.toNat → DecAt s (s.n.toNat * s.rounds.toNat - k) t →
      ∃ u, step t = .next u ∧ DecAt s (s.n.toNat * s.rounds.toNat - (k + 1)) u := by
    intro k t hk ht
    have hleft : s.n.toNat * s.rounds.toNat - k = s.n.toNat * s.rounds.toNat - (k + 1) + 1 := by omega
    rw [hleft] at ht
    exact ht.next h hdir (by omega)
  obtain ⟨u, hdec, hu⟩ := steps_of_relation (P := fun k t => DecAt s (s.n.toNat * s.rounds.toNat - k) t)
    (decAt_of_fillAt h ht) next k hk
  exact ⟨u, (steps_add hfill k).trans hdec, hu⟩

/-- Settles O46: the fills, then the sweep back. -/
theorem decryptCompletesInItsSteps : Obligations.DecryptCompletesInItsSteps := by
  intro s hinv hphase hdir hinbox
  have h := hinv.launched hphase hinbox
  have hL := h.length_bounds.1
  have hfill := fillAt_steps h hdir
  have hdec := decAt_steps h hdir
  generalize hlen : s.n.toNat * s.rounds.toNat = L at hfill hdec hL ⊢
  refine ⟨fun k hk => ?during, ?completed⟩
  case during =>
    rcases Nat.lt_or_ge k (1 + L) with hlt | hge
    · cases k with
      | zero => exact ⟨s, rfl, s.busy_iff.mpr (.inl hphase)⟩
      | succ k =>
        obtain ⟨t, hsteps, ht⟩ := hfill k (by omega)
        rw [Nat.add_comm k 1]
        refine ⟨t, hsteps, t.busy_iff.mpr (.inr (.inl ?_))⟩
        rw [ht.phase, if_pos (by omega)]
    · obtain ⟨i, rfl⟩ := Nat.exists_eq_add_of_le hge
      obtain ⟨t, hsteps, ht⟩ := hdec i (by omega)
      obtain ⟨j, hj⟩ := Nat.exists_eq_succ_of_ne_zero (n := L - i) (by omega)
      exact ⟨t, hsteps, t.busy_iff.mpr (.inr (.inr (.inr (ht.running j hj).phase)))⟩
  case completed =>
    obtain ⟨t, hsteps, ht⟩ := hdec L (Nat.le_refl L)
    rw [Nat.sub_self] at ht
    obtain ⟨⟨hidle, hdone, hrnd⟩, hsum⟩ := ht.finished rfl
    have hksptr : t.ksptr = 0#32 := BitVec.eq_of_toNat_eq ht.ksptr
    have hcount : 1 + 2 * L = 1 + L + L := by omega
    exact ⟨t, by rw [hcount]; exact hsteps, hidle, hdone, ht.draws.trans hlen, hrnd, hksptr, hsum, ht.beyond⟩

end Sys2Proof.Machine
end

