-- ==== Sys2Proof/Proofs/RoundTrip.lean ====
section
/-! PROOFS. The round trip (42_sequencer R126): the host's two writes launch an operation, the engine's steps are a sweep
over the message, and the two sweeps undo each other. -/

namespace Sys2Proof.Machine

open Claims

/-! ## The two writes of the host (R84, R85) -/

/-- R71, R85: the first of the two records is a write of COUNT. -/
theorem countRecord_eq (c : Word) : 0x200800000000#48 ||| c.setWidth 48 = record true 0x002#11 0#2 c := by
  have hsplit : record true 0x002#11 0#2 c = 0x2008#16 ++ c := rfl
  apply BitVec.eq_of_toNat_eq
  rw [hsplit, BitVec.toNat_or, BitVec.toNat_append, BitVec.toNat_setWidth_of_le (by decide)]
  rfl

theorem decodeTxn_countRecord (p : Params) (c : Word) :
    decodeTxn p (0x200800000000#48 ||| c.setWidth 48) = .ok (.wrCount c) := by
  rw [countRecord_eq, decodeTxn_write p c (by decide), decodeWrite, recOff_record, recWdata_record]
  rfl

/-- R138, R143: what R126 asks of the state in which the host starts an operation of magnitude n. -/
structure Ready (s : State) (n : Nat) : Prop where
  valid : s.params.Valid
  idle : s.phase = 0#4
  keys : 2 ≤ nonZeroKeys s
  two_le : 2 ≤ n
  le_max : n ≤ s.params.nMax
  fits : streamLength n ≤ s.params.ksDepth

/-- The state after the write of COUNT = c, with `rest` still to come from outside. -/
def State.counted (s : State) (c : Word) (rest : List Event) : State :=
  { s with count := c, inbox := rest }.answerWrite

/-- The state in which the engine begins the operation that the host launched with COUNT = c. -/
def State.accepted (s : State) (c : Word) : State :=
  ((s.counted c []).beginRun.launch (magnitude c)).answerWrite

/-- R143: a count that passes every test launches. -/
theorem State.run_of_accepted {s : State} (h : Ready s (magnitude s.count)) :
    s.run = s.beginRun.launch (magnitude s.count) := by
  have h2 := h.two_le
  rw [State.run_eq, if_neg (Nat.not_lt.mpr h.keys), if_neg (by omega), if_neg (Nat.not_lt.mpr h.le_max),
    if_neg (by omega), if_neg fun hks => Nat.not_lt.mpr h.fits hks.2]

theorem step_countRecord {s : State} {c : Word} {rest : List Event} (hidle : s.phase = 0#4)
    (hin : s.inbox = .txn (0x200800000000#48 ||| c.setWidth 48) :: rest) : step s = .next (s.counted c rest) :=
  (step_txn hin (decodeTxn_countRecord s.params c)).trans
    (congrArg Host.Outcome.next (State.gatedWrite_idle (s := { s with inbox := rest }) hidle _))

theorem step_runRecord {s : State} {rest : List Event} (hidle : s.phase = 0#4)
    (hin : s.inbox = .txn (commandRecord 1#4) :: rest) : step s = .next { s with inbox := rest }.run.answerWrite :=
  (step_txn hin (decodeTxn_commandRecord s.params 1#4)).trans
    (congrArg Host.Outcome.next (State.gatedWrite_idle (s := { s with inbox := rest }) hidle _))

/-- R84, R143: the two writes launch. -/
theorem steps_runTransactions {s : State} {c : Word} (h : Ready s (magnitude c)) :
    steps 2 { s with inbox := runTransactions c } = .next (s.accepted c) := by
  have hcount : step { s with inbox := runTransactions c } = .next (s.counted c [.txn (commandRecord 1#4)]) :=
    step_countRecord (s := { s with inbox := runTransactions c }) h.idle rfl
  have hready : Ready (s.counted c []) (magnitude (s.counted c []).count) :=
    ⟨h.valid, h.idle, h.keys, h.two_le, h.le_max, h.fits⟩
  have hrun : step (s.counted c [.txn (commandRecord 1#4)]) = .next (s.accepted c) :=
    (step_runRecord (s := s.counted c [.txn (commandRecord 1#4)]) h.idle rfl).trans
      (congrArg (fun u : State => Host.Outcome.next u.answerWrite) (State.run_of_accepted hready))
  exact (steps_succ hcount 1).trans (steps_succ hrun 0)

namespace Ready
variable {s : State} {c : Word}

theorem n_lt {n : Nat} (h : Ready s n) : n < 2 ^ 31 :=
  Nat.lt_of_le_of_lt (Nat.le_trans h.le_max h.valid.2.1) (by decide)

theorem accepted_n (h : Ready s (magnitude c)) : (s.accepted c).n.toNat = magnitude c :=
  toNat_ofNat_word (Nat.lt_trans h.n_lt (by decide))

theorem accepted_rounds (h : Ready s (magnitude c)) : (s.accepted c).rounds.toNat = roundsOf (magnitude c) :=
  toNat_ofNat_word (Nat.lt_of_le_of_lt (roundsOf_le h.two_le) (by decide))

theorem accepted_length (h : Ready s (magnitude c)) :
    (s.accepted c).n.toNat * (s.accepted c).rounds.toNat = streamLength (magnitude c) := by
  rw [h.accepted_n, h.accepted_rounds, streamLength]

theorem launched (h : Ready s (magnitude c)) : Launched (s.accepted c) where
  valid := h.valid
  two_le := by rw [h.accepted_n]; exact h.two_le
  le_max := by rw [h.accepted_n]; exact h.le_max
  rounds := by rw [h.accepted_n]; exact h.accepted_rounds
  fits _ := by rw [h.accepted_length]; exact h.fits
  draws := rfl
  phase := rfl
  inbox := rfl

end Ready

/-! ## Whole operations -/

/-- What an operation of magnitude n, started in `s`, leaves for the next one. -/
structure Completed (s : State) (n : Nat) (t : State) : Prop where
  done : t.done = true
  ready : Ready t n
  cipher : t.cipher n = s.cipher n

theorem Ready.completed {s t : State} {c : Word} (h : Ready s (magnitude c)) (hframe : EngineFrame (s.accepted c) t)
    (hfinished : Finished t) : Completed s (magnitude c) t := by
  have hparams : t.params = s.params := hframe.params
  have hkeys : nonZeroKeys t = nonZeroKeys s := (congrArg nonZeroKeys hframe :)
  have hcipher : t.cipher (magnitude c) = s.cipher (magnitude c) := (congrArg (State.cipher · (magnitude c)) hframe :)
  exact ⟨hfinished.done, ⟨by rw [hparams]; exact h.valid, hfinished.phase, by rw [hkeys]; exact h.keys, h.two_le,
    by rw [hparams]; exact h.le_max, by rw [hparams]; exact h.fits⟩, hcipher⟩

/-- R122, R123: an encrypt of magnitude n is the sweep of its L(n) steps over the message. -/
theorem encryptOperation_completes {s : State} {n : Nat} (h : Ready s n) :
    ∃ t, encryptOperation s n = .next t ∧ Completed s n t ∧
      t.dataWord = (s.cipher n).encrypt (streamLength n) s.dataWord := by
  have hmag := magnitude_ofNat h.n_lt
  have hc : Ready s (magnitude (BitVec.ofNat 32 n)) := by rw [hmag]; exact h
  obtain ⟨t, hsteps, ht⟩ := encAt_steps hc.launched (negative_ofNat h.n_lt) _ (Nat.le_refl _)
  have hlen := hc.accepted_length
  have hwords := ht.words
  rw [hlen] at hsteps
  rw [hlen, hc.accepted_n] at hwords
  rw [hmag] at hsteps hwords
  refine ⟨t, ?runs, ?completed, hwords⟩
  case runs =>
    have hcount : 3 + n * (12 + 128 / n) = 2 + (1 + streamLength n) := by rw [streamLength, roundsOf]; omega
    rw [encryptOperation, hcount]
    exact (steps_add (steps_runTransactions hc) _).trans hsteps
  case completed => rw [← hmag]; exact hc.completed ht.frame (ht.finished rfl)

/-- R122, R123: a decrypt of magnitude n undoes the L(n) steps, the last one first. -/
theorem decryptOperation_completes {s : State} {n : Nat} (h : Ready s n) :
    ∃ t, decryptOperation s n = .next t ∧ Completed s n t ∧
      t.dataWord = (s.cipher n).decrypt (streamLength n) s.dataWord := by
  have hmag := magnitude_neg_ofNat h.n_lt
  have hc : Ready s (magnitude (-BitVec.ofNat 32 n)) := by rw [hmag]; exact h
  have hdir := negative_neg_ofNat h.n_lt (Nat.le_of_succ_le h.two_le)
  obtain ⟨t, hsteps, ht⟩ := decAt_steps hc.launched hdir _ (Nat.le_refl _)
  rw [Nat.sub_self] at ht
  have hlen := hc.accepted_length
  have hwords := ht.words
  rw [hlen] at hsteps
  rw [hlen, hc.accepted_n] at hwords
  rw [hmag] at hsteps hwords
  refine ⟨t, ?runs, ?completed, hwords⟩
  case runs =>
    have hcount : 3 + 2 * (n * (12 + 128 / n)) = 2 + (1 + streamLength n + streamLength n) := by
      rw [streamLength, roundsOf]; omega
    rw [decryptOperation, hcount]
    exact (steps_add (steps_runTransactions hc) _).trans hsteps
  case completed => rw [← hmag]; exact hc.completed ht.frame (ht.finished rfl).1

/-- Settles O48: either operation leaves the state ready for the other under the same cipher, whose two sweeps undo each
other. -/
theorem roundTripRestoresTheMessage : Obligations.RoundTripRestoresTheMessage := by
  intro s n hvalid hidle hkeys h2 hmax hfits
  have h : Ready s n := ⟨hvalid, hidle, hkeys, h2, hmax, hfits⟩
  constructor
  · obtain ⟨t, ht, hdone, hwords⟩ := encryptOperation_completes h
    obtain ⟨u, hu, hdone', hwords'⟩ := decryptOperation_completes hdone.ready
    refine ⟨t, u, ht, hdone.done, hu, hdone'.done, fun i _ => ?_⟩
    rw [hwords', hwords, hdone.cipher, Cipher.decrypt_encrypt h2]
  · obtain ⟨t, ht, hdone, hwords⟩ := decryptOperation_completes h
    obtain ⟨u, hu, hdone', hwords'⟩ := encryptOperation_completes hdone.ready
    refine ⟨t, u, ht, hdone.done, hu, hdone'.done, fun i _ => ?_⟩
    rw [hwords', hwords, hdone.cipher, Cipher.encrypt_decrypt h2]

end Sys2Proof.Machine
end
